-- ==== Sys2Proof/Word.lean ====
section
/-!
DEFINITION. The machine word of the String Resonator Core and the plainest reading of a word as a
REAL (binary32) bit pattern: spec/00_scope.md rules R6, R7, R10.
-/

namespace Sys2Proof

/-- One word: `W` = 32 bits, the width of every data port, buffer word and REAL register (R6, R61). -/
abbrev Word := BitVec 32

/-- One byte, the unit in which a packet or a dump is serialised (R64, R86). -/
abbrev Byte := BitVec 8

/-- The exponent and fraction field of a REAL pattern, bits 30..0, as a number (R10). For patterns of
one sign it orders the values they stand for. -/
def magBits (x : Word) : Nat := x.toNat % 2 ^ 31

/-- The magnitude field of the infinities: exponent all ones, fraction zero (R10). -/
def infMag : Nat := 0x7F800000

/-- The pattern is a NaN: exponent all ones, fraction not zero (R10). -/
def isNaN (x : Word) : Bool := decide (infMag < magBits x)

/-- The pattern is a positive finite REAL, the condition R181 puts on the straps. -/
def isPosFinite (x : Word) : Bool := decide (0 < x.toNat) && decide (x.toNat < infMag)

end Sys2Proof
end

