-- ==== Sys2Proof/Config.lean ====
section
/-!
DEFINITION. The configuration of the String Resonator Core: the parameters the source fixes (R5), the
parameters it leaves OPEN (R6), and the free values. An OPEN parameter and a free value is an `opaque`
constant without a body: no proof can learn what it is, so whatever is proved holds for every choice.
Where the spec bounds such a parameter (R181, R104, R19), the bound is put on it by a definition that
lets every legal value through and turns an illegal one into a legal one.
-/

namespace Sys2Proof

/-- The two variants of the Filter capability (R36). -/
inductive Variant
  /-- the one-pole exponential damping filter, CombFilter (R111) -/
  | comb
  /-- the state-variable filter of the external library (R112) -/
  | svf
  deriving DecidableEq, Repr, Inhabited

/-- `filter_type` of a FilterSetting: the six members the source names (R39). A configuration with a
further member is outside the spec (U5, U9). -/
inductive FilterType
  | lowpass | highpass | bandpass | notch | peaking | allpass
  deriving DecidableEq, Repr, Inhabited

/-- The tie rule of `ROUND_INT` (R17). -/
inductive RoundTies
  | even | away
  deriving DecidableEq, Repr, Inhabited

/-- `SvfCoef`, the coefficient set owned by the external library (R40). The spec leaves the type to
the configuration. A list of words can carry whatever finite data a library keeps. DESIGN CHOICE
(notes/assumptions/6.md), safe: no definition of the model looks inside. -/
structure SvfCoef where
  words : List Word
  deriving DecidableEq, Repr, Inhabited

/-- `SvfState`, the per-sample history owned by the external library (R41), carried as `SvfCoef` is. -/
structure SvfState where
  words : List Word
  deriving DecidableEq, Repr, Inhabited

/-- The parameter registers, as an index of their unspecified reset values (R48, R49, U4). -/
inductive GlobalParam
  | dry | wet | lrate | ldepth | base
  deriving DecidableEq, Repr, Inhabited

/-- The parameter registers of one voice (R49). -/
inductive VoiceParam
  | vgain | vcut | vq | voff
  deriving DecidableEq, Repr, Inhabited

namespace Config

/-! ### Parameters the source fixes (R5) -/

/-- `CAP`, the capacity of a delay line in samples (R5). -/
abbrev cap : Nat := 5000

/-- `NV`, the number of voices (R5). -/
abbrev nv : Nat := 4

/-- `IDXW = ceil(log2(CAP))`, the width of an index register (R6, R20). -/
abbrev idxw : Nat := 13

/-- `DECAY`, the voice's fixed damping factor, the binary32 nearest to 0.98 (R5, R13). -/
def decay : Word := 0x3F7AE148

/-- `PERIOD`, the LFO's fixed normalization constant 441000 (R5, R13). -/
def period : Word := 0x48D75500

/-- `ROUND_TIES`: the spec's value for this hardware is `even` (R6, R17, D9). Every operation that
rounds takes the tie rule as an argument, so that a claim can be made for both. -/
def roundTies : RoundTies := .even

/-! ### Parameters the source leaves open (R6) -/

/-- The strap behind `FS`. -/
opaque fsStrap : Word

/-- `FS`, the sample rate, a positive finite REAL (R6, R181): every such value is some strap's, and a
strap that is none of them is outside the spec (U9) and reads as 44100. -/
def fs : Word := if isPosFinite fsStrap then fsStrap else 0x472C4400

/-- The strap behind `BASE_HZ`. -/
opaque baseHzStrap : Word

/-- `BASE_HZ`, the reference frequency, a positive finite REAL (R6, R181); as `fs`, with 440 for a
strap outside the spec. -/
def baseHz : Word := if isPosFinite baseHzStrap then baseHzStrap else 0x43DC0000

/-- `FILTER_VARIANT[v]` (R6, R36). -/
opaque filterVariant : Fin nv → Variant

/-- `SVF_TYPE` (R6, R38). -/
opaque svfType : FilterType

/-- The pattern behind the one NaN value of the datapath. -/
opaque nanPattern : Word

/-- The model's one NaN value: some NaN pattern, not specified which (R19, U7). -/
def nan : Word := if isNaN nanPattern then nanPattern else 0x7FC00000

/-- The strap behind `SVF_GAIN`. -/
opaque svfGainStrap : Word

/-- `SVF_GAIN`, a REAL (R6, R38): a strap that is a NaN pattern is the one NaN value (R19). -/
def svfGain : Word := if isNaN svfGainStrap then nan else svfGainStrap

/-- The function behind `SVF_COEF(filter_type, sample_rate, cutoff, q, gain)`; `none` is `FAIL`
(R112). -/
opaque svfCoef : FilterType → Word → Word → Word → Word → Option SvfCoef

/-- The function behind `SVF_TICK(coefficients, state, input)` (R112). -/
opaque svfTick : SvfCoef → SvfState → Word → SvfState × Word

/-- `SVF_COEF_RESET` (R40). -/
opaque svfCoefReset : SvfCoef

/-- `SVF_STATE_RESET` (R41). -/
opaque svfStateReset : SvfState

/-- Which of its two values `COMB_A_RESET` has (R37, conflict C3). -/
opaque combAResetIsOne : Bool

/-- `COMB_A_RESET`, `+0.0` or `1.0` (R37). -/
def combAReset : Word := if combAResetIsOne then 0x3F800000 else 0

/-- The function behind `EXP` (R14). -/
opaque exp : Word → Word

/-- The function behind `SIN` (R15). -/
opaque sin : Word → Word

/-- The function behind `POW2` (R16). -/
opaque pow2 : Word → Word

/-- The function behind `LOG2` (R16). -/
opaque log2 : Word → Word

/-! ### Free values -/

/-- The unspecified reset word of a global parameter register (R50, R54, U4). -/
opaque globalParamReset : GlobalParam → Word

/-- The unspecified reset word of a voice's parameter register (R50, R54, U4). -/
opaque voiceParamReset : Fin nv → VoiceParam → Word

/-- The draw behind `UNSPEC_AMT`, one for each command and voice (R104, U3). -/
opaque amountDraw : Nat → Nat → Nat

/-- `UNSPEC_AMT`: some index below `CAP`, drawn anew for each command (by its serial number) and voice
(R104, U3). -/
def unspecAmt (serial voice : Nat) : BitVec idxw := BitVec.ofNat idxw (amountDraw serial voice % cap)

/-- The draw behind the NaN pattern that a response shows. -/
opaque nanDraw : Nat → Word

/-- Some NaN pattern for the response of the command with this serial number (R19, U7). -/
def nanShown (serial : Nat) : Word := if isNaN (nanDraw serial) then nanDraw serial else 0x7FC00000

end Config

end Sys2Proof
end

