-- ==== Sys2Proof/Syntax.lean ====
section
/-!
DEFINITION. The instruction set: the command packet (R75), the fourteen operations of the opcode map
(R79), and the registers that PWR and PRD name (R52).
-/

namespace Sys2Proof

/-- A command packet: the command word and the two operands, presented together (R75). -/
structure Packet where
  cmd : Word
  a : Word
  b : Word
  deriving DecidableEq, Repr

/-- A response: the error flag and the result word (R9, R75). -/
structure Response where
  err : Bool
  r : Word
  deriving DecidableEq, Repr

/-- The fourteen opcodes (R79). -/
inductive Opcode
  | dpush | dpop | dsetf | ftick | fsetc | fsetq | vproc
  | lnext | lsetf | lseta | eframe | esamp | pwr | prd
  deriving DecidableEq, Repr

/-- The registers of one voice, offsets 0 to 13 of its page (R52). -/
inductive VoiceReg
  | pVgain | pVcut | pVq | pVoff
  | dlWp | dlAmt | dlLast | eVgain | eNote | cfB | cfA | cfY | fsCut | fsQ
  deriving DecidableEq, Repr

/-- The registers of the register map (R52). -/
inductive Reg
  | pDry | pWet | pLrate | pLdepth | pBase
  | status | lfoPhase | lfoRate | lfoAmt | eDry
  | cfgCap | cfgNv | cfgFs | cfgBaseHz | cfgDecay | cfgPeriod | cfgVariant | cfgSvfType | cfgSvfGain
  | voice (v : Fin Config.nv) (k : VoiceReg)
  deriving DecidableEq, Repr

/-- One constructor for each row of the opcode map, with the live operands of its format (R77, R79).
An operand that the operation ignores (R9) is not carried. -/
inductive Instr
  /-- push `x` (R101) -/
  | dpush (v : Fin Config.nv) (x : Word)
  /-- pop (R102) -/
  | dpop (v : Fin Config.nv)
  /-- tune the lag to `f` at the sample rate `rate` (R104) -/
  | dsetf (v : Fin Config.nv) (f rate : Word)
  /-- tick the filter with `x` (R113) -/
  | ftick (v : Fin Config.nv) (x : Word)
  /-- set the filter's cutoff (R114) -/
  | fsetc (v : Fin Config.nv) (c : Word)
  /-- set the filter's Q (R116) -/
  | fsetq (v : Fin Config.nv) (q : Word)
  /-- one feedback step of the voice (R126) -/
  | vproc (v : Fin Config.nv) (x : Word)
  /-- the LFO's next value (R131) -/
  | lnext
  /-- set the LFO's rate (R132) -/
  | lsetf (f : Word)
  /-- set the LFO's amount (R133) -/
  | lseta (m : Word)
  /-- the per-frame steps of the engine (R142) -/
  | eframe
  /-- one channel sample (R144) -/
  | esamp (x : Word)
  /-- write a parameter register (R151) -/
  | pwr (reg : Reg) (x : Word)
  /-- read a register (R152) -/
  | prd (reg : Reg)
  deriving DecidableEq, Repr

/-- The opcode of an instruction (R79). -/
def Instr.opcode : Instr → Opcode
  | .dpush _ _ => .dpush
  | .dpop _ => .dpop
  | .dsetf _ _ _ => .dsetf
  | .ftick _ _ => .ftick
  | .fsetc _ _ => .fsetc
  | .fsetq _ _ => .fsetq
  | .vproc _ _ => .vproc
  | .lnext => .lnext
  | .lsetf _ => .lsetf
  | .lseta _ => .lseta
  | .eframe => .eframe
  | .esamp _ => .esamp
  | .pwr _ _ => .pwr
  | .prd _ => .prd

end Sys2Proof
end

