-- ==== Sys2Proof/WellFormed.lean ====
section
/-!
DEFINITION. Which instructions are well formed, and which configurations. A voice operand and a
register operand are legal by their types; what is left to check of an instruction is that PWR names a
read-write register (R81 (e), R151).
-/

namespace Sys2Proof

/-- The voice register is one of the four read-write parameters, offsets 0 to 3 (R52). -/
def VoiceReg.writable : VoiceReg → Bool
  | .pVgain | .pVcut | .pVq | .pVoff => true
  | .dlWp | .dlAmt | .dlLast | .eVgain | .eNote | .cfB | .cfA | .cfY | .fsCut | .fsQ => false

/-- The register is read-write (R52, R151). -/
def Reg.writable : Reg → Bool
  | .pDry | .pWet | .pLrate | .pLdepth | .pBase => true
  | .status | .lfoPhase | .lfoRate | .lfoAmt | .eDry => false
  | .cfgCap | .cfgNv | .cfgFs | .cfgBaseHz | .cfgDecay | .cfgPeriod | .cfgVariant | .cfgSvfType
  | .cfgSvfGain => false
  | .voice _ k => k.writable

/-- The instruction is one that some legal packet stands for (R81). -/
def Instr.wf : Instr → Bool
  | .dpush _ _ | .dpop _ | .dsetf _ _ _ => true
  | .ftick _ _ | .fsetc _ _ | .fsetq _ _ | .vproc _ _ => true
  | .lnext | .lsetf _ | .lseta _ => true
  | .eframe | .esamp _ => true
  | .pwr reg _ => reg.writable
  | .prd _ => true

/-- The constraints of R5 and R20 on a capacity, a voice count and an index width. -/
def sizesLegal (cap nv idxw : Nat) : Bool :=
  decide (2 ≤ cap) && decide (cap ≤ 2 ^ 24) && decide (1 ≤ nv) && decide (nv ≤ 16)
    && decide (cap ≤ 2 ^ idxw) && decide (2 ^ (idxw - 1) < cap)

/-- The constraints of R181 on the two straps. -/
def strapsLegal (fs baseHz : Word) : Bool := isPosFinite fs && isPosFinite baseHz

end Sys2Proof
end

