-- ==== Sys2Proof/Decode.lean ====
section
/-!
DEFINITION. The command encoding: the fields of the command word (R76), the opcode and register maps
(R79, R52, R84), the total decoder (R80, R81), the encoder (R87), and the serialised forms (R86). All
bit positions are the spec's own.
-/

namespace Sys2Proof

/-! ### Fields of the command word (R76) -/

/-- `op`, bits 31..24. -/
def opField (cmd : Word) : BitVec 8 := cmd.extractLsb' 24 8

/-- `v`, bits 23..16. -/
def vField (cmd : Word) : BitVec 8 := cmd.extractLsb' 16 8

/-- `n`, bits 15..0. -/
def nField (cmd : Word) : BitVec 16 := cmd.extractLsb' 0 16

/-- The command word with these three fields. -/
def commandWord (op v : BitVec 8) (n : BitVec 16) : Word := op ++ v ++ n

/-! ### The opcode map (R79) -/

/-- The `op` value of an opcode (R79). -/
def Opcode.toByte : Opcode → BitVec 8
  | .dpush => 0x10
  | .dpop => 0x11
  | .dsetf => 0x12
  | .ftick => 0x20
  | .fsetc => 0x21
  | .fsetq => 0x22
  | .vproc => 0x30
  | .lnext => 0x40
  | .lsetf => 0x41
  | .lseta => 0x42
  | .eframe => 0x50
  | .esamp => 0x51
  | .pwr => 0x60
  | .prd => 0x61

/-- All opcodes, in the order of the opcode map. -/
def Opcode.all : List Opcode :=
  [.dpush, .dpop, .dsetf, .ftick, .fsetc, .fsetq, .vproc, .lnext, .lsetf, .lseta, .eframe, .esamp,
    .pwr, .prd]

/-- The opcode that an `op` value stands for, if it is one of the fourteen (R80). -/
def opcodeOf (op : BitVec 8) : Option Opcode := Opcode.all.find? (fun o => o.toByte == op)

/-! ### The register map (R52, R84) -/

/-- The numbers of the global registers (R48, R47, R43, R44, R51). -/
def globalRegs : List (Nat × Reg) :=
  [(0x0000, .pDry), (0x0001, .pWet), (0x0002, .pLrate), (0x0003, .pLdepth), (0x0004, .pBase),
    (0x0010, .status), (0x0011, .lfoPhase), (0x0012, .lfoRate), (0x0013, .lfoAmt), (0x0014, .eDry),
    (0x0020, .cfgCap), (0x0021, .cfgNv), (0x0022, .cfgFs), (0x0023, .cfgBaseHz), (0x0024, .cfgDecay),
    (0x0025, .cfgPeriod), (0x0026, .cfgVariant), (0x0027, .cfgSvfType), (0x0028, .cfgSvfGain)]

/-- The offsets `k` of a voice's registers in its page (R49, R32, R33, R34, R44, R37, R38). -/
def voiceRegs : List (Nat × VoiceReg) :=
  [(0, .pVgain), (1, .pVcut), (2, .pVq), (3, .pVoff), (4, .dlWp), (5, .dlAmt), (6, .dlLast),
    (7, .eVgain), (8, .eNote), (9, .cfB), (10, .cfA), (11, .cfY), (12, .fsCut), (13, .fsQ)]

/-- The register a number names; `none` for a reserved number (R52). A voice's page is
`n[15:8] = 0x01` with the voice in `n[7:4]` and the offset in `n[3:0]` (R84). -/
def regOfNumber (n : BitVec 16) : Option Reg :=
  if n.extractLsb' 8 8 = 0x01#8 then
    if h : (n.extractLsb' 4 4).toNat < Config.nv then
      (voiceRegs.lookup (n.extractLsb' 0 4).toNat).map (Reg.voice ⟨_, h⟩)
    else none
  else globalRegs.lookup n.toNat

/-- The offset of a voice's register in its page (R52). -/
def VoiceReg.offset : VoiceReg → Nat
  | .pVgain => 0
  | .pVcut => 1
  | .pVq => 2
  | .pVoff => 3
  | .dlWp => 4
  | .dlAmt => 5
  | .dlLast => 6
  | .eVgain => 7
  | .eNote => 8
  | .cfB => 9
  | .cfA => 10
  | .cfY => 11
  | .fsCut => 12
  | .fsQ => 13

/-- The number of a register (R52): the voice block is `0x0100 + 0x10*v + k`. -/
def Reg.number : Reg → BitVec 16
  | .pDry => 0x0000
  | .pWet => 0x0001
  | .pLrate => 0x0002
  | .pLdepth => 0x0003
  | .pBase => 0x0004
  | .status => 0x0010
  | .lfoPhase => 0x0011
  | .lfoRate => 0x0012
  | .lfoAmt => 0x0013
  | .eDry => 0x0014
  | .cfgCap => 0x0020
  | .cfgNv => 0x0021
  | .cfgFs => 0x0022
  | .cfgBaseHz => 0x0023
  | .cfgDecay => 0x0024
  | .cfgPeriod => 0x0025
  | .cfgVariant => 0x0026
  | .cfgSvfType => 0x0027
  | .cfgSvfGain => 0x0028
  | .voice v k => BitVec.ofNat 16 (0x0100 + 0x10 * v.val + k.offset)

/-! ### The decoder (R80, R81) -/

/-- Why a command word is illegal (R81). -/
inductive DecodeError
  /-- (a) an `op` value outside the opcode map -/
  | unknownOpcode
  /-- (b), (c) the `n` field must be zero and is not -/
  | numberFieldNotZero
  /-- (c), (d) the `v` field must be zero and is not -/
  | voiceFieldNotZero
  /-- (b) `v >= NV` -/
  | noSuchVoice
  /-- (e), (f) the register number is reserved -/
  | noSuchRegister
  /-- (e) PWR to a register that is not read-write -/
  | notWritable
  /-- a byte string that is not the twelve bytes of a packet (R86) -/
  | notAPacket
  deriving DecidableEq, Repr

/-- The live field of the V format (R77, R81 (b)). -/
def voiceOperand (cmd : Word) : Except DecodeError (Fin Config.nv) :=
  if nField cmd ≠ 0 then .error .numberFieldNotZero
  else if h : (vField cmd).toNat < Config.nv then .ok ⟨_, h⟩
  else .error .noSuchVoice

/-- The G format has no live field (R77, R81 (c)). -/
def noOperand (cmd : Word) (i : Instr) : Except DecodeError Instr :=
  if vField cmd ≠ 0 then .error .voiceFieldNotZero
  else if nField cmd ≠ 0 then .error .numberFieldNotZero
  else .ok i

/-- The live field of the R format (R77, R81 (d), (e), (f)). -/
def registerOperand (cmd : Word) : Except DecodeError Reg :=
  if vField cmd ≠ 0 then .error .voiceFieldNotZero
  else
    match regOfNumber (nField cmd) with
    | none => .error .noSuchRegister
    | some r => .ok r

/-- PWR wants a read-write register (R81 (e), R151). -/
def writableOperand (cmd : Word) : Except DecodeError Reg :=
  match registerOperand cmd with
  | .error e => .error e
  | .ok r => if r.writable then .ok r else .error .notWritable

/-- The checks and the operands of one opcode's row (R79); an operand the row does not use is
ignored, whatever its bits (R9). -/
def decodeAs (p : Packet) : Opcode → Except DecodeError Instr
  | .dpush => (voiceOperand p.cmd).map fun v => .dpush v p.a
  | .dpop => (voiceOperand p.cmd).map fun v => .dpop v
  | .dsetf => (voiceOperand p.cmd).map fun v => .dsetf v p.a p.b
  | .ftick => (voiceOperand p.cmd).map fun v => .ftick v p.a
  | .fsetc => (voiceOperand p.cmd).map fun v => .fsetc v p.a
  | .fsetq => (voiceOperand p.cmd).map fun v => .fsetq v p.a
  | .vproc => (voiceOperand p.cmd).map fun v => .vproc v p.a
  | .lnext => noOperand p.cmd .lnext
  | .lsetf => noOperand p.cmd (.lsetf p.a)
  | .lseta => noOperand p.cmd (.lseta p.a)
  | .eframe => noOperand p.cmd .eframe
  | .esamp => noOperand p.cmd (.esamp p.a)
  | .pwr => (writableOperand p.cmd).map fun r => .pwr r p.a
  | .prd => (registerOperand p.cmd).map fun r => .prd r

/-- The decoder: total on every packet (R80). -/
def decode (p : Packet) : Except DecodeError Instr :=
  match opcodeOf (opField p.cmd) with
  | none => .error .unknownOpcode
  | some op => decodeAs p op

/-! ### The encoder (R87) -/

/-- The V-format command word of an opcode and a voice. -/
def voiceCommand (op : Opcode) (v : Fin Config.nv) : Word :=
  commandWord op.toByte (BitVec.ofNat 8 v.val) 0

/-- The G-format command word of an opcode. -/
def globalCommand (op : Opcode) : Word := commandWord op.toByte 0 0

/-- The R-format command word of an opcode and a register. -/
def registerCommand (op : Opcode) (r : Reg) : Word := commandWord op.toByte 0 r.number

/-- The packet of an instruction; an unused operand is written 0, as the assembler does (R87). -/
def encode : Instr → Packet
  | .dpush v x => ⟨voiceCommand .dpush v, x, 0⟩
  | .dpop v => ⟨voiceCommand .dpop v, 0, 0⟩
  | .dsetf v f rate => ⟨voiceCommand .dsetf v, f, rate⟩
  | .ftick v x => ⟨voiceCommand .ftick v, x, 0⟩
  | .fsetc v c => ⟨voiceCommand .fsetc v, c, 0⟩
  | .fsetq v q => ⟨voiceCommand .fsetq v, q, 0⟩
  | .vproc v x => ⟨voiceCommand .vproc v, x, 0⟩
  | .lnext => ⟨globalCommand .lnext, 0, 0⟩
  | .lsetf f => ⟨globalCommand .lsetf, f, 0⟩
  | .lseta m => ⟨globalCommand .lseta, m, 0⟩
  | .eframe => ⟨globalCommand .eframe, 0, 0⟩
  | .esamp x => ⟨globalCommand .esamp, x, 0⟩
  | .pwr r x => ⟨registerCommand .pwr r, x, 0⟩
  | .prd r => ⟨registerCommand .prd r, 0, 0⟩

/-! ### The match and mask table (R79) -/

/-- A row of the opcode map as match and mask over the command word. -/
structure OpcodeRow where
  op : Opcode
  pattern : Word
  mask : Word
  deriving DecidableEq, Repr

/-- The opcode map, copied row by row (R79). -/
def opcodeRows : List OpcodeRow :=
  [⟨.dpush, 0x10000000, 0xFF00FFFF⟩, ⟨.dpop, 0x11000000, 0xFF00FFFF⟩,
    ⟨.dsetf, 0x12000000, 0xFF00FFFF⟩, ⟨.ftick, 0x20000000, 0xFF00FFFF⟩,
    ⟨.fsetc, 0x21000000, 0xFF00FFFF⟩, ⟨.fsetq, 0x22000000, 0xFF00FFFF⟩,
    ⟨.vproc, 0x30000000, 0xFF00FFFF⟩, ⟨.lnext, 0x40000000, 0xFFFFFFFF⟩,
    ⟨.lsetf, 0x41000000, 0xFFFFFFFF⟩, ⟨.lseta, 0x42000000, 0xFFFFFFFF⟩,
    ⟨.eframe, 0x50000000, 0xFFFFFFFF⟩, ⟨.esamp, 0x51000000, 0xFFFFFFFF⟩,
    ⟨.pwr, 0x60000000, 0xFFFF0000⟩, ⟨.prd, 0x61000000, 0xFFFF0000⟩]

/-- The row selects the word: `(w & mask) == match` (R79). -/
def OpcodeRow.selects (row : OpcodeRow) (cmd : Word) : Bool := cmd &&& row.mask == row.pattern

/-- The extra condition of an opcode's row (R79). -/
def Opcode.condition (cmd : Word) : Opcode → Bool
  | .dpush | .dpop | .dsetf | .ftick | .fsetc | .fsetq | .vproc =>
    decide ((vField cmd).toNat < Config.nv)
  | .lnext | .lsetf | .lseta | .eframe | .esamp => true
  | .pwr => (regOfNumber (nField cmd)).any Reg.writable
  | .prd => (regOfNumber (nField cmd)).isSome

/-! ### Serialised forms (R64, R86) -/

/-- The four bytes of a word, least significant first (R64). -/
def wordBytes (w : Word) : List Byte :=
  [w.extractLsb' 0 8, w.extractLsb' 8 8, w.extractLsb' 16 8, w.extractLsb' 24 8]

/-- The word of four bytes, least significant first (R64). -/
def wordOfBytes (b0 b1 b2 b3 : Byte) : Word := b3 ++ b2 ++ b1 ++ b0

/-- A packet as twelve bytes: `cmd`, then `a`, then `b` (R86). -/
def Packet.toBytes (p : Packet) : List Byte := wordBytes p.cmd ++ wordBytes p.a ++ wordBytes p.b

/-- The packet that twelve bytes stand for (R86). -/
def packetOfBytes : List Byte → Option Packet
  | [c0, c1, c2, c3, a0, a1, a2, a3, b0, b1, b2, b3] =>
    some ⟨wordOfBytes c0 c1 c2 c3, wordOfBytes a0 a1 a2 a3, wordOfBytes b0 b1 b2 b3⟩
  | _ => none

/-- A response as five bytes: `err` in bit 0 of the first, then `r` (R86). -/
def Response.toBytes (p : Response) : List Byte := (if p.err then 1 else 0) :: wordBytes p.r

/-- The decoder on a byte string: total, twelve bytes or refused by name (R86). -/
def decodeBytes (bytes : List Byte) : Except DecodeError Instr :=
  match packetOfBytes bytes with
  | none => .error .notAPacket
  | some p => decode p

/-- The packet whose bits are `w`, the command word in bits 31..0, `a` in bits 63..32 and `b` in bits
95..64, with every bit from `nbits` on zero. -/
def packetOfNat (nbits w : Nat) : Packet :=
  let bits := w % 2 ^ nbits
  ⟨BitVec.ofNat 32 bits, BitVec.ofNat 32 (bits / 2 ^ 32), BitVec.ofNat 32 (bits / 2 ^ 64)⟩

/-- The instruction read from a word numbered as spec/opcode_table.json numbers it: its packet is laid
out as twelve bytes and given to the decoder. -/
def decodeTableWord (nbits w : Nat) : Option Instr :=
  (decodeBytes (packetOfNat nbits w).toBytes).toOption

end Sys2Proof
end

