-- ==== Sys2Proof/Machine/State.lean ====
section
/-!
DEFINITION. The state of the String Resonator Core, all of spec/10_state.md, as plain data, the reasons
a step can stop, and the state after reset (R54, R180).
-/

namespace Sys2Proof.Machine

/-- The memory of one delay buffer: the bytes that differ from what an unlisted address reads as, by
strictly rising address. The word at index `i` stands in the bytes at `4*i .. 4*i+3`, least significant
first, the order R64 gives a memory dump. DESIGN CHOICE (notes/assumptions/4.md), safe: no operation
sees part of a word (R61). -/
abbrev Memory := List Host.Cell

/-- What an unlisted address reads as: every slot is `+0.0` after reset (R31). -/
def Memory.unlisted : Byte := 0

/-- The canonical form: addresses strictly rising and inside the buffer's `CAP` words, and no entry
equal to what an unlisted address reads as. -/
def Memory.wf (m : Memory) : Bool :=
  decide (m.Pairwise (fun c d => c.1 < d.1))
    && m.all (fun c => decide (c.1 < 4 * Config.cap) && c.2 != Memory.unlisted)

/-- The state of a filter of variant `COMB` (R37). -/
structure CombFilter where
  /-- `CF_B` -/
  b : Word
  /-- `CF_A` -/
  a : Word
  /-- `CF_Y` -/
  y : Word
  deriving DecidableEq, Repr

/-- The state of a filter of variant `SVF` (R38, R40, R41). -/
structure SvfFilter where
  /-- `FS_TYPE` -/
  type : FilterType
  /-- `FS_SRATE` -/
  srate : Word
  /-- `FS_CUT` -/
  cut : Word
  /-- `FS_Q` -/
  q : Word
  /-- `FS_GAIN` -/
  gain : Word
  /-- `SVF_CO` -/
  co : SvfCoef
  /-- `SVF_ST` -/
  st : SvfState
  deriving DecidableEq, Repr

/-- A voice's filter: a voice of one variant has that variant's state and none of the other's (R36). -/
inductive Filter
  | comb (f : CombFilter)
  | svf (f : SvfFilter)
  deriving DecidableEq, Repr

/-- The variant a filter is of; fixed by configuration and constant after reset (R36). -/
def Filter.variant : Filter → Variant
  | .comb _ => .comb
  | .svf _ => .svf

/-- One voice: a delay line, a filter, its latches and its parameter registers (R30, R44, R49). -/
structure Voice where
  /-- `DL_BUF` (R31) -/
  buf : Memory
  /-- `DL_WP` (R32) -/
  wp : BitVec Config.idxw
  /-- `DL_AMT` (R33) -/
  amt : BitVec Config.idxw
  /-- `DL_LAST` (R34) -/
  last : Word
  /-- the filter (R36) -/
  filter : Filter
  /-- `E_VGAIN` (R44) -/
  eVgain : Word
  /-- `E_NOTE` (R44) -/
  eNote : Word
  /-- `P_VGAIN` (R49) -/
  pVgain : Word
  /-- `P_VCUT` (R49) -/
  pVcut : Word
  /-- `P_VQ` (R49) -/
  pVq : Word
  /-- `P_VOFF` (R49) -/
  pVoff : Word
  deriving DecidableEq, Repr

/-- The whole machine. The last three fields are the model's own: the command port as the host drives
it, the last answer, and the counter of the free values. -/
structure State where
  /-- `P_DRY` (R48) -/
  pDry : Word
  /-- `P_WET` (R48) -/
  pWet : Word
  /-- `P_LRATE` (R48) -/
  pLrate : Word
  /-- `P_LDEPTH` (R48) -/
  pLdepth : Word
  /-- `P_BASE` (R48) -/
  pBase : Word
  /-- `STATUS` (R47) -/
  status : Word
  /-- `LFO_PHASE` (R43) -/
  lfoPhase : Word
  /-- `LFO_RATE` (R43) -/
  lfoRate : Word
  /-- `LFO_AMT` (R43) -/
  lfoAmt : Word
  /-- `E_DRY` (R44) -/
  eDry : Word
  /-- the `NV` voices (R30) -/
  voices : Vector Voice Config.nv
  /-- the packets the host will present, the next one first (R23, R75); the host's, not the SRC's -/
  cmdIn : List Packet
  /-- the answer to the last command, `none` before the first (R9, R85) -/
  resp : Option Response
  /-- how many legal commands have been answered: it tells one draw of a free value from the next -/
  serial : Nat
  deriving DecidableEq, Repr

/-- Why a step stops with a fault. -/
inductive Fault
  /-- Raised by DPUSH, VPROC and ESAMP when `DL_WP` of the voice is `CAP` or more, so that the word
  they would write does not exist (R31, R65). No state that a run from reset reaches has such a pointer
  (R35). Safe: the machine stops where the spec gives no word to write. -/
  | noBufferWord (voice index : Nat)
  deriving DecidableEq, Repr

/-- Why a step is refused. -/
inductive Refusal
  /-- Raised by `exec` for an instruction without a meaning. No arm of this model raises it. Safe. -/
  | notModelled (mnemonic : String)
  deriving DecidableEq, Repr

/-- The filter of voice `v` after reset, of the variant the configuration gives it (R36, R54). -/
def resetFilter (v : Fin Config.nv) : Filter :=
  match Config.filterVariant v with
  | .comb => .comb ⟨0, Config.combAReset, 0⟩
  | .svf =>
    .svf ⟨Config.svfType, Config.fs, 0, 0, Config.svfGain, Config.svfCoefReset, Config.svfStateReset⟩

/-- Voice `v` after a reset that leaves the words `w` in its parameter registers (R54, U4). -/
def resetVoice (w : Fin Config.nv → VoiceParam → Word) (v : Fin Config.nv) : Voice where
  buf := []
  wp := 0
  amt := 0
  last := 0
  filter := resetFilter v
  eVgain := 0
  eNote := 0
  pVgain := w v .vgain
  pVcut := w v .vcut
  pVq := w v .vq
  pVoff := w v .voff

/-- The state after a reset that leaves the words `g` and `w` in the parameter registers, the table of
R54: the SRC is idle and the host has presented nothing. The parameter registers have no reset value
(U4): one draw for each register and reset. -/
def State.resetWith (g : GlobalParam → Word) (w : Fin Config.nv → VoiceParam → Word) : State where
  pDry := g .dry
  pWet := g .wet
  pLrate := g .lrate
  pLdepth := g .ldepth
  pBase := g .base
  status := 0
  lfoPhase := 0
  lfoRate := 0
  lfoAmt := 0
  eDry := 0
  voices := Vector.ofFn (resetVoice w)
  cmdIn := []
  resp := none
  serial := 0

/-- The state after reset, with the words the configuration draws for the parameter registers. DESIGN
CHOICE (notes/assumptions/3.md): two runs of the model start from the same words. -/
def State.reset : State := State.resetWith Config.globalParamReset Config.voiceParamReset

end Sys2Proof.Machine
end

