-- ==== Sys2Proof/Machine/Flags.lean ====
section
/-!
DEFINITION. The one status register, `STATUS` (R47): the sticky flag `COEF_ERR[v]` in bit `v`. The SRC
has no other flag: no carry, no overflow, no IEEE exception flag (R11, R47).
-/

namespace Sys2Proof.Machine

/-- The bit of `COEF_ERR[v]` (R47). -/
def coefErrBit (v : Fin Config.nv) : Word := 1#32 <<< v.val

/-- `STATUS` after a coefficient computation of voice `v`: the flag is set on a failure and never
cleared (R47, R114, R116). -/
def recordCoefErr (failed : Bool) (v : Fin Config.nv) (status : Word) : Word :=
  if failed then status ||| coefErrBit v else status

/-- `COEF_ERR[v]`. -/
def coefErr (status : Word) (v : Fin Config.nv) : Bool := status.getLsbD v.val

/-- The bits of `STATUS` that exist, `NV-1..0`; bits `31:NV` read as zero (R47). -/
def statusMask : Word := BitVec.ofNat 32 (2 ^ Config.nv - 1)

/-- `STATUS` as a read shows it (R47). -/
def statusView (status : Word) : Word := status &&& statusMask

/-- `CFG_VARIANT`: bit `v` is 1 when `FILTER_VARIANT[v]` is `SVF`, bits `31:NV` zero (R51). -/
def variantView (variant : Fin Config.nv → Variant) : Word :=
  (List.finRange Config.nv).foldl
    (fun w v => if variant v = .svf then w ||| coefErrBit v else w) 0

/-- The number of a filter type in `CFG_SVF_TYPE` (R39). -/
def filterTypeNumber : FilterType → Word
  | .lowpass => 0
  | .highpass => 1
  | .bandpass => 2
  | .notch => 3
  | .peaking => 4
  | .allpass => 5

end Sys2Proof.Machine
end

