-- ==== Sys2Proof/Machine/Real32.lean ====
section
/-!
DEFINITION. The numeric primitives of spec/00_scope.md: binary32 values, the four arithmetic
operations, comparisons, constants and `ROUND_INT` (R10 to R13, R17, R18).

Every finite REAL is a whole number of units of `2^-149`, the smallest subnormal. A magnitude is
therefore carried as a natural number of units, arithmetic is exact on it, and one rounding
(`roundMag`) ends each operation.
-/

namespace Sys2Proof.Machine

/-! ### Reading a REAL (R10) -/

/-- The sign bit, bit 31. -/
def signBit (x : Word) : Bool := x.msb

/-- The pattern is `+Inf` or `-Inf`. -/
def isInf (x : Word) : Bool := magBits x == infMag

/-- The pattern is `+0.0` or `-0.0`. -/
def isZero (x : Word) : Bool := magBits x == 0

/-- The pattern is a finite REAL. -/
def isFinite (x : Word) : Bool := decide (magBits x < infMag)

/-- The magnitude of a finite REAL with exponent field `mag / 2^23` and fraction `mag % 2^23`, in units
of `2^-149`: subnormals have no hidden bit, bias 127 (R10). -/
def unitsOfMag (mag : Nat) : Nat :=
  if mag / 2 ^ 23 = 0 then mag else (2 ^ 23 + mag % 2 ^ 23) * 2 ^ (mag / 2 ^ 23 - 1)

/-- The magnitude of a finite REAL in units of `2^-149`. -/
def units (x : Word) : Nat := unitsOfMag (magBits x)

/-- The value of a finite REAL in units of `2^-149`. -/
def value (x : Word) : Int := if signBit x then -(units x : Int) else units x

/-- The pattern with this sign and magnitude field. -/
def packReal (neg : Bool) (mag : Nat) : Word := BitVec.ofNat 32 ((if neg then 2 ^ 31 else 0) + mag)

/-- The REAL that a pattern stands for. There is one NaN value: every NaN pattern stands for it (R19). -/
def real (x : Word) : Word := if isNaN x then Config.nan else x

/-! ### Rounding (R11, R17) -/

/-- The natural number nearest to `n / d`; a tie goes by `ties` (R17; away from zero is up here, the
sign being apart). -/
def roundQuot (ties : RoundTies) (n d : Nat) : Nat :=
  let q := n / d
  let r := n % d
  if 2 * r < d then q
  else if d < 2 * r then q + 1
  else
    match ties with
    | .even => if q % 2 = 0 then q else q + 1
    | .away => q + 1

/-- The magnitude field of the REAL nearest to `n / d` units, ties to even, and the field of infinity
when that overflows (R11). With `k` binary places dropped the rounded significand `r` is at most `2^24`
and the field is `k * 2^23 + r`: a significand of `2^23` or more carries into the exponent field by
itself. -/
def roundMag (n d : Nat) : Nat :=
  let k := Nat.log2 (n / d) - 23
  min (k * 2 ^ 23 + roundQuot .even n (d * 2 ^ k)) infMag

/-! ### Arithmetic (R11) -/

/-- `fneg` flips the sign bit (R11). -/
def fneg (p : Word) : Word := p ^^^ 0x80000000

/-- `fadd` (R11). An exact zero sum is `+0.0`, unless both operands are negative. -/
def fadd (p q : Word) : Word :=
  if isNaN p || isNaN q then Config.nan
  else if isInf p then (if isInf q && signBit p != signBit q then Config.nan else p)
  else if isInf q then q
  else
    let sum := value p + value q
    if sum = 0 then packReal (signBit p && signBit q) 0
    else packReal (decide (sum < 0)) (roundMag sum.natAbs 1)

/-- `fsub` (R11): the sum with the negated second operand. -/
def fsub (p q : Word) : Word := fadd p (fneg q)

/-- `fmul` (R11): the product of two numbers of units counts units of `2^-298`. -/
def fmul (p q : Word) : Word :=
  if isNaN p || isNaN q then Config.nan
  else if isInf p || isInf q then
    (if isZero p || isZero q then Config.nan else packReal (signBit p != signBit q) infMag)
  else packReal (signBit p != signBit q) (roundMag (units p * units q) (2 ^ 149))

/-- `fdiv` (R11): the quotient of two numbers of units, in units. -/
def fdiv (p q : Word) : Word :=
  if isNaN p || isNaN q then Config.nan
  else if isInf p then (if isInf q then Config.nan else packReal (signBit p != signBit q) infMag)
  else if isInf q then packReal (signBit p != signBit q) 0
  else if isZero q then
    (if isZero p then Config.nan else packReal (signBit p != signBit q) infMag)
  else packReal (signBit p != signBit q) (roundMag (units p * 2 ^ 149) (units q))

/-! ### Comparisons (R12) -/

/-- The order of the non-NaN REALs as integers; the two zeros coincide. -/
def orderKey (x : Word) : Int := if signBit x then -(magBits x : Int) else magBits x

/-- `p < q` (R12). -/
def flt (p q : Word) : Bool := !isNaN p && !isNaN q && decide (orderKey p < orderKey q)

/-- `p <= q` (R12). -/
def fle (p q : Word) : Bool := !isNaN p && !isNaN q && decide (orderKey p ≤ orderKey q)

/-- `p > q` (R12). -/
def fgt (p q : Word) : Bool := flt q p

/-- `p >= q` (R12). -/
def fge (p q : Word) : Bool := fle q p

/-- `p == q` (R12). -/
def feq (p q : Word) : Bool := !isNaN p && !isNaN q && decide (orderKey p = orderKey q)

/-! ### Constants (R13) -/

/-- `ZERO`. -/
def zero : Word := 0x00000000

/-- `ONE`. -/
def one : Word := 0x3F800000

/-- `NEG_ONE`. -/
def negOne : Word := 0xBF800000

/-- `TWELVE`. -/
def twelve : Word := 0x41400000

/-- `TWO_PI`. -/
def twoPi : Word := 0x40C90FDB

/-- `NEG_TWO_PI`. -/
def negTwoPi : Word := 0xC0C90FDB

/-! ### `ROUND_INT` (R17) -/

/-- An extended integer, or `NONE` (R17). -/
inductive RoundedInt
  | none | posInf | negInf
  | int (z : Int)
  deriving DecidableEq, Repr

/-- `ROUND_INT` (R17). -/
def roundInt (ties : RoundTies) (p : Word) : RoundedInt :=
  if isNaN p then .none
  else if isInf p then (if signBit p then .negInf else .posInf)
  else
    let m := roundQuot ties (units p) (2 ^ 149)
    .int (if signBit p then -(m : Int) else m)

/-! ### Numbers as REALs -/

/-- The REAL nearest to `n / d`, ties to even: how a decimal is taken (R13, R87). -/
def realOfRatio (neg : Bool) (n d : Nat) : Word := packReal neg (roundMag (n * 2 ^ 149) d)

/-- `float(k)` of R88: an integer as a REAL. -/
def realOfNat (k : Nat) : Word := realOfRatio false k 1

end Sys2Proof.Machine
end

