-- ==== Sys2Proof/Machine/Functions.lean ====
section
/-!
DEFINITION. The functions of the configuration as functions on REALs (R14 to R16, R112). A REAL has one
NaN value, so none of them tells one NaN pattern from another, and what they give is a REAL (R19).
-/

namespace Sys2Proof.Machine

/-- A function on patterns as a function on REALs (R19). -/
def onReals (f : Word → Word) (x : Word) : Word := real (f (real x))

/-- `EXP` (R14). -/
def realExp (x : Word) : Word := onReals Config.exp x

/-- `SIN` (R15). -/
def realSin (x : Word) : Word := onReals Config.sin x

/-- `POW2` (R16). -/
def realPow2 (x : Word) : Word := onReals Config.pow2 x

/-- `LOG2` (R16). -/
def realLog2 (x : Word) : Word := onReals Config.log2 x

/-- `SVF_COEF(filter_type, sample_rate, cutoff, q, gain)`; `none` is `FAIL` (R112). -/
def svfCoef (type : FilterType) (srate cut q gain : Word) : Option SvfCoef :=
  Config.svfCoef type (real srate) (real cut) (real q) (real gain)

/-- `SVF_TICK(coefficients, state, input)` (R112). -/
def svfTick (co : SvfCoef) (st : SvfState) (x : Word) : SvfState × Word :=
  let r := Config.svfTick co st (real x)
  (r.1, real r.2)

end Sys2Proof.Machine
end

