-- ==== Sys2Proof/Machine/Ops.lean ====
section
/-!
DEFINITION. The named operations over memory, voices and the command port. Every effect that more than
one command has is defined here once, under the name the composition notation of R125 gives it.
-/

namespace Sys2Proof.Machine

/-! ### Memory (spec/20_memory.md) -/

/-- The byte at an address. -/
def Memory.readByte : Memory → Nat → Byte
  | [], _ => Memory.unlisted
  | (b, x) :: rest, a => if a = b then x else Memory.readByte rest a

/-- An entry in front of a list, unless it says what an unlisted address says. -/
def Memory.put (a : Nat) (x : Byte) (rest : Memory) : Memory :=
  if x = Memory.unlisted then rest else (a, x) :: rest

/-- The memory with one byte written; the canonical form is kept. -/
def Memory.writeByte : Memory → Nat → Byte → Memory
  | [], a, x => Memory.put a x []
  | (b, y) :: rest, a, x =>
    if a < b then Memory.put a x ((b, y) :: rest)
    else if a = b then Memory.put a x rest
    else (b, y) :: Memory.writeByte rest a x

/-- `MemRead((v, i), 1)`: the whole word at an index (R8, R66). -/
def Memory.readWord (m : Memory) (i : Nat) : Word :=
  wordOfBytes (m.readByte (4 * i)) (m.readByte (4 * i + 1)) (m.readByte (4 * i + 2))
    (m.readByte (4 * i + 3))

/-- `MemWrite((v, i), 1, val)`: the whole word at an index (R8, R66). -/
def Memory.writeWord (m : Memory) (i : Nat) (w : Word) : Memory :=
  (((m.writeByte (4 * i) (w.extractLsb' 0 8)).writeByte (4 * i + 1) (w.extractLsb' 8 8)).writeByte
    (4 * i + 2) (w.extractLsb' 16 8)).writeByte (4 * i + 3) (w.extractLsb' 24 8)

/-! ### Voices (R30) -/

/-- Voice `v`. -/
def State.voice (s : State) (v : Fin Config.nv) : Voice := s.voices[v.val]

/-- The state with voice `v` replaced; no other voice is touched (R30). -/
def State.setVoice (s : State) (v : Fin Config.nv) (c : Voice) : State :=
  { s with voices := s.voices.set v.val c }

/-- The voice indices in ascending order, the order of R142 and R144. -/
def voiceIndices : List (Fin Config.nv) := List.finRange Config.nv

/-! ### The answer of a command (R9, R85) -/

/-- `respond(err, r)`. -/
def State.respond (s : State) (err : Bool) (r : Word) : State := { s with resp := some ⟨err, r⟩ }

/-- The end of a legal command: `respond(0, r)`, and the free values of the next command are new. -/
def State.finish (s : State) (r : Word) : State := { s.respond false r with serial := s.serial + 1 }

/-- A REAL as the response of the command with this serial number shows it: its bit pattern, or some
NaN pattern for a NaN (R19). -/
def shownReal (serial : Nat) (x : Word) : Word := if isNaN x then Config.nanShown serial else x

/-- The end of a command whose result is a REAL. -/
def State.finishReal (s : State) (x : Word) : State := s.finish (shownReal s.serial x)

/-- The refusal of an illegal command: `respond(1, 0x00000000)` and no other change (R81, R162). -/
def State.reject (s : State) : State := s.respond true 0

/-! ### The command port (R23, R75) -/

/-- The packet the host presents next. -/
def State.nextPacket (s : State) : Option Packet := s.cmdIn.head?

/-- The state with the presented packet taken from the port. -/
def State.takePacket (s : State) : State := { s with cmdIn := s.cmdIn.tail }

/-- The host presents one packet before all that it has still to present. -/
def State.presentNext (s : State) (p : Packet) : State := { s with cmdIn := p :: s.cmdIn }

/-! ### The delay line (spec/40_delayline.md) -/

/-- `DL_WP` names a word of the buffer (R35, R65). -/
def Voice.storeOk (c : Voice) : Bool := decide (c.wp.toNat < Config.cap)

/-- The index one past `wp`: `umod(wp + 1, CAP)` (R21, R101). -/
def advance (wp : BitVec Config.idxw) : BitVec Config.idxw :=
  BitVec.ofNat Config.idxw ((wp.toNat + 1) % Config.cap)

/-- The read index `umod(wp + CAP - amt, CAP)` (R21, R102). -/
def readIndex (wp amt : BitVec Config.idxw) : Nat :=
  (wp.toNat + Config.cap - amt.toNat) % Config.cap

/-- `push(v, x)`: write, then advance (R101). -/
def Voice.push (c : Voice) (x : Word) : Voice :=
  { c with buf := c.buf.writeWord c.wp.toNat x, wp := advance c.wp }

/-- The word a pop reads (R102). -/
def Voice.tap (c : Voice) : Word := c.buf.readWord (readIndex c.wp c.amt)

/-- `pop(v)`: the lagged read, cached as `DL_LAST` (R102). -/
def Voice.pop (c : Voice) : Voice × Word := ({ c with last := c.tap }, c.tap)

/-- The clamp of R104 on a rounded quotient; `unspec` is `UNSPEC_AMT`. A quotient of positive REALs is
never negative, so `-INF_INT` has no rule and gets no value of its own. -/
def clampAmount (unspec : BitVec Config.idxw) : RoundedInt → BitVec Config.idxw
  | .none | .negInf => unspec
  | .posInf => BitVec.ofNat Config.idxw (Config.cap - 1)
  | .int z =>
    if (Config.cap : Int) ≤ z then BitVec.ofNat Config.idxw (Config.cap - 1)
    else BitVec.ofNat Config.idxw z.toNat

/-- The lag that DSETF stores for a target `f` at the sample rate `rate` (R104). -/
def tunedAmount (ties : RoundTies) (unspec : BitVec Config.idxw) (f rate : Word) :
    BitVec Config.idxw :=
  if isNaN f || isNaN rate || !fgt rate zero then unspec
  else if fle f zero then BitVec.ofNat Config.idxw (Config.cap - 1)
  else clampAmount unspec (roundInt ties (fdiv rate f))

/-- `setf(v, f, fs)` on the voice: `DL_AMT` and nothing else (R104). -/
def Voice.setf (c : Voice) (unspec : BitVec Config.idxw) (f rate : Word) : Voice :=
  { c with amt := tunedAmount Config.roundTies unspec f rate }

/-! ### The filter (spec/41_filter.md) -/

/-- The comb's `y = b·y_prev + a·x` (R113). -/
def CombFilter.output (f : CombFilter) (x : Word) : Word := fadd (fmul f.b f.y) (fmul f.a x)

/-- `tick(v, x)` on the filter: the new filter and the filtered sample (R113). -/
def Filter.tick (f : Filter) (x : Word) : Filter × Word :=
  match f with
  | .comb g => (.comb { g with y := g.output x }, g.output x)
  | .svf g =>
    let r := svfTick g.co g.st x
    (.svf { g with st := r.1 }, r.2)

/-- The comb's feedback coefficient `b = exp(−2π·c)` (R114), for an exponential `exp`. -/
def combFeedbackWith (exp : Word → Word) (c : Word) : Word := exp (fmul negTwoPi c)

/-- The comb after `set_cutoff(c)`: `b`, and `a = 1 − b`; the history survives (R114). -/
def CombFilter.setCutoffWith (exp : Word → Word) (f : CombFilter) (c : Word) : CombFilter :=
  { f with b := combFeedbackWith exp c, a := fsub one (combFeedbackWith exp c) }

/-- The library's coefficients computed from scratch from the setting, and whether that failed; a
failure keeps the previous ones (R112, R114, R116). -/
def SvfFilter.recompute (f : SvfFilter) : SvfFilter × Bool :=
  match svfCoef f.type f.srate f.cut f.q f.gain with
  | some k => ({ f with co := k }, false)
  | none => (f, true)

/-- `set_cutoff(c)` on the filter: the new filter, and whether a computation failed (R114). -/
def Filter.setCutoff (f : Filter) (c : Word) : Filter × Bool :=
  match f with
  | .comb g => (.comb (g.setCutoffWith realExp c), false)
  | .svf g =>
    let r := { g with cut := c }.recompute
    (.svf r.1, r.2)

/-- `set_q(q)` on the filter: nothing for a comb (R116). -/
def Filter.setQ (f : Filter) (q : Word) : Filter × Bool :=
  match f with
  | .comb g => (.comb g, false)
  | .svf g =>
    let r := { g with q := q }.recompute
    (.svf r.1, r.2)

/-! ### The voice (spec/42_voice.md) -/

/-- `vproc(v, x)` on the voice: pop, tick, add the input, scale by `DECAY`, push; the result is the
popped value (R126). -/
def Voice.process (c : Voice) (x : Word) : Voice × Word :=
  let popped := c.pop
  let ticked := popped.1.filter.tick popped.2
  let feedback := fadd ticked.2 x
  (({ popped.1 with filter := ticked.1 } : Voice).push (fmul Config.decay feedback), popped.2)

/-! ### The same operations on voice `v` of the machine (R125) -/

/-- `push(v, x)`. -/
def State.push (s : State) (v : Fin Config.nv) (x : Word) : State :=
  s.setVoice v ((s.voice v).push x)

/-- `pop(v)`. -/
def State.pop (s : State) (v : Fin Config.nv) : State × Word :=
  let r := (s.voice v).pop
  (s.setVoice v r.1, r.2)

/-- `setf(v, f, fs)`, with the draw of this command for this voice. -/
def State.setf (s : State) (v : Fin Config.nv) (f rate : Word) : State :=
  s.setVoice v ((s.voice v).setf (Config.unspecAmt s.serial v.val) f rate)

/-- `tick(v, x)`. -/
def State.tick (s : State) (v : Fin Config.nv) (x : Word) : State × Word :=
  let r := (s.voice v).filter.tick x
  (s.setVoice v { s.voice v with filter := r.1 }, r.2)

/-- The state after a filter setting of voice `v` has been updated: the filter, and `COEF_ERR[v]` on a
failure (R114, R116). -/
def State.storeSetting (s : State) (v : Fin Config.nv) (r : Filter × Bool) : State :=
  { s.setVoice v { s.voice v with filter := r.1 } with status := recordCoefErr r.2 v s.status }

/-- `setc(v, c)`. -/
def State.setc (s : State) (v : Fin Config.nv) (c : Word) : State :=
  s.storeSetting v ((s.voice v).filter.setCutoff c)

/-- `setq(v, q)`. -/
def State.setq (s : State) (v : Fin Config.nv) (q : Word) : State :=
  s.storeSetting v ((s.voice v).filter.setQ q)

/-- `vproc(v, x)`. -/
def State.vproc (s : State) (v : Fin Config.nv) (x : Word) : State × Word :=
  let r := (s.voice v).process x
  (s.setVoice v r.1, r.2)

/-! ### The LFO (spec/43_lfo.md) -/

/-- The argument of the sine, `(2π × phase) / period_constant` (R131). -/
def lfoArgument (phase : Word) : Word := fdiv (fmul twoPi phase) Config.period

/-- The LFO's value `amount × sin(2π × phase / period_constant)` (R131), for a sine `sin`. -/
def lfoValueWith (sin : Word → Word) (amount phase : Word) : Word :=
  fmul amount (sin (lfoArgument phase))

/-- `lnext()`: the value, then the phase advanced by the rate (R131). -/
def State.lnext (s : State) : State × Word :=
  ({ s with lfoPhase := fadd s.lfoPhase s.lfoRate }, lfoValueWith realSin s.lfoAmt s.lfoPhase)

/-- `lsetf(f)` (R132). -/
def State.lsetf (s : State) (f : Word) : State := { s with lfoRate := f }

/-- `lseta(m)` (R133). -/
def State.lseta (s : State) (m : Word) : State := { s with lfoAmt := m }

/-! ### Commands that write a buffer -/

/-- The outcome of a command whose pushes go to the voices `vs`: `t`, unless a push would go to a
word that does not exist. A command changes no `DL_WP` before its one push on that voice, so the check
may stand at its start (R65, R101). -/
def storing (s : State) (vs : List (Fin Config.nv)) (t : State) :
    Host.Outcome State Fault Refusal :=
  match vs.find? (fun v => !(s.voice v).storeOk) with
  | none => .next t
  | some v => .fault (.noBufferWord v.val (s.voice v).wp.toNat)

end Sys2Proof.Machine
end

