-- ==== Sys2Proof/Machine/DelayLine.lean ====
section
/-!
DEFINITION. The delay-line commands DPUSH, DPOP and DSETF (spec/40_delayline.md).
-/

namespace Sys2Proof.Machine

/-- `DPUSH v, x`: the REAL that the operand stands for is pushed (R101, R19). -/
def execDpush (v : Fin Config.nv) (x : Word) (s : State) : Host.Outcome State Fault Refusal :=
  storing s [v] ((s.push v (real x)).finish 0)

/-- `DPOP v` (R102, R103). -/
def execDpop (v : Fin Config.nv) (s : State) : Host.Outcome State Fault Refusal :=
  let r := s.pop v
  .next (r.1.finishReal r.2)

/-- `DSETF v, f, fs` (R104). -/
def execDsetf (v : Fin Config.nv) (f rate : Word) (s : State) : Host.Outcome State Fault Refusal :=
  .next ((s.setf v f rate).finish 0)

end Sys2Proof.Machine
end

