-- ==== Sys2Proof/Machine/Engine.lean ====
section
/-!
DEFINITION. The engine's functions N2F, F2N and CLIP and its commands EFRAME and ESAMP
(spec/44_engine.md).
-/

namespace Sys2Proof.Machine

/-! ### Pure functions -/

/-- `N2F(s, base)` (R138), for a power function `pow2`. -/
def noteToFreqWith (pow2 : Word → Word) (semi base : Word) : Word :=
  fmul base (pow2 (fdiv semi twelve))

/-- `N2F(s, base)` (R138). -/
def noteToFreq (semi base : Word) : Word := noteToFreqWith realPow2 semi base

/-- `F2N(f, base)` (R139), for a logarithm `log2`. No command calls it: it is the host's way to
`P_BASE`. -/
def freqToNoteWith (log2 : Word → Word) (f base : Word) : Word := fmul twelve (log2 (fdiv f base))

/-- `F2N(f, base)` (R139). -/
def freqToNote (f base : Word) : Word := freqToNoteWith realLog2 f base

/-- `CLIP(x)`, the asymmetric clamp: above 1 gives 1, below -1 gives 0 (R140, conflict C2). -/
def clip (x : Word) : Word := if fgt x one then one else if flt x negOne then zero else x

/-! ### EFRAME (R142) -/

/-- Step 1: the dry latch, then the LFO's amount and rate. A parameter register holds a pattern; what
is read from it is the REAL that the pattern stands for (R19, R50). -/
def State.frameGlobals (s : State) : State :=
  ({ s with eDry := real s.pDry }.lseta (real s.pLdepth)).lsetf (real s.pLrate)

/-- Step 2 for one voice: the gain latch, the cutoff, then the Q. -/
def State.frameVoice (s : State) (v : Fin Config.nv) : State :=
  let c := s.voice v
  ((s.setVoice v { c with eVgain := fmul s.pWet c.pVgain }).setc v (real c.pVcut)).setq v (real c.pVq)

/-- Step 3 for one voice: the note latch; `base_note` is `P_BASE` itself (R48). -/
def State.frameNote (s : State) (v : Fin Config.nv) : State :=
  let c := s.voice v
  s.setVoice v { c with eNote := fadd s.pBase c.pVoff }

/-- Steps 1 to 3, the voices in ascending order. -/
def State.frame (s : State) : State :=
  voiceIndices.foldl State.frameNote (voiceIndices.foldl State.frameVoice s.frameGlobals)

/-- `EFRAME` (R142). -/
def execEframe (s : State) : Host.Outcome State Fault Refusal := .next (s.frame.finish 0)

/-! ### ESAMP (R144) -/

/-- One voice of the loop: retune it to its note plus the LFO value, step it, add its weighted output
to the sum. -/
def sampleVoice (x lv : Word) (acc : State × Word) (v : Fin Config.nv) : State × Word :=
  let s := acc.1
  let semi := fadd (s.voice v).eNote lv
  let freq := noteToFreq semi Config.baseHz
  let r := (s.setf v freq Config.fs).vproc v x
  (r.1, fadd acc.2 (fmul (s.voice v).eVgain r.2))

/-- The body of step 4: the state after it and the sum before the clip. The LFO is advanced once, the
voices are stepped in ascending order, the sum starts from the dry term. -/
def State.sample (s : State) (x : Word) : State × Word :=
  let r := s.lnext
  voiceIndices.foldl (sampleVoice x r.2) (r.1, fmul s.eDry x)

/-- `ESAMP x` (R144). -/
def execEsamp (x : Word) (s : State) : Host.Outcome State Fault Refusal :=
  let r := s.sample x
  storing s voiceIndices (r.1.finishReal (clip r.2))

end Sys2Proof.Machine
end

