-- ==== Sys2Proof/Machine/FilterOps.lean ====
section
/-!
DEFINITION. The filter commands FTICK, FSETC and FSETQ (spec/41_filter.md).
-/

namespace Sys2Proof.Machine

/-- `FTICK v, x` (R113). -/
def execFtick (v : Fin Config.nv) (x : Word) (s : State) : Host.Outcome State Fault Refusal :=
  let r := s.tick v x
  .next (r.1.finishReal r.2)

/-- `FSETC v, c` (R114, R19). -/
def execFsetc (v : Fin Config.nv) (c : Word) (s : State) : Host.Outcome State Fault Refusal :=
  .next ((s.setc v (real c)).finish 0)

/-- `FSETQ v, q` (R116, R19). -/
def execFsetq (v : Fin Config.nv) (q : Word) (s : State) : Host.Outcome State Fault Refusal :=
  .next ((s.setq v (real q)).finish 0)

end Sys2Proof.Machine
end

