-- ==== Sys2Proof/Machine/Lfo.lean ====
section
/-!
DEFINITION. The LFO commands LNEXT, LSETF and LSETA (spec/43_lfo.md).
-/

namespace Sys2Proof.Machine

/-- `LNEXT` (R131). -/
def execLnext (s : State) : Host.Outcome State Fault Refusal :=
  let r := s.lnext
  .next (r.1.finishReal r.2)

/-- `LSETF f` (R132, R19). -/
def execLsetf (f : Word) (s : State) : Host.Outcome State Fault Refusal :=
  .next ((s.lsetf (real f)).finish 0)

/-- `LSETA m` (R133, R19). -/
def execLseta (m : Word) (s : State) : Host.Outcome State Fault Refusal :=
  .next ((s.lseta (real m)).finish 0)

end Sys2Proof.Machine
end

