-- ==== Sys2Proof/Machine/Operands.lean ====
section
/-!
DEFINITION. The register operand of PWR and PRD: what a read of each register shows (R152) and what a
write to it does (R151).
-/

namespace Sys2Proof.Machine

/-- What a register shows: a word taken as it is, or a REAL, which a response shows as R19 says. -/
inductive RegView
  | word (w : Word)
  | real (x : Word)
  deriving DecidableEq, Repr

/-- The view of a comb register: zero on a voice of the other variant (R36, R152). -/
def Filter.combView (f : Filter) (field : CombFilter → Word) : RegView :=
  match f with
  | .comb g => .real (field g)
  | .svf _ => .word 0

/-- The view of an SVF register: zero on a voice of the other variant (R36, R152). -/
def Filter.svfView (f : Filter) (field : SvfFilter → Word) : RegView :=
  match f with
  | .comb _ => .word 0
  | .svf g => .real (field g)

/-- The view of a voice's register (R152): a parameter is the pattern last written, an index is
zero-extended, everything else is a REAL. -/
def Voice.view (c : Voice) : VoiceReg → RegView
  | .pVgain => .word c.pVgain
  | .pVcut => .word c.pVcut
  | .pVq => .word c.pVq
  | .pVoff => .word c.pVoff
  | .dlWp => .word (c.wp.setWidth 32)
  | .dlAmt => .word (c.amt.setWidth 32)
  | .dlLast => .real c.last
  | .eVgain => .real c.eVgain
  | .eNote => .real c.eNote
  | .cfB => c.filter.combView (·.b)
  | .cfA => c.filter.combView (·.a)
  | .cfY => c.filter.combView (·.y)
  | .fsCut => c.filter.svfView (·.cut)
  | .fsQ => c.filter.svfView (·.q)

/-- `view(n)` of R152. -/
def State.view (s : State) : Reg → RegView
  | .pDry => .word s.pDry
  | .pWet => .word s.pWet
  | .pLrate => .word s.pLrate
  | .pLdepth => .word s.pLdepth
  | .pBase => .word s.pBase
  | .status => .word (statusView s.status)
  | .lfoPhase => .real s.lfoPhase
  | .lfoRate => .real s.lfoRate
  | .lfoAmt => .real s.lfoAmt
  | .eDry => .real s.eDry
  | .cfgCap => .word (BitVec.ofNat 32 Config.cap)
  | .cfgNv => .word (BitVec.ofNat 32 Config.nv)
  | .cfgFs => .real Config.fs
  | .cfgBaseHz => .real Config.baseHz
  | .cfgDecay => .real Config.decay
  | .cfgPeriod => .real Config.period
  | .cfgVariant => .word (variantView Config.filterVariant)
  | .cfgSvfType => .word (filterTypeNumber Config.svfType)
  | .cfgSvfGain => .real Config.svfGain
  | .voice v k => (s.voice v).view k

/-- The word that a read of the register answers in state `s` (R152, R19). -/
def State.readReg (s : State) (r : Reg) : Word :=
  match s.view r with
  | .word w => w
  | .real x => shownReal s.serial x

/-- A voice with one of its parameter registers written; `none` for a read-only register (R151). -/
def Voice.writeParam (c : Voice) (k : VoiceReg) (x : Word) : Option Voice :=
  match k with
  | .pVgain => some { c with pVgain := x }
  | .pVcut => some { c with pVcut := x }
  | .pVq => some { c with pVq := x }
  | .pVoff => some { c with pVoff := x }
  | .dlWp | .dlAmt | .dlLast | .eVgain | .eNote | .cfB | .cfA | .cfY | .fsCut | .fsQ => none

/-- The state with a parameter register written, the pattern unchanged; `none` for a read-only
register (R50, R151). -/
def State.writeParam (s : State) (r : Reg) (x : Word) : Option State :=
  match r with
  | .pDry => some { s with pDry := x }
  | .pWet => some { s with pWet := x }
  | .pLrate => some { s with pLrate := x }
  | .pLdepth => some { s with pLdepth := x }
  | .pBase => some { s with pBase := x }
  | .status | .lfoPhase | .lfoRate | .lfoAmt | .eDry => none
  | .cfgCap | .cfgNv | .cfgFs | .cfgBaseHz | .cfgDecay | .cfgPeriod | .cfgVariant | .cfgSvfType
  | .cfgSvfGain => none
  | .voice v k => ((s.voice v).writeParam k x).map (s.setVoice v)

end Sys2Proof.Machine
end

