-- ==== Sys2Proof/Machine/RegAccess.lean ====
section
/-!
DEFINITION. The register commands PWR and PRD (spec/45_regaccess.md).
-/

namespace Sys2Proof.Machine

/-- `PWR reg, x` (R151): a register that is not read-write is refused with `err = 1`. -/
def execPwr (reg : Reg) (x : Word) (s : State) : Host.Outcome State Fault Refusal :=
  .next (match s.writeParam reg x with
    | some t => t.finish 0
    | none => s.reject)

/-- `PRD reg` (R152). -/
def execPrd (reg : Reg) (s : State) : Host.Outcome State Fault Refusal :=
  .next (s.finish (s.readReg reg))

end Sys2Proof.Machine
end

