-- ==== Sys2Proof/Machine/VoiceOps.lean ====
section
/-!
DEFINITION. The voice command VPROC (spec/42_voice.md).
-/

namespace Sys2Proof.Machine

/-- `VPROC v, x` (R126, R127). -/
def execVproc (v : Fin Config.nv) (x : Word) (s : State) : Host.Outcome State Fault Refusal :=
  let r := s.vproc v x
  storing s [v] (r.1.finishReal r.2)

end Sys2Proof.Machine
end

