-- ==== Sys2Proof/Machine/Dispatch.lean ====
section
/-!
DEFINITION. The meaning of every instruction: one arm for each constructor of `Instr`, each one call.
-/

namespace Sys2Proof.Machine

-- The effect of one legal command (R23: a command is atomic).
def exec (i : Instr) (s : State) : Host.Outcome State Fault Refusal :=
  match i with
  | .dpush v x => Sys2Proof.Machine.execDpush v x s
  | .dpop v => Sys2Proof.Machine.execDpop v s
  | .dsetf v f rate => Sys2Proof.Machine.execDsetf v f rate s
  | .ftick v x => Sys2Proof.Machine.execFtick v x s
  | .fsetc v c => Sys2Proof.Machine.execFsetc v c s
  | .fsetq v q => Sys2Proof.Machine.execFsetq v q s
  | .vproc v x => Sys2Proof.Machine.execVproc v x s
  | .lnext => Sys2Proof.Machine.execLnext s
  | .lsetf f => Sys2Proof.Machine.execLsetf f s
  | .lseta m => Sys2Proof.Machine.execLseta m s
  | .eframe => Sys2Proof.Machine.execEframe s
  | .esamp x => Sys2Proof.Machine.execEsamp x s
  | .pwr reg x => Sys2Proof.Machine.execPwr reg x s
  | .prd reg => Sys2Proof.Machine.execPrd reg s

end Sys2Proof.Machine
end

