-- ==== Sys2Proof/Machine/Step.lean ====
section
/-!
DEFINITION. One step of the machine: the command the host presents next runs to completion (R23, R75,
R80, R81). There is no program counter and no stored program (R46).
-/

namespace Sys2Proof.Machine

/-- One step. With no command presented the SRC is idle and holds its state (R175). An illegal packet is
answered `err = 1` and changes nothing else; it is no trap and no stop (R81). A legal one runs. -/
def step (s : State) : Host.Outcome State Fault Refusal :=
  match s.nextPacket with
  | none => .next s
  | some p =>
    match decode p with
    | .error _ => .next s.takePacket.reject
    | .ok i => exec i s.takePacket

/-- The state in which the host presents next the packet whose bits are `w` (numbered as
spec/opcode_table.json numbers them), before whatever it was to present. -/
def State.withFetchWord (s : State) (nbits w : Nat) : State := s.presentNext (packetOfNat nbits w)

end Sys2Proof.Machine
end

