-- ==== Sys2Proof/Machine/Assembly.lean ====
section
/-!
DEFINITION. The textual form of commands: the assembler syntax of R87 and the pseudo-instructions and
directives of R88. A name is one the spec uses, a line is a list of characters, and a line that does not
follow the syntax is `none`.
-/

namespace Sys2Proof.Machine

/-! ### Names (R52, R79) -/

/-- The mnemonic of an opcode (R79). -/
def mnemonic : Opcode → String
  | .dpush => "DPUSH"
  | .dpop => "DPOP"
  | .dsetf => "DSETF"
  | .ftick => "FTICK"
  | .fsetc => "FSETC"
  | .fsetq => "FSETQ"
  | .vproc => "VPROC"
  | .lnext => "LNEXT"
  | .lsetf => "LSETF"
  | .lseta => "LSETA"
  | .eframe => "EFRAME"
  | .esamp => "ESAMP"
  | .pwr => "PWR"
  | .prd => "PRD"

/-- The name of a voice's register without its index (R52). -/
def voiceRegName : VoiceReg → String
  | .pVgain => "P_VGAIN"
  | .pVcut => "P_VCUT"
  | .pVq => "P_VQ"
  | .pVoff => "P_VOFF"
  | .dlWp => "DL_WP"
  | .dlAmt => "DL_AMT"
  | .dlLast => "DL_LAST"
  | .eVgain => "E_VGAIN"
  | .eNote => "E_NOTE"
  | .cfB => "CF_B"
  | .cfA => "CF_A"
  | .cfY => "CF_Y"
  | .fsCut => "FS_CUT"
  | .fsQ => "FS_Q"

/-- The name of a register (R52, R87): a voice's register carries its index in brackets. -/
def regName : Reg → String
  | .pDry => "P_DRY"
  | .pWet => "P_WET"
  | .pLrate => "P_LRATE"
  | .pLdepth => "P_LDEPTH"
  | .pBase => "P_BASE"
  | .status => "STATUS"
  | .lfoPhase => "LFO_PHASE"
  | .lfoRate => "LFO_RATE"
  | .lfoAmt => "LFO_AMT"
  | .eDry => "E_DRY"
  | .cfgCap => "CFG_CAP"
  | .cfgNv => "CFG_NV"
  | .cfgFs => "CFG_FS"
  | .cfgBaseHz => "CFG_BASE_HZ"
  | .cfgDecay => "CFG_DECAY"
  | .cfgPeriod => "CFG_PERIOD"
  | .cfgVariant => "CFG_VARIANT"
  | .cfgSvfType => "CFG_SVF_TYPE"
  | .cfgSvfGain => "CFG_SVF_GAIN"
  | .voice v k => voiceRegName k ++ "[" ++ String.singleton (Nat.digitChar v.val) ++ "]"

/-- All registers. -/
def allRegs : List Reg :=
  globalRegs.map Prod.snd ++
    (List.finRange Config.nv).flatMap fun v => voiceRegs.map fun r => .voice v r.2

/-! ### Pseudo-instructions (R88) -/

/-- `DSETN v, k`: sets the lag to `k` exactly, by `DSETF v, 1.0, float(k)`, or `DSETF v, +inf, 1.0`
for `k = 0`. -/
def dsetn (v : Fin Config.nv) (k : Nat) : Instr :=
  if k = 0 then .dsetf v 0x7F800000 one else .dsetf v one (realOfNat k)

/-- `PSET reg, x` is `PWR reg, x`. -/
def pset (reg : Reg) (x : Word) : Instr := .pwr reg x

/-- `FRAME` is `EFRAME`. -/
def frameAlias : Instr := .eframe

/-! ### Tokens (R87) -/

/-- The text of a line before its comment: `;` starts one. -/
def withoutComment (line : List Char) : List Char := line.takeWhile (· != ';')

/-- A text without the blanks at its two ends. -/
def trimmed (cs : List Char) : List Char :=
  ((cs.dropWhile Char.isWhitespace).reverse.dropWhile Char.isWhitespace).reverse

/-- The operands of a line: the texts between commas. -/
def operandTexts (cs : List Char) : List (List Char) :=
  if trimmed cs = [] then [] else (cs.splitOn ',').map trimmed

/-- The digits of a text as a number to a base of at most sixteen. -/
def digitsValue (base : Nat) (cs : List Char) : Option Nat :=
  cs.foldl (fun acc c => acc.bind fun n =>
      let d :=
        if '0' ≤ c ∧ c ≤ '9' then c.toNat - '0'.toNat
        else if 'a' ≤ c ∧ c ≤ 'f' then c.toNat - 'a'.toNat + 10
        else if 'A' ≤ c ∧ c ≤ 'F' then c.toNat - 'A'.toNat + 10
        else base
      if d < base then some (n * base + d) else none) (some 0)

/-- A decimal integer without a sign. -/
def parseNat (cs : List Char) : Option Nat := if cs = [] then none else digitsValue 10 cs

/-- The power of ten at the end of a decimal literal, as the factors of numerator and denominator. -/
def parseExponent : List Char → Option (Nat × Nat)
  | [] => some (1, 1)
  | '-' :: cs => (parseNat cs).map fun e => (1, 10 ^ e)
  | '+' :: cs => (parseNat cs).map fun e => (10 ^ e, 1)
  | cs => (parseNat cs).map fun e => (10 ^ e, 1)

/-- A decimal literal without a sign as a ratio. -/
def parseDecimal (cs : List Char) : Option (Nat × Nat) :=
  let mantissa := cs.takeWhile (· != 'e')
  let whole := mantissa.takeWhile (· != '.')
  let fraction := (mantissa.dropWhile (· != '.')).drop 1
  match parseNat whole, digitsValue 10 fraction, parseExponent ((cs.dropWhile (· != 'e')).drop 1) with
  | some n, some f, some (up, down) =>
    some ((n * 10 ^ fraction.length + f) * up, 10 ^ fraction.length * down)
  | _, _, _ => none

/-- A REAL operand: a bit pattern of eight hexadecimal digits, an infinity, or a decimal literal taken
as the nearest REAL, ties to even (R87). -/
def parseReal : List Char → Option Word
  | ['+', 'i', 'n', 'f'] => some 0x7F800000
  | ['-', 'i', 'n', 'f'] => some 0xFF800000
  | '0' :: 'x' :: cs =>
    if cs.length = 8 then (digitsValue 16 cs).map (BitVec.ofNat 32) else none
  | '-' :: cs => (parseDecimal cs).map fun r => realOfRatio true r.1 r.2
  | '+' :: cs => (parseDecimal cs).map fun r => realOfRatio false r.1 r.2
  | cs => (parseDecimal cs).map fun r => realOfRatio false r.1 r.2

/-- A voice operand: a decimal index below `NV` (R87). -/
def parseVoice (cs : List Char) : Option (Fin Config.nv) :=
  (parseNat cs).bind fun n => if h : n < Config.nv then some ⟨n, h⟩ else none

/-- A register operand, by its name (R87). -/
def parseReg (cs : List Char) : Option Reg := allRegs.find? fun r => (regName r).toList == cs

/-! ### Lines (R87, R88) -/

/-- The instruction of an opcode with these operand texts. -/
def assembleOperands : Opcode → List (List Char) → Option Instr
  | .dpush, [v, x] => do return .dpush (← parseVoice v) (← parseReal x)
  | .dpop, [v] => do return .dpop (← parseVoice v)
  | .dsetf, [v, f, rate] => do return .dsetf (← parseVoice v) (← parseReal f) (← parseReal rate)
  | .ftick, [v, x] => do return .ftick (← parseVoice v) (← parseReal x)
  | .fsetc, [v, c] => do return .fsetc (← parseVoice v) (← parseReal c)
  | .fsetq, [v, q] => do return .fsetq (← parseVoice v) (← parseReal q)
  | .vproc, [v, x] => do return .vproc (← parseVoice v) (← parseReal x)
  | .lnext, [] => some .lnext
  | .lsetf, [f] => do return .lsetf (← parseReal f)
  | .lseta, [m] => do return .lseta (← parseReal m)
  | .eframe, [] => some .eframe
  | .esamp, [x] => do return .esamp (← parseReal x)
  | .pwr, [r, x] => do return .pwr (← parseReg r) (← parseReal x)
  | .prd, [r] => do return .prd (← parseReg r)
  | _, _ => none

/-- The instruction of a pseudo-instruction with these operand texts (R88). -/
def assemblePseudo (name : List Char) (operands : List (List Char)) : Option Instr :=
  if name = "DSETN".toList then
    match operands with
    | [v, k] => do
      let u ← parseVoice v
      let n ← parseNat k
      if n < Config.cap then return dsetn u n else none
    | _ => none
  else if name = "PSET".toList then
    match operands with
    | [r, x] => do return pset (← parseReg r) (← parseReal x)
    | _ => none
  else if name = "FRAME".toList then (if operands = [] then some frameAlias else none)
  else none

/-- What one line of a program says. -/
inductive AsmLine
  /-- nothing but blanks and a comment -/
  | empty
  | instr (i : Instr)
  /-- `.rept k` -/
  | rept (k : Nat)
  /-- `.endr` -/
  | endr
  deriving DecidableEq, Repr

/-- One line: a mnemonic, then comma-separated operands. -/
def assembleLine (line : List Char) : Option AsmLine :=
  let text := trimmed (withoutComment line)
  let name := text.takeWhile (fun c => !c.isWhitespace)
  let rest := text.dropWhile (fun c => !c.isWhitespace)
  if text = [] then some .empty
  else if name = ".rept".toList then (parseNat (trimmed rest)).map .rept
  else if name = ".endr".toList then (if trimmed rest = [] then some .endr else none)
  else
    match Opcode.all.find? (fun o => (mnemonic o).toList == name) with
    | some o => (assembleOperands o (operandTexts rest)).map .instr
    | none => (assemblePseudo name (operandTexts rest)).map .instr

/-- The commands of a program's lines: `acc` holds those so far, `outer` the count and the commands
before each open `.rept`, the innermost first. Repetition is the assembler's; the SRC has no loop
(R88). -/
def assembleLines (outer : List (Nat × List Instr)) (acc : List Instr) :
    List (List Char) → Option (List Instr)
  | [] => if outer.isEmpty then some acc else none
  | line :: lines =>
    match assembleLine line, outer with
    | some .empty, _ => assembleLines outer acc lines
    | some (.instr i), _ => assembleLines outer (acc ++ [i]) lines
    | some (.rept k), _ => assembleLines ((k, acc) :: outer) [] lines
    | some .endr, (k, before) :: outer' =>
      assembleLines outer' (before ++ (List.replicate k acc).flatten) lines
    | some .endr, [] => none
    | none, _ => none

/-- The packets of a program written one command a line. -/
def assemble (lines : List String) : Option (List Packet) :=
  (assembleLines [] [] (lines.map String.toList)).map (List.map encode)

end Sys2Proof.Machine
end

