-- ==== Sys2Proof/Machine/HostMoves.lean ====
section
/-!
DEFINITION. What the host does to the machine from outside (R23, R177): it queues packets and asserts
reset, between commands or during one.
-/

namespace Sys2Proof.Machine

/-- The host queues a further packet (R177). -/
def State.enqueue (s : State) (p : Packet) : State := { s with cmdIn := s.cmdIn ++ [p] }

/-- The host asserts reset between commands (R177, R180): every piece of the SRC's state has its reset
value, the parameter registers the words `g` and `w` drawn for this reset (U4). What the host has still
to present is the host's, and the counter of the free values goes on. -/
def State.assertReset (g : GlobalParam → Word) (w : Fin Config.nv → VoiceParam → Word) (s : State) :
    State := { State.resetWith g w with cmdIn := s.cmdIn, serial := s.serial }

/-- The host asserts reset during the command it presents (R185): the state is that of reset whatever
part of the command was done, the command is gone, and its response is `r`, any answer or none at all
(U12). -/
def State.resetDuring (g : GlobalParam → Word) (w : Fin Config.nv → VoiceParam → Word)
    (r : Option Response) (s : State) : State :=
  { s.takePacket.assertReset g w with resp := r }

end Sys2Proof.Machine
end

