-- ==== Sys2Proof/Safety.lean ====
section
/-!
DEFINITION. The terms in which claims about the machine are made: the states that the machine and its host
reach (R23, R177), the invariant of reachable states (R35, R36, R47), what a run of commands is, what a
command leaves unchanged, and the illegal command words as R81 lists them.
-/

namespace Sys2Proof.Machine

/-! ### The states reached -/

/-- The states that the machine and the host reach: from reset, by steps and by the host's moves. A
reset may come from any state, as the first one after power-up does (R185). -/
inductive Reachable : State → Prop
  | reset : Reachable State.reset
  | step {s t : State} (h : Reachable s) (e : step s = .next t) : Reachable t
  | enqueue {s : State} (h : Reachable s) (p : Packet) : Reachable (s.enqueue p)
  | assertReset (s : State) (g : GlobalParam → Word) (w : Fin Config.nv → VoiceParam → Word) :
      Reachable (s.assertReset g w)
  | resetDuring (s : State) (g : GlobalParam → Word) (w : Fin Config.nv → VoiceParam → Word)
      (r : Option Response) (busy : s.cmdIn ≠ []) : Reachable (s.resetDuring g w r)

/-! ### The invariant -/

/-- A filter is of the variant its voice is configured with, and the setting of an SVF that no command
changes is the configuration's (R36, R38). -/
def Filter.Fits (v : Fin Config.nv) : Filter → Prop
  | .comb _ => Config.filterVariant v = .comb
  | .svf f => Config.filterVariant v = .svf ∧ f.type = Config.svfType ∧ f.srate = Config.fs ∧
      f.gain = Config.svfGain

/-- What every reachable state has of voice `v`. -/
structure Voice.Inv (v : Fin Config.nv) (c : Voice) : Prop where
  /-- `0 <= DL_WP[v] < CAP` (R35) -/
  wp_lt : c.wp.toNat < Config.cap
  /-- `0 <= DL_AMT[v] <= CAP - 1` (R35) -/
  amt_lt : c.amt.toNat < Config.cap
  /-- the buffer is in canonical form -/
  buf_wf : c.buf.wf = true
  /-- the filter is the configured one (R36) -/
  fits : c.filter.Fits v

/-- What every reachable state has: every voice its invariant, and a set bit of `STATUS` is the
`COEF_ERR` of an SVF voice (R47, R119). -/
structure State.Inv (s : State) : Prop where
  voice : ∀ v, (s.voice v).Inv v
  status : ∀ i : Nat, s.status.getLsbD i = true →
    ∃ v : Fin Config.nv, v.val = i ∧ Config.filterVariant v = .svf

/-- The buffers and write pointers of all voices are in range and canonical: what the reading back of
a pushed word needs. -/
def State.BuffersOk (s : State) : Prop :=
  ∀ v, (s.voice v).wp.toNat < Config.cap ∧ (s.voice v).buf.wf = true

/-! ### One NaN value (R19) -/

/-- The word is the REAL that it stands for: if it is a NaN pattern, it is that of the one NaN value. -/
def HasOneNaN (x : Word) : Prop := real x = x

/-- Every REAL that a filter's registers hold is a value: no NaN pattern but the one. -/
def Filter.OneNaN : Filter → Prop
  | .comb f => HasOneNaN f.b ∧ HasOneNaN f.a ∧ HasOneNaN f.y
  | .svf f => HasOneNaN f.srate ∧ HasOneNaN f.cut ∧ HasOneNaN f.q ∧ HasOneNaN f.gain

/-- Every REAL of a voice's datapath is a value: its buffer words, its last output, its filter and its
latches. The parameter registers are outside: they keep the pattern written (R50). -/
def Voice.OneNaN (c : Voice) : Prop :=
  (∀ i, HasOneNaN (c.buf.readWord i)) ∧ HasOneNaN c.last ∧ c.filter.OneNaN ∧ HasOneNaN c.eVgain ∧
    HasOneNaN c.eNote

/-- Every REAL of the machine's datapath is a value. -/
def State.OneNaN (s : State) : Prop :=
  HasOneNaN s.lfoPhase ∧ HasOneNaN s.lfoRate ∧ HasOneNaN s.lfoAmt ∧ HasOneNaN s.eDry ∧
    ∀ v, (s.voice v).OneNaN

/-! ### Runs of commands -/

/-- The commands of a list executed one after another, the first stop ending it (R70). -/
def execAll : List Instr → State → Host.Outcome State Fault Refusal
  | [], s => .next s
  | i :: rest, s =>
    match exec i s with
    | .next t => execAll rest t
    | .fault f => .fault f
    | .refused r => .refused r

/-- The samples that a list of commands pushes on voice `v` with DPUSH, the first first (R107). -/
def pushedOn (v : Fin Config.nv) : List Instr → List Word
  | [] => []
  | .dpush u x :: rest => if u = v then x :: pushedOn v rest else pushedOn v rest
  | _ :: rest => pushedOn v rest

/-- A delay-line command (R100). -/
def isDelayLine : Instr → Bool
  | .dpush _ _ | .dpop _ | .dsetf _ _ _ => true
  | _ => false

/-- The voice that a V-format command names (R77). -/
def voiceOf : Instr → Option (Fin Config.nv)
  | .dpush v _ | .dpop v | .dsetf v _ _ | .ftick v _ | .fsetc v _ | .fsetq v _ | .vproc v _ => some v
  | .lnext | .lsetf _ | .lseta _ | .eframe | .esamp _ | .pwr _ _ | .prd _ => none

/-! ### What a command leaves unchanged -/

/-- The parameter registers of the machine are the same (R48, R49). -/
def SameParams (s t : State) : Prop :=
  t.pDry = s.pDry ∧ t.pWet = s.pWet ∧ t.pLrate = s.pLrate ∧ t.pLdepth = s.pLdepth ∧
    t.pBase = s.pBase ∧ ∀ v, (t.voice v).pVgain = (s.voice v).pVgain ∧
      (t.voice v).pVcut = (s.voice v).pVcut ∧ (t.voice v).pVq = (s.voice v).pVq ∧
      (t.voice v).pVoff = (s.voice v).pVoff

/-- The engine's latches are the same (R44). -/
def SameLatches (s t : State) : Prop :=
  t.eDry = s.eDry ∧ ∀ v, (t.voice v).eVgain = (s.voice v).eVgain ∧
    (t.voice v).eNote = (s.voice v).eNote

/-- The LFO's three registers are the same (R43). -/
def SameLfo (s t : State) : Prop :=
  t.lfoPhase = s.lfoPhase ∧ t.lfoRate = s.lfoRate ∧ t.lfoAmt = s.lfoAmt

/-- Voice `v`'s delay line is the same: every byte of its buffer, and its three registers
(R31 to R34). -/
def SameDelayLine (v : Fin Config.nv) (s t : State) : Prop :=
  (∀ a, (t.voice v).buf.readByte a = (s.voice v).buf.readByte a) ∧ (t.voice v).wp = (s.voice v).wp ∧
    (t.voice v).amt = (s.voice v).amt ∧ (t.voice v).last = (s.voice v).last

/-- The command ends with `respond(0, r)` and leaves the command port alone. -/
def Answers (s t : State) (r : Word) : Prop := t.resp = some ⟨false, r⟩ ∧ t.cmdIn = s.cmdIn

/-- `r` is a result that shows the REAL `x`: its pattern, or some NaN pattern for a NaN (R19). -/
def ShowsReal (r x : Word) : Prop := if isNaN x then isNaN r = true else r = x

/-- Everything but the delay lines and filters is the same. -/
def SameOutsideVoices (s t : State) : Prop :=
  SameParams s t ∧ SameLatches s t ∧ SameLfo s t ∧ t.status = s.status

/-! ### Serialised forms (R64, R86) -/

/-- The number that bytes stand for, the least significant first (R64). -/
def littleEndian : List Byte → Nat
  | [] => 0
  | b :: rest => b.toNat + 2 ^ 8 * littleEndian rest

/-! ### The nearest REAL (R11) -/

/-- The REAL `r` is `n / d` units of `2^-149`, rounded once with roundTiesToEven (R11): the nearest
finite REAL, the one with an even significand when two are nearest, or the infinity of the sign of `n`
from half a unit past the largest finite REAL on. -/
def RoundsTo (r : Word) (n : Int) (d : Nat) : Prop :=
  (isFinite r = true ∧ n.natAbs < (2 ^ 25 - 1) * 2 ^ 252 * d ∧
    ∀ x, isFinite x = true → |value r * d - n| ≤ |value x * d - n| ∧
      (|value r * d - n| = |value x * d - n| → value x ≠ value r → magBits r % 2 = 0)) ∨
  (isInf r = true ∧ (signBit r = true ↔ n < 0) ∧ (2 ^ 25 - 1) * 2 ^ 252 * d ≤ n.natAbs)

/-! ### Illegal command words -/

/-- The `op` values of the V format (R79). -/
def voiceOps : List Nat := [0x10, 0x11, 0x12, 0x20, 0x21, 0x22, 0x30]

/-- The `op` values of the G format (R79). -/
def globalOps : List Nat := [0x40, 0x41, 0x42, 0x50, 0x51]

/-- The number is that of a read-write register (R52, R151). -/
def isWritableNumber (n : Nat) : Prop :=
  n ≤ 0x0004 ∨ ∃ v k, v < Config.nv ∧ k ≤ 3 ∧ n = 0x0100 + 0x10 * v + k

/-- The number is that of a register (R52). -/
def isRegisterNumber (n : Nat) : Prop :=
  n ≤ 0x0004 ∨ (0x0010 ≤ n ∧ n ≤ 0x0014) ∨ (0x0020 ≤ n ∧ n ≤ 0x0028) ∨
    ∃ v k, v < Config.nv ∧ k ≤ 13 ∧ n = 0x0100 + 0x10 * v + k

/-- The `op` values that R81 (a) lists as illegal. -/
def isUnassignedOp (op : Nat) : Prop :=
  op ≤ 0x0F ∨ (0x13 ≤ op ∧ op ≤ 0x1F) ∨ (0x23 ≤ op ∧ op ≤ 0x2F) ∨ (0x31 ≤ op ∧ op ≤ 0x3F) ∨
    (0x43 ≤ op ∧ op ≤ 0x4F) ∨ (0x52 ≤ op ∧ op ≤ 0x5F) ∨ 0x62 ≤ op

/-- The command word is illegal, cases (a) to (f) of R81 in its own words. -/
def IllegalWord (w : Word) : Prop :=
  let op := w.toNat / 2 ^ 24
  let v := w.toNat / 2 ^ 16 % 2 ^ 8
  let n := w.toNat % 2 ^ 16
  isUnassignedOp op ∨
    (op ∈ voiceOps ∧ (n ≠ 0 ∨ Config.nv ≤ v)) ∨
    (op ∈ globalOps ∧ (v ≠ 0 ∨ n ≠ 0)) ∨
    ((op = 0x60 ∨ op = 0x61) ∧ v ≠ 0) ∨
    (op = 0x60 ∧ ¬isWritableNumber n) ∨
    (op = 0x61 ∧ ¬isRegisterNumber n)

/-! ### The named properties of the transcendental functions (R14 to R16), of any function -/

/-- `P_EXP_ZERO`. -/
def ExpZero (exp : Word → Word) : Prop := exp zero = one ∧ exp (fneg zero) = one

/-- `P_EXP_NEGINF`. -/
def ExpNegInf (exp : Word → Word) : Prop := exp 0xFF800000 = zero

/-- `P_EXP_POSINF`. -/
def ExpPosInf (exp : Word → Word) : Prop := exp 0x7F800000 = 0x7F800000

/-- `P_EXP_NAN`. -/
def ExpNaN (exp : Word → Word) : Prop := ∀ p, isNaN p = true → isNaN (exp p) = true

/-- `P_EXP_RANGE`. -/
def ExpRange (exp : Word → Word) : Prop := ∀ p, isNaN p = false → fge (exp p) zero = true

/-- `P_EXP_UNIT`. -/
def ExpUnit (exp : Word → Word) : Prop := ∀ p, fle p zero = true → fle (exp p) one = true

/-- `P_SIN_ZERO`. -/
def SinZero (sin : Word → Word) : Prop := sin zero = zero ∧ sin (fneg zero) = fneg zero

/-- `P_SIN_BOUND`. -/
def SinBound (sin : Word → Word) : Prop :=
  ∀ p, isFinite p = true → fle negOne (sin p) = true ∧ fle (sin p) one = true

/-- `P_SIN_NONFINITE`. -/
def SinNonFinite (sin : Word → Word) : Prop := ∀ p, isFinite p = false → isNaN (sin p) = true

/-- `P_POW2_ZERO`. -/
def PowTwoZero (pow2 : Word → Word) : Prop := pow2 zero = one ∧ pow2 (fneg zero) = one

/-- The REAL `k`, an integer with `-126 <= k <= 127`. -/
def realOfInt (k : Int) : Word := realOfRatio (decide (k < 0)) k.natAbs 1

/-- The REAL `2^k` with `-126 <= k <= 127`: exponent field `k + 127`, fraction zero (R10). -/
def realPowTwo (k : Int) : Word := BitVec.ofNat 32 ((k + 127).toNat * 2 ^ 23)

/-- `P_POW2_INT`. -/
def PowTwoInt (pow2 : Word → Word) : Prop :=
  ∀ k : Int, -126 ≤ k → k ≤ 127 → pow2 (realOfInt k) = realPowTwo k

/-- `P_POW2_NEGINF`. -/
def PowTwoNegInf (pow2 : Word → Word) : Prop := pow2 0xFF800000 = zero

/-- `P_POW2_POSINF`. -/
def PowTwoPosInf (pow2 : Word → Word) : Prop := pow2 0x7F800000 = 0x7F800000

/-- `P_POW2_NAN`. -/
def PowTwoNaN (pow2 : Word → Word) : Prop := ∀ p, isNaN p = true → isNaN (pow2 p) = true

/-- `P_POW2_POS`. -/
def PowTwoPos (pow2 : Word → Word) : Prop := ∀ p, isFinite p = true → fge (pow2 p) zero = true

/-- `P_LOG2_POW`. -/
def LogTwoPow (log2 : Word → Word) : Prop :=
  ∀ k : Int, -126 ≤ k → k ≤ 127 → log2 (realPowTwo k) = realOfInt k

end Sys2Proof.Machine
end

