-- ==== Sys2Proof/Certificates/Slice0/Obligations.lean ====
section
/-!
DEFINITION. The statements for the provers, from the numbered rules of the spec. A statement that rests on
a choice of the model names the log entry.
-/

open Sys2Proof Sys2Proof.Machine

/-! ### Encoding -/

/-- R79, R80, R86, R87: decoding the encoding of a well-formed instruction gives it back, as a packet
and as the twelve bytes of its serialised form. -/
def Obligations.DecodeOfEncodeIsTheInstruction : Prop :=
  ∀ i : Instr, i.wf = true →
    decode (encode i) = .ok i ∧ decodeBytes (encode i).toBytes = .ok i

/-- R77, R81: whatever the decoder accepts is well formed, and its command word has no bit that the
instruction does not account for. -/
def Obligations.DecodedWordIsTheEncodersWord : Prop :=
  ∀ (p : Packet) (i : Instr), decode p = .ok i → i.wf = true ∧ (encode i).cmd = p.cmd

/-- R80: every command word is exactly one row of the opcode map, whose extra condition holds, or
illegal. -/
def Obligations.EveryWordIsOneRowOrIllegal : Prop :=
  ∀ p : Packet,
    (∃ row ∈ opcodeRows, row.selects p.cmd = true ∧ row.op.condition p.cmd = true ∧
      (∀ row' ∈ opcodeRows, row'.selects p.cmd = true → row' = row) ∧
      ∃ i, decode p = .ok i ∧ i.opcode = row.op) ∨
    ((∀ row ∈ opcodeRows, ¬(row.selects p.cmd = true ∧ row.op.condition p.cmd = true)) ∧
      ∃ e, decode p = .error e)

/-- R81, R162: a command word of the cases (a) to (f), and no other, is illegal; the answer to it is
`respond(1, 0x00000000)` and nothing else changes. -/
def Obligations.IllegalCommandChangesNothing : Prop :=
  (∀ p : Packet, IllegalWord p.cmd ↔ ∃ e, decode p = .error e) ∧
  ∀ (s : State) (p : Packet) (rest : List Packet), s.cmdIn = p :: rest → IllegalWord p.cmd →
    step s = .next { s with cmdIn := rest, resp := some ⟨true, 0x00000000⟩ }

/-- R79, R86: words written out from the encoding tables decode to the instructions they stand for. A
sanity statement. -/
def Obligations.WrittenWordsDecode : Prop :=
  decodeBytes [0x00, 0x00, 0x02, 0x12, 0x00, 0x00, 0xDC, 0x43, 0x00, 0x44, 0x2C, 0x47] =
      .ok (.dsetf 2 0x43DC0000 0x472C4400) ∧
    decode ⟨0x60000121, 0x3F800000, 0⟩ = .ok (.pwr (.voice 2 .pVcut) 0x3F800000) ∧
    decode ⟨0x61000020, 0, 0⟩ = .ok (.prd .cfgCap) ∧
    decode ⟨0x51000000, 0xBF800000, 0⟩ = .ok (.esamp 0xBF800000) ∧
    decode ⟨0x22010000, 0x3F34FDF4, 0⟩ = .ok (.fsetq 1 0x3F34FDF4)

/-- R9, R87: the command word of every opcode, for every voice and register, decodes to that operation
with its operands, whatever stands in the operands that it does not use. -/
def Obligations.CommandWordsOfTheTable : Prop :=
  ∀ (v : Fin Config.nv) (reg : Reg) (a b : Word),
    decode ⟨0x10000000#32 + BitVec.ofNat 32 v.val <<< 16, a, b⟩ = .ok (.dpush v a) ∧
    decode ⟨0x11000000#32 + BitVec.ofNat 32 v.val <<< 16, a, b⟩ = .ok (.dpop v) ∧
    decode ⟨0x12000000#32 + BitVec.ofNat 32 v.val <<< 16, a, b⟩ = .ok (.dsetf v a b) ∧
    decode ⟨0x20000000#32 + BitVec.ofNat 32 v.val <<< 16, a, b⟩ = .ok (.ftick v a) ∧
    decode ⟨0x21000000#32 + BitVec.ofNat 32 v.val <<< 16, a, b⟩ = .ok (.fsetc v a) ∧
    decode ⟨0x22000000#32 + BitVec.ofNat 32 v.val <<< 16, a, b⟩ = .ok (.fsetq v a) ∧
    decode ⟨0x30000000#32 + BitVec.ofNat 32 v.val <<< 16, a, b⟩ = .ok (.vproc v a) ∧
    decode ⟨0x40000000, a, b⟩ = .ok .lnext ∧ decode ⟨0x41000000, a, b⟩ = .ok (.lsetf a) ∧
    decode ⟨0x42000000, a, b⟩ = .ok (.lseta a) ∧ decode ⟨0x50000000, a, b⟩ = .ok .eframe ∧
    decode ⟨0x51000000, a, b⟩ = .ok (.esamp a) ∧
    (reg.writable = true → decode ⟨0x60000000#32 + reg.number.setWidth 32, a, b⟩ = .ok (.pwr reg a)) ∧
    decode ⟨0x61000000#32 + reg.number.setWidth 32, a, b⟩ = .ok (.prd reg)

/-- R64, R86: a packet is twelve bytes, `cmd` then `a` then `b`, each word least significant byte first,
and those bytes stand for that packet; a response is five bytes, a first one of which bit 0 is `err` and
the others are zero, then `r` least significant byte first. -/
def Obligations.PacketBytesRoundTrip : Prop :=
  (∀ p : Packet, p.toBytes.length = 12 ∧ packetOfBytes p.toBytes = some p ∧
    littleEndian p.toBytes = p.cmd.toNat + 2 ^ 32 * p.a.toNat + 2 ^ 64 * p.b.toNat) ∧
  ∀ r : Response, ∃ b rest, r.toBytes = b :: rest ∧ rest.length = 4 ∧
    (∀ i, b.getLsbD i = (r.err && decide (i = 0))) ∧ littleEndian rest = r.r.toNat

/-! ### One step -/

/-- R23, R75, R80: when the presented packet decodes to an instruction, a step takes the packet from
the port and is `exec` of that instruction. -/
def Obligations.StepRunsTheDecodedInstruction : Prop :=
  ∀ (s : State) (p : Packet) (rest : List Packet) (i : Instr), s.cmdIn = p :: rest →
    decode p = .ok i → step s = exec i { s with cmdIn := rest }

/-- R175: with no command presented the SRC holds all its state. That an idle SRC takes a step, and that
the last response stays in `resp` over it, is the model's choice (log entry 2). -/
def Obligations.IdleHoldsAllState : Prop := ∀ s : State, s.cmdIn = [] → step s = .next s

/-! ### The delay line -/

/-- R101: DPUSH writes the sample (`real x`, the REAL that the operand's pattern stands for, R19) at
`DL_WP` and then advances `DL_WP` modulo `CAP`; every byte outside the four of that word, and every
register but `DL_WP`, is unchanged. -/
def Obligations.DpushWritesThenAdvances : Prop :=
  ∀ (s : State) (v : Fin Config.nv) (x : Word), (s.voice v).wp.toNat < Config.cap →
    (s.voice v).buf.wf = true → ∃ t, exec (.dpush v x) s = .next t ∧
      (t.voice v).buf.readWord (s.voice v).wp.toNat = real x ∧
      (t.voice v).wp.toNat = ((s.voice v).wp.toNat + 1) % Config.cap ∧
      (∀ a, (a < 4 * (s.voice v).wp.toNat ∨ 4 * (s.voice v).wp.toNat + 4 ≤ a) →
        (t.voice v).buf.readByte a = (s.voice v).buf.readByte a) ∧
      (t.voice v).amt = (s.voice v).amt ∧ (t.voice v).last = (s.voice v).last ∧
      (t.voice v).filter = (s.voice v).filter ∧ (∀ u, u ≠ v → t.voice u = s.voice u) ∧
      SameOutsideVoices s t ∧ Answers s t 0x00000000

/-- R102: DPOP answers the word at `umod(DL_WP + CAP - DL_AMT, CAP)`, caches it in `DL_LAST`, and
changes nothing else. -/
def Obligations.DpopAnswersTheLaggedWord : Prop :=
  ∀ (s : State) (v : Fin Config.nv), ∃ t r, exec (.dpop v) s = .next t ∧ Answers s t r ∧
    ShowsReal r ((s.voice v).buf.readWord
      (((s.voice v).wp.toNat + Config.cap - (s.voice v).amt.toNat) % Config.cap)) ∧
    (t.voice v).last = (s.voice v).buf.readWord
      (((s.voice v).wp.toNat + Config.cap - (s.voice v).amt.toNat) % Config.cap) ∧
    (∀ u a, (t.voice u).buf.readByte a = (s.voice u).buf.readByte a) ∧
    (t.voice v).wp = (s.voice v).wp ∧ (t.voice v).amt = (s.voice v).amt ∧
    (t.voice v).filter = (s.voice v).filter ∧ (∀ u, u ≠ v → t.voice u = s.voice u) ∧
    SameOutsideVoices s t

/-- R104: the lag that DSETF stores, arm by arm: some index below `CAP` for a NaN operand or a sample
rate that is not positive; `CAP - 1` for a target that is not positive; else the rounded quotient,
clamped to `CAP - 1`, which is never negative. Nothing else changes. -/
def Obligations.DsetfStoresTheClampedQuotient : Prop :=
  ∀ (s : State) (v : Fin Config.nv) (f rate : Word), ∃ t, exec (.dsetf v f rate) s = .next t ∧
    (isNaN f = true ∨ isNaN rate = true ∨ fgt rate zero = false →
      (t.voice v).amt.toNat < Config.cap) ∧
    (isNaN f = false → isNaN rate = false → fgt rate zero = true → fle f zero = true →
      (t.voice v).amt.toNat = Config.cap - 1) ∧
    (isNaN f = false → isNaN rate = false → fgt rate zero = true → fle f zero = false →
      match roundInt Config.roundTies (fdiv rate f) with
      | .none => (t.voice v).amt.toNat < Config.cap
      | .posInf => (t.voice v).amt.toNat = Config.cap - 1
      | .negInf => False
      | .int z => 0 ≤ z ∧ ((t.voice v).amt.toNat : Int) = min z (Config.cap - 1)) ∧
    (∀ u a, (t.voice u).buf.readByte a = (s.voice u).buf.readByte a) ∧
    (t.voice v).wp = (s.voice v).wp ∧ (t.voice v).last = (s.voice v).last ∧
    (t.voice v).filter = (s.voice v).filter ∧ (∀ u, u ≠ v → t.voice u = s.voice u) ∧
    SameOutsideVoices s t ∧ Answers s t 0x00000000

/-- R105: the corner cases of the table, for both tie rules and for any draw. A sanity statement. -/
def Obligations.DsetfCornerCases : Prop :=
  ∀ u : BitVec Config.idxw,
    tunedAmount .even u 0x41000000 0x44490000 = 100 ∧ tunedAmount .away u 0x41000000 0x44490000 = 101 ∧
    tunedAmount .even u 0x41000000 0x444B0000 = 102 ∧ tunedAmount .away u 0x41000000 0x444B0000 = 102 ∧
    tunedAmount .even u 0x47AC4400 0x472C4400 = 0 ∧ tunedAmount .away u 0x47AC4400 0x472C4400 = 1 ∧
    tunedAmount .even u 0x41000000 0x471C3800 = 4999 ∧
    tunedAmount .even u 0x41000000 0x471C3C00 = 4999 ∧
    tunedAmount .even u 0x41000000 0x471C4000 = 4999 ∧
    tunedAmount .even u 0x80000000 0x472C4400 = 4999 ∧
    tunedAmount .even u 0x00000001 0x472C4400 = 4999 ∧
    tunedAmount .even u 0x7F800000 0x472C4400 = 0 ∧
    tunedAmount .even u 0x7FC00000 0x472C4400 = u ∧ tunedAmount .even u 0x43DC0000 0x80000000 = u

/-- R88: the pseudo-instruction `DSETN v, k` sets the lag to `k` exactly, for every `k` below `CAP`. -/
def Obligations.DsetnSetsTheLagExactly : Prop :=
  ∀ (s : State) (v : Fin Config.nv) (k : Nat), k < Config.cap →
    ∃ t, exec (dsetn v k) s = .next t ∧ (t.voice v).amt.toNat = k

/-- R107, the delay law: from an empty delay line, after any delay-line commands whose pushes on voice
`v` are `p_1 .. p_m`, `DL_WP` is `umod(m, CAP)`, the last `CAP` pushes stand where they were written,
and a DPOP with the lag `k` answers the value pushed `k` pushes ago (`CAP` pushes ago for `k = 0`), or
`+0.0` when there were fewer. -/
def Obligations.DelayLaw : Prop :=
  ∀ (l : List Instr) (s t : State) (v : Fin Config.nv), (∀ i ∈ l, isDelayLine i = true) →
    (s.voice v).buf = [] → (s.voice v).wp = 0 → execAll l s = .next t →
    let p := pushedOn v l
    let m := p.length
    let k := (t.voice v).amt.toNat
    (t.voice v).wp.toNat = m % Config.cap ∧
    (∀ j, 1 ≤ j → j ≤ m → m < j + Config.cap →
      (t.voice v).buf.readWord ((j - 1) % Config.cap) = real (p.getD (j - 1) zero)) ∧
    (1 ≤ k → k < Config.cap → ∃ u r, exec (.dpop v) t = .next u ∧ u.resp = some ⟨false, r⟩ ∧
      ShowsReal r (if k ≤ m then p.getD (m - k) zero else zero)) ∧
    (k = 0 → ∃ u r, exec (.dpop v) t = .next u ∧ u.resp = some ⟨false, r⟩ ∧
      ShowsReal r (if Config.cap ≤ m then p.getD (m - Config.cap) zero else zero))

/-! ### The filter -/

/-- R113: FTICK answers the filtered sample and advances the history of the voice's filter, each
variant by its own rule; nothing else changes. -/
def Obligations.FtickFiltersTheSample : Prop :=
  ∀ (s : State) (v : Fin Config.nv) (x : Word), ∃ t r, exec (.ftick v x) s = .next t ∧ Answers s t r ∧
    (match (s.voice v).filter with
      | .comb g => ShowsReal r (fadd (fmul g.b g.y) (fmul g.a x)) ∧
        (t.voice v).filter = .comb { g with y := fadd (fmul g.b g.y) (fmul g.a x) }
      | .svf g => ShowsReal r (svfTick g.co g.st x).2 ∧
        (t.voice v).filter = .svf { g with st := (svfTick g.co g.st x).1 }) ∧
    (∀ u, SameDelayLine u s t) ∧ (∀ u, u ≠ v → t.voice u = s.voice u) ∧ SameOutsideVoices s t

/-- R114: FSETC on a comb sets `b = EXP(NEG_TWO_PI·c)` and `a = 1 − b`; on an SVF it stores the cutoff
and takes the library's coefficients, or on a failure keeps the previous ones and sets the voice's
`STATUS` bit. Nothing else changes. -/
def Obligations.FsetcSetsTheCutoff : Prop :=
  ∀ (s : State) (v : Fin Config.nv) (c : Word), ∃ t, exec (.fsetc v c) s = .next t ∧
    (match (s.voice v).filter with
      | .comb g => (t.voice v).filter = .comb { g with
          b := realExp (fmul negTwoPi c), a := fsub one (realExp (fmul negTwoPi c)) } ∧
        t.status = s.status
      | .svf g =>
        match svfCoef g.type g.srate c g.q g.gain with
        | some k => (t.voice v).filter = .svf { g with cut := real c, co := k } ∧ t.status = s.status
        | none => (t.voice v).filter = .svf { g with cut := real c } ∧
          ∀ i, t.status.getLsbD i = (s.status.getLsbD i || decide (i = v.val))) ∧
    (∀ u, SameDelayLine u s t) ∧ (∀ u, u ≠ v → t.voice u = s.voice u) ∧ SameParams s t ∧
    SameLatches s t ∧ SameLfo s t ∧ Answers s t 0x00000000

/-- R116: FSETQ changes nothing on a comb; on an SVF it stores the Q and recomputes as FSETC does. -/
def Obligations.FsetqSetsTheQ : Prop :=
  ∀ (s : State) (v : Fin Config.nv) (q : Word), ∃ t, exec (.fsetq v q) s = .next t ∧
    (match (s.voice v).filter with
      | .comb g => (t.voice v).filter = .comb g ∧ t.status = s.status
      | .svf g =>
        match svfCoef g.type g.srate g.cut q g.gain with
        | some k => (t.voice v).filter = .svf { g with q := real q, co := k } ∧ t.status = s.status
        | none => (t.voice v).filter = .svf { g with q := real q } ∧
          ∀ i, t.status.getLsbD i = (s.status.getLsbD i || decide (i = v.val))) ∧
    (∀ u, SameDelayLine u s t) ∧ (∀ u, u ≠ v → t.voice u = s.voice u) ∧ SameParams s t ∧
    SameLatches s t ∧ SameLfo s t ∧ Answers s t 0x00000000

/-- R113, corner cases: a comb with `b = +0.0`, `a = 1.0` and a finite history passes every input but
`-0.0` and NaN through unchanged; with `b = 1.0`, `a = +0.0` and a finite input it holds a history that
is no NaN. -/
def Obligations.CombPassesThroughOrHolds : Prop :=
  (∀ (g : CombFilter) (x : Word), g.b = zero → g.a = one → isFinite g.y = true → isNaN x = false →
    x ≠ fneg zero → g.output x = x) ∧
  ∀ (g : CombFilter) (x : Word), g.b = one → g.a = zero → isNaN g.y = false → isFinite x = true →
    feq (g.output x) g.y = true

/-- R115: for a cutoff `c >= +0.0` and any exponential with `P_EXP_RANGE` and `P_EXP_UNIT`, the comb's
two coefficients are between 0 and 1. -/
def Obligations.CombCoefficientsAreBounded : Prop :=
  ∀ (exp : Word → Word) (g : CombFilter) (c : Word), ExpRange exp → ExpUnit exp → fge c zero = true →
    let h := g.setCutoffWith exp c
    fle zero h.b = true ∧ fle h.b one = true ∧ fle zero h.a = true ∧ fle h.a one = true

/-! ### The voice -/

/-- R126: VPROC answers the popped word, ticks the filter with it, and pushes `DECAY` times the sum of
the filtered sample and the input at `DL_WP`; every byte outside the four of that word is unchanged. -/
def Obligations.VprocIsOneFeedbackStep : Prop :=
  ∀ (s : State) (v : Fin Config.nv) (x : Word), (s.voice v).wp.toNat < Config.cap →
    (s.voice v).buf.wf = true → ∃ t r, exec (.vproc v x) s = .next t ∧ Answers s t r ∧
      let y := (s.voice v).buf.readWord
        (((s.voice v).wp.toNat + Config.cap - (s.voice v).amt.toNat) % Config.cap)
      ShowsReal r y ∧ (t.voice v).last = y ∧
      (t.voice v).filter = ((s.voice v).filter.tick y).1 ∧
      (t.voice v).buf.readWord (s.voice v).wp.toNat =
        fmul Config.decay (fadd ((s.voice v).filter.tick y).2 x) ∧
      (t.voice v).wp.toNat = ((s.voice v).wp.toNat + 1) % Config.cap ∧
      (t.voice v).amt = (s.voice v).amt ∧
      (∀ a, (a < 4 * (s.voice v).wp.toNat ∨ 4 * (s.voice v).wp.toNat + 4 ≤ a) →
        (t.voice v).buf.readByte a = (s.voice v).buf.readByte a) ∧
      (∀ u, u ≠ v → t.voice u = s.voice u) ∧ SameOutsideVoices s t

/-- R125, R126: VPROC has the effect of DPOP, then FTICK of the popped word, then DPUSH of the scaled
feedback, as one command. -/
def Obligations.VprocIsPopTickPush : Prop :=
  ∀ (s s1 s2 s3 : State) (v : Fin Config.nv) (x : Word), exec (.dpop v) s = .next s1 →
    exec (.ftick v (s1.voice v).last) s1 = .next s2 →
    exec (.dpush v (fmul Config.decay
      (fadd ((s1.voice v).filter.tick (s1.voice v).last).2 x))) s2 = .next s3 →
    ∃ t, exec (.vproc v x) s = .next t ∧ (∀ u, t.voice u = s3.voice u) ∧ SameOutsideVoices s3 t

/-- R126, R127: what a VPROC pushes is the result of the VPROC `DL_AMT` calls later on that voice
(`CAP` calls later for `DL_AMT = 0`), whatever the inputs between. -/
def Obligations.VprocEchoesAfterTheLag : Prop :=
  ∀ (s t u w : State) (v : Fin Config.nv) (x z : Word) (ys : List Word), (s.voice v).buf.wf = true →
    ys.length + 1 ≤ Config.cap → (s.voice v).amt.toNat = (ys.length + 1) % Config.cap →
    exec (.vproc v x) s = .next t → execAll (ys.map (Instr.vproc v)) t = .next u →
    exec (.vproc v z) u = .next w →
    (w.voice v).last = fmul Config.decay
      (fadd ((s.voice v).filter.tick ((s.voice v).buf.readWord
        (((s.voice v).wp.toNat + Config.cap - (s.voice v).amt.toNat) % Config.cap))).2 x)

/-! ### The LFO -/

/-- R131: LNEXT answers `amount × sin(2π × phase / period)` of the phase before the increment, then
advances the phase by the rate. -/
def Obligations.LnextAnswersThenAdvances : Prop :=
  ∀ s : State, ∃ t r, exec .lnext s = .next t ∧ Answers s t r ∧
    ShowsReal r (fmul s.lfoAmt (realSin (fdiv (fmul twoPi s.lfoPhase) Config.period))) ∧
    t.lfoPhase = fadd s.lfoPhase s.lfoRate ∧ t.lfoRate = s.lfoRate ∧ t.lfoAmt = s.lfoAmt ∧
    t.voices = s.voices ∧ SameParams s t ∧ t.eDry = s.eDry ∧ t.status = s.status

/-- R132: LSETF sets the rate, the REAL that its operand stands for (R19), and nothing else (but the
model's counter of free values, `n`). -/
def Obligations.LsetfSetsTheRate : Prop :=
  ∀ (s : State) (f : Word), ∃ n, exec (.lsetf f) s = .next { s with
    lfoRate := real f, resp := some ⟨false, 0x00000000⟩, serial := n }

/-- R133: LSETA sets the amount, the REAL that its operand stands for (R19), and nothing else (but the
model's counter of free values, `n`). -/
def Obligations.LsetaSetsTheAmount : Prop :=
  ∀ (s : State) (m : Word), ∃ n, exec (.lseta m) s = .next { s with
    lfoAmt := real m, resp := some ⟨false, 0x00000000⟩, serial := n }

/-- R131, R135: with depth zero and a bounded sine the LFO's value is a zero, as long as the argument of
the sine is finite. R135 asks for a finite phase; that a phase must also keep the product with 2π from
overflowing is the model's reading (log entry 23), and such phases are left out here. -/
def Obligations.ZeroDepthIsSilent : Prop :=
  ∀ (sin : Word → Word) (amount phase : Word), SinBound sin → isZero amount = true →
    isFinite (lfoArgument phase) = true → isZero (lfoValueWith sin amount phase) = true

/-- R136: at `2^24` a rate of 1.0 no longer moves the phase. A sanity statement. -/
def Obligations.LfoFreezesAtTwoPowTwentyFour : Prop :=
  ∀ s : State, s.lfoPhase = 0x4B800000 → s.lfoRate = one →
    ∃ t, exec .lnext s = .next t ∧ t.lfoPhase = 0x4B800000

/-! ### The engine -/

/-- R142: EFRAME loads the latches, the LFO's amount and rate, and every voice's filter setting from
the parameter registers, each the REAL that its pattern stands for (R19); it touches no delay line, no
filter history, not the phase and no parameter. -/
def Obligations.EframeLoadsTheFrame : Prop :=
  ∀ s : State, ∃ t, exec .eframe s = .next t ∧ Answers s t 0x00000000 ∧ t.eDry = real s.pDry ∧
    t.lfoAmt = real s.pLdepth ∧ t.lfoRate = real s.pLrate ∧ t.lfoPhase = s.lfoPhase ∧ SameParams s t ∧
    (∀ i, Config.nv ≤ i → t.status.getLsbD i = s.status.getLsbD i) ∧
    ∀ v, SameDelayLine v s t ∧ (t.voice v).eVgain = fmul s.pWet (s.voice v).pVgain ∧
      (t.voice v).eNote = fadd s.pBase (s.voice v).pVoff ∧
      match (s.voice v).filter with
      | .comb g => (t.voice v).filter = .comb { g with
          b := realExp (fmul negTwoPi (s.voice v).pVcut),
          a := fsub one (realExp (fmul negTwoPi (s.voice v).pVcut)) } ∧
        coefErr t.status v = coefErr s.status v
      | .svf g =>
        let k1 := svfCoef g.type g.srate (s.voice v).pVcut g.q g.gain
        let k2 := svfCoef g.type g.srate (s.voice v).pVcut (s.voice v).pVq g.gain
        (t.voice v).filter = .svf { g with
          cut := real (s.voice v).pVcut, q := real (s.voice v).pVq, co := k2.getD (k1.getD g.co) } ∧
        coefErr t.status v = (coefErr s.status v || k1.isNone || k2.isNone)

/-- R144: ESAMP advances the LFO once, retunes every voice to its note plus the LFO value and steps it
with the dry sample, and answers the clipped sum of the dry term and the voices' terms in ascending
order; nothing else changes. -/
def Obligations.EsampMixesOneSample : Prop :=
  ∀ (s : State) (x : Word), s.BuffersOk → ∃ t r, exec (.esamp x) s = .next t ∧ Answers s t r ∧
    let lv := fmul s.lfoAmt (realSin (fdiv (fmul twoPi s.lfoPhase) Config.period))
    t.lfoPhase = fadd s.lfoPhase s.lfoRate ∧ t.lfoRate = s.lfoRate ∧ t.lfoAmt = s.lfoAmt ∧
    SameParams s t ∧ SameLatches s t ∧ t.status = s.status ∧
    (∀ v, let freq := fmul Config.baseHz (realPow2 (fdiv (fadd (s.voice v).eNote lv) twelve))
      let y := (s.voice v).buf.readWord
        (((s.voice v).wp.toNat + Config.cap - (t.voice v).amt.toNat) % Config.cap)
      (∃ u : BitVec Config.idxw, u.toNat < Config.cap ∧
        (t.voice v).amt = tunedAmount Config.roundTies u freq Config.fs) ∧
      (t.voice v).last = y ∧ (t.voice v).filter = ((s.voice v).filter.tick y).1 ∧
      (t.voice v).wp.toNat = ((s.voice v).wp.toNat + 1) % Config.cap ∧
      (t.voice v).buf.readWord (s.voice v).wp.toNat =
        fmul Config.decay (fadd ((s.voice v).filter.tick y).2 x) ∧
      ∀ a, (a < 4 * (s.voice v).wp.toNat ∨ 4 * (s.voice v).wp.toNat + 4 ≤ a) →
        (t.voice v).buf.readByte a = (s.voice v).buf.readByte a) ∧
    ShowsReal r (clip (fadd (fadd (fadd (fadd (fmul s.eDry x)
      (fmul (s.voice 0).eVgain (t.voice 0).last)) (fmul (s.voice 1).eVgain (t.voice 1).last))
      (fmul (s.voice 2).eVgain (t.voice 2).last)) (fmul (s.voice 3).eVgain (t.voice 3).last)))

/-- R140: CLIP maps above 1 to 1, below -1 to `+0.0`, and returns everything else, NaN included,
unchanged. -/
def Obligations.ClipIsAsymmetric : Prop :=
  ∀ x : Word, (fgt x one = true → clip x = one) ∧ (flt x negOne = true → clip x = zero) ∧
    (fle negOne x = true → fle x one = true → clip x = x) ∧ (isNaN x = true → clip x = x) ∧
    (isNaN x = false → fle negOne (clip x) = true ∧ fle (clip x) one = true)

/-- R148: an ESAMP whose sum is no NaN answers a REAL between -1 and 1, and `+0.0` for a sum below
-1. -/
def Obligations.EsampOutputIsInRange : Prop :=
  ∀ (s : State) (x : Word), s.BuffersOk → isNaN (s.sample x).2 = false →
    ∃ t r, exec (.esamp x) s = .next t ∧ t.resp = some ⟨false, r⟩ ∧
      fle negOne r = true ∧ fle r one = true ∧ (flt (s.sample x).2 negOne = true → r = zero)

/-- R138: at a zero note the frequency is the base, for any power function with `P_POW2_ZERO`. -/
def Obligations.ZeroNoteIsTheBase : Prop :=
  ∀ (pow2 : Word → Word) (base : Word), PowTwoZero pow2 → isNaN base = false →
    noteToFreqWith pow2 zero base = base ∧ noteToFreqWith pow2 (fneg zero) base = base

/-- R138, R139: the source's example of the conversion and its inverse. A sanity statement. -/
def Obligations.OctaveConversion : Prop :=
  ∀ pow2 log2 : Word → Word, PowTwoInt pow2 → LogTwoPow log2 →
    noteToFreqWith pow2 twelve 0x43DC0000 = 0x445C0000 ∧
      freqToNoteWith log2 0x445C0000 0x43DC0000 = twelve

/-- R186, R187: what EFRAME leaves in the latches, the LFO's rate and amount and a comb's coefficients
comes from the parameter registers alone, so no reset value of those reaches a later output; and an
SVF whose last computation succeeds has the coefficients of its setting alone. -/
def Obligations.EframeErasesResetValues : Prop :=
  ∀ s1 s2 t1 t2 : State, SameParams s1 s2 → exec .eframe s1 = .next t1 → exec .eframe s2 = .next t2 →
    SameLatches t1 t2 ∧ t2.lfoRate = t1.lfoRate ∧ t2.lfoAmt = t1.lfoAmt ∧
    ∀ v, (∀ g1 g2, (t1.voice v).filter = .comb g1 → (t2.voice v).filter = .comb g2 →
        g2.b = g1.b ∧ g2.a = g1.a) ∧
      ∀ g1 g2 k, (t1.voice v).filter = .svf g1 → (t2.voice v).filter = .svf g2 →
        g2.type = g1.type → g2.srate = g1.srate → g2.gain = g1.gain →
        svfCoef g1.type g1.srate g1.cut g1.q g1.gain = some k → g2.co = k ∧ g1.co = k

/-! ### Register access -/

/-- R151: PWR to a read-write register stores the pattern and changes nothing else, so that every other
register shows what it showed. The read-write registers are those of the rule's list. PWR of any other
register is a term that no packet decodes to; that `exec` refuses it with `err = 1` and no change is the
model's choice (log entry 15), the answer that R151 gives for such a register number. -/
def Obligations.PwrWritesOneParameter : Prop :=
  ∀ (s : State) (reg : Reg) (x : Word),
    (reg.writable = true ↔ isWritableNumber reg.number.toNat) ∧
    (reg.writable = true → ∃ t, exec (.pwr reg x) s = .next t ∧ Answers s t 0x00000000 ∧
      t.view reg = .word x ∧ (∀ r, r ≠ reg → t.view r = s.view r) ∧ SameLatches s t ∧ SameLfo s t ∧
      t.status = s.status ∧ ∀ u, SameDelayLine u s t ∧ (t.voice u).filter = (s.voice u).filter) ∧
    (reg.writable = false →
      exec (.pwr reg x) s = .next { s with resp := some ⟨true, 0x00000000⟩ })

/-- R152: what PRD answers for every register, with no side effect (but on the model's counter of free
values, `n`). -/
def Obligations.PrdShowsTheRegister : Prop :=
  ∀ (s : State) (reg : Reg), ∃ r n, exec (.prd reg) s = .next { s with
      resp := some ⟨false, r⟩, serial := n } ∧
    match reg with
    | .pDry => r = s.pDry
    | .pWet => r = s.pWet
    | .pLrate => r = s.pLrate
    | .pLdepth => r = s.pLdepth
    | .pBase => r = s.pBase
    | .status => ∀ i, r.getLsbD i = (s.status.getLsbD i && decide (i < Config.nv))
    | .lfoPhase => ShowsReal r s.lfoPhase
    | .lfoRate => ShowsReal r s.lfoRate
    | .lfoAmt => ShowsReal r s.lfoAmt
    | .eDry => ShowsReal r s.eDry
    | .cfgCap => r.toNat = Config.cap
    | .cfgNv => r.toNat = Config.nv
    | .cfgFs => r = Config.fs
    | .cfgBaseHz => r = Config.baseHz
    | .cfgDecay => r = Config.decay
    | .cfgPeriod => r = Config.period
    | .cfgVariant => ∀ i, r.getLsbD i = true ↔
        ∃ v : Fin Config.nv, v.val = i ∧ Config.filterVariant v = .svf
    | .cfgSvfType => r.toNat = match Config.svfType with
      | .lowpass => 0
      | .highpass => 1
      | .bandpass => 2
      | .notch => 3
      | .peaking => 4
      | .allpass => 5
    | .cfgSvfGain => ShowsReal r Config.svfGain
    | .voice v .pVgain => r = (s.voice v).pVgain
    | .voice v .pVcut => r = (s.voice v).pVcut
    | .voice v .pVq => r = (s.voice v).pVq
    | .voice v .pVoff => r = (s.voice v).pVoff
    | .voice v .dlWp => r.toNat = (s.voice v).wp.toNat
    | .voice v .dlAmt => r.toNat = (s.voice v).amt.toNat
    | .voice v .dlLast => ShowsReal r (s.voice v).last
    | .voice v .eVgain => ShowsReal r (s.voice v).eVgain
    | .voice v .eNote => ShowsReal r (s.voice v).eNote
    | .voice v .cfB => match (s.voice v).filter with
      | .comb g => ShowsReal r g.b
      | .svf _ => r = 0x00000000
    | .voice v .cfA => match (s.voice v).filter with
      | .comb g => ShowsReal r g.a
      | .svf _ => r = 0x00000000
    | .voice v .cfY => match (s.voice v).filter with
      | .comb g => ShowsReal r g.y
      | .svf _ => r = 0x00000000
    | .voice v .fsCut => match (s.voice v).filter with
      | .comb _ => r = 0x00000000
      | .svf g => ShowsReal r g.cut
    | .voice v .fsQ => match (s.voice v).filter with
      | .comb _ => r = 0x00000000
      | .svf g => ShowsReal r g.q

/-- R50: a parameter register is read by EFRAME and PRD alone: every other command has the same outcome
whatever a parameter holds, and leaves it. -/
def Obligations.ParametersAreStaged : Prop :=
  ∀ (s s1 t : State) (reg : Reg) (x : Word) (i : Instr), s.writeParam reg x = some s1 →
    i ≠ .eframe → (∀ q, i ≠ .prd q) → (∀ q y, i ≠ .pwr q y) → exec i s = .next t →
    ∃ t1, t.writeParam reg x = some t1 ∧ exec i s1 = .next t1

/-! ### Reset, and what every command keeps -/

/-- R54, R180, R185: the state after reset, from any state whatever, between commands or during one (when
the response is any answer or none), every row of the table that gives a value: delay lines, pointers,
latches, the LFO and `STATUS` zero; a filter of the configured variant, with zero history; `CF_A` one of
its two values; the configuration registers. -/
def Obligations.ResetValues : Prop :=
  ∀ s : State, (s = State.reset ∨ ∃ s0 g w, s = State.assertReset g w s0 ∨
      ∃ r, s = State.resetDuring g w r s0) → s.status = 0x00000000 ∧
    s.lfoPhase = zero ∧ s.lfoRate = zero ∧ s.lfoAmt = zero ∧ s.eDry = zero ∧
    s.readReg .cfgCap = 0x00001388 ∧ s.readReg .cfgNv = 0x00000004 ∧ s.readReg .cfgFs = Config.fs ∧
    s.readReg .cfgBaseHz = Config.baseHz ∧ s.readReg .cfgDecay = 0x3F7AE148 ∧
    s.readReg .cfgPeriod = 0x48D75500 ∧
    [FilterType.lowpass, .highpass, .bandpass, .notch, .peaking, .allpass][(s.readReg .cfgSvfType).toNat]? =
      some Config.svfType ∧
    ShowsReal (s.readReg .cfgSvfGain) Config.svfGain ∧
    (∀ i, (s.readReg .cfgVariant).getLsbD i = true ↔
      ∃ v : Fin Config.nv, v.val = i ∧ Config.filterVariant v = .svf) ∧
    ∀ v, (∀ i, (s.voice v).buf.readWord i = zero) ∧ (s.voice v).wp = 0 ∧ (s.voice v).amt = 0 ∧
      (s.voice v).last = zero ∧ (s.voice v).eVgain = zero ∧ (s.voice v).eNote = zero ∧
      match Config.filterVariant v with
      | .comb => ∃ a, (s.voice v).filter = .comb ⟨zero, a, zero⟩ ∧ a = Config.combAReset ∧
        (a = zero ∨ a = one)
      | .svf => (s.voice v).filter = .svf ⟨Config.svfType, Config.fs, zero, zero, Config.svfGain,
        Config.svfCoefReset, Config.svfStateReset⟩

/-- The invariant holds after reset, between commands or during one (R35, R36, R47; the canonical form
of memory is the model's own, log entry 4). -/
def Obligations.ResetSatisfiesTheInvariant : Prop :=
  State.reset.Inv ∧ ∀ g w s, (State.assertReset g w s).Inv ∧ ∀ r, (State.resetDuring g w r s).Inv

/-- Every step keeps the invariant, from every state that has it (R35, R36, R47; the canonical form of
memory is the model's own, log entry 4). -/
def Obligations.EveryStepKeepsTheInvariant : Prop :=
  ∀ s t : State, s.Inv → step s = .next t → t.Inv

/-- R35: in every state that the machine and its host reach, the two indices of every voice are in
range. -/
def Obligations.IndicesStayInRange : Prop :=
  ∀ s : State, Reachable s → ∀ v, (s.voice v).wp.toNat < Config.cap ∧
    (s.voice v).amt.toNat ≤ Config.cap - 1

/-- R160: from every reachable state every legal command, with any operands, runs to completion and
answers `err = 0`. -/
def Obligations.LegalCommandsComplete : Prop :=
  ∀ (s : State) (p : Packet) (rest : List Packet) (i : Instr), Reachable s → s.cmdIn = p :: rest →
    decode p = .ok i → ∃ t r, step s = .next t ∧ t.resp = some ⟨false, r⟩ ∧ t.cmdIn = rest

/-- R36, R38: in every reachable state a voice's filter is of the configured variant, and the type,
sample rate and gain of an SVF setting are the configuration's. -/
def Obligations.FilterVariantNeverChanges : Prop :=
  ∀ s : State, Reachable s → ∀ v, (s.voice v).filter.variant = Config.filterVariant v ∧
    ∀ g, (s.voice v).filter = .svf g →
      g.type = Config.svfType ∧ g.srate = Config.fs ∧ g.gain = Config.svfGain

/-- R47, R114, R116, R119, R142: no step clears a `STATUS` bit; a step sets one only for an SVF voice, when
its command is FSETC, FSETQ or EFRAME and the library fails for the setting that this command hands it. -/
def Obligations.StatusIsSticky : Prop :=
  ∀ (s t : State) (v : Fin Config.nv), step s = .next t →
    (coefErr s.status v = true → coefErr t.status v = true) ∧
    (coefErr s.status v = false → coefErr t.status v = true →
      ∃ p i g, s.cmdIn.head? = some p ∧ decode p = .ok i ∧ (s.voice v).filter = .svf g ∧
        match i with
        | .fsetc u c => u = v ∧ svfCoef g.type g.srate c g.q g.gain = none
        | .fsetq u q => u = v ∧ svfCoef g.type g.srate g.cut q g.gain = none
        | .eframe => svfCoef g.type g.srate (s.voice v).pVcut g.q g.gain = none ∨
          svfCoef g.type g.srate (s.voice v).pVcut (s.voice v).pVq g.gain = none
        | _ => False)

/-- R31 to R34, R37, R38, R40, R41, R43, R44, R47 to R49: which commands write which state. Whatever a
command that is not among the writers of a register does, the register keeps its value. -/
def Obligations.EveryRegisterHasItsWriters : Prop :=
  ∀ (i : Instr) (s t : State), exec i s = .next t →
    (SameParams s t ∨ i.opcode = .pwr) ∧
    (SameLatches s t ∨ i.opcode = .eframe) ∧
    (t.status = s.status ∨ i.opcode ∈ [.fsetc, .fsetq, .eframe]) ∧
    (t.lfoPhase = s.lfoPhase ∨ i.opcode ∈ [.lnext, .esamp]) ∧
    (t.lfoRate = s.lfoRate ∨ i.opcode ∈ [.lsetf, .eframe]) ∧
    (t.lfoAmt = s.lfoAmt ∨ i.opcode ∈ [.lseta, .eframe]) ∧
    t.cmdIn = s.cmdIn ∧
    ∀ v, ((∀ a, (t.voice v).buf.readByte a = (s.voice v).buf.readByte a) ∧
        (t.voice v).wp = (s.voice v).wp ∨ i.opcode ∈ [.dpush, .vproc, .esamp]) ∧
      ((t.voice v).amt = (s.voice v).amt ∨ i.opcode ∈ [.dsetf, .esamp]) ∧
      ((t.voice v).last = (s.voice v).last ∨ i.opcode ∈ [.dpop, .vproc, .esamp]) ∧
      ((t.voice v).filter = (s.voice v).filter ∨
        i.opcode ∈ [.ftick, .fsetc, .fsetq, .vproc, .eframe, .esamp]) ∧
      (t.voice v).filter.variant = (s.voice v).filter.variant ∧
      (∀ g h, (s.voice v).filter = .comb g → (t.voice v).filter = .comb h →
        (h.y = g.y ∨ i.opcode ∈ [.ftick, .vproc, .esamp]) ∧
        (h.b = g.b ∧ h.a = g.a ∨ i.opcode ∈ [.fsetc, .eframe])) ∧
      ∀ g h, (s.voice v).filter = .svf g → (t.voice v).filter = .svf h →
        h.type = g.type ∧ h.srate = g.srate ∧ h.gain = g.gain ∧
        (h.cut = g.cut ∨ i.opcode ∈ [.fsetc, .eframe]) ∧ (h.q = g.q ∨ i.opcode ∈ [.fsetq, .eframe]) ∧
        (h.co = g.co ∨ i.opcode ∈ [.fsetc, .fsetq, .eframe]) ∧
        (h.st = g.st ∨ i.opcode ∈ [.ftick, .vproc, .esamp])

/-- R30: a command on voice `v` leaves every other voice alone, and what it does to voice `v` and what
it answers depend on that voice alone (with the model's counter of free values, log entry 7). -/
def Obligations.VoicesAreIsolated : Prop :=
  ∀ (i : Instr) (v : Fin Config.nv) (s1 s2 t1 t2 : State), voiceOf i = some v →
    exec i s1 = .next t1 → exec i s2 = .next t2 →
    (∀ u, u ≠ v → t1.voice u = s1.voice u) ∧
    (s1.voice v = s2.voice v → s1.serial = s2.serial →
      t1.voice v = t2.voice v ∧ t1.resp = t2.resp)

/-! ### One NaN value -/

/-- R19: no rule depends on which NaN pattern an operand is: with any two NaN patterns every command but
PWR, which keeps the pattern of its parameter, has the same outcome. -/
def Obligations.NaNPatternsOfOperandsDoNotMatter : Prop :=
  ∀ (s : State) (v : Fin Config.nv) (x y z : Word), isNaN x = true → isNaN y = true →
    exec (.dpush v x) s = exec (.dpush v y) s ∧ exec (.dsetf v x z) s = exec (.dsetf v y z) s ∧
    exec (.dsetf v z x) s = exec (.dsetf v z y) s ∧ exec (.ftick v x) s = exec (.ftick v y) s ∧
    exec (.fsetc v x) s = exec (.fsetc v y) s ∧ exec (.fsetq v x) s = exec (.fsetq v y) s ∧
    exec (.vproc v x) s = exec (.vproc v y) s ∧ exec (.lsetf x) s = exec (.lsetf y) s ∧
    exec (.lseta x) s = exec (.lseta y) s ∧ exec (.esamp x) s = exec (.esamp y) s

/-- R19: after reset every REAL of the datapath that is NaN is the one NaN value. -/
def Obligations.ResetHasOneNaN : Prop :=
  State.reset.OneNaN ∧ ∀ g w s, (State.assertReset g w s).OneNaN ∧ ∀ r, (State.resetDuring g w r s).OneNaN

/-- R19: every step keeps it so that every REAL of the datapath (the buffers, the last outputs, the
filters, the LFO and the latches) that is NaN is the one NaN value. The canonical form of memory in the
premise is the model's own (log entry 4), and which pattern the one value is carried as is not known
(log entry 11). -/
def Obligations.EveryStepKeepsOneNaN : Prop :=
  ∀ s t : State, s.BuffersOk → s.OneNaN → step s = .next t → t.OneNaN

/-! ### Numbers -/

/-- R11: the one rounding of the model, on magnitudes: the field of the nearest REAL, the even one of
two nearest, and the field of infinity from half a unit past the largest finite REAL on. -/
def Obligations.RoundingIsNearestEven : Prop :=
  ∀ n d : Nat, 0 < d →
    (roundMag n d = infMag ↔ (2 ^ 25 - 1) * 2 ^ 252 * d ≤ n) ∧
    (roundMag n d < infMag → ∀ m, m < infMag →
      |(unitsOfMag (roundMag n d) * d : Int) - n| ≤ |(unitsOfMag m * d : Int) - n| ∧
      (|(unitsOfMag (roundMag n d) * d : Int) - n| = |(unitsOfMag m * d : Int) - n| →
        m ≠ roundMag n d → roundMag n d % 2 = 0))

/-- R11: a value that is a REAL is its own rounding. -/
def Obligations.RoundingKeepsReals : Prop :=
  ∀ m d : Nat, 0 < d → m < infMag → roundMag (unitsOfMag m * d) d = m

/-- R11, R18: sum, difference, product and quotient of finite REALs are the exact results rounded once
with roundTiesToEven, in units of `2^-149`. `RoundsTo` speaks of values, which do not tell the two zeros
apart: the sign of a zero result is in `ArithmeticSpecialCases`. -/
def Obligations.ArithmeticRoundsOnce : Prop :=
  ∀ p q : Word, isFinite p = true → isFinite q = true →
    RoundsTo (fadd p q) (value p + value q) 1 ∧
    RoundsTo (fsub p q) (value p - value q) 1 ∧
    RoundsTo (fmul p q) (value p * value q) (2 ^ 149) ∧
    (isZero q = false →
      RoundsTo (fdiv p q) ((if signBit q then -value p else value p) * 2 ^ 149) (units q))

/-- R11: the operands that are no finite REALs, valid and invalid, the zero divisors, and the sign of every
result: a product or quotient has the product of the signs, an exact zero sum is `-0.0` only of two
negative operands, any other finite sum has the sign of the exact one. -/
def Obligations.ArithmeticSpecialCases : Prop :=
  (∀ p q, isNaN p = true ∨ isNaN q = true → isNaN (fadd p q) = true ∧ isNaN (fsub p q) = true ∧
    isNaN (fmul p q) = true ∧ isNaN (fdiv p q) = true) ∧
  (∀ p q, isFinite p = true → isZero p = false → isZero q = true →
    isInf (fdiv p q) = true ∧ signBit (fdiv p q) = (signBit p != signBit q)) ∧
  (∀ p q, isZero p = true → isZero q = true → isNaN (fdiv p q) = true) ∧
  (∀ p q, isInf p = true → isInf q = true → isNaN (fdiv p q) = true) ∧
  (∀ p q, isZero p = true → isInf q = true →
    isNaN (fmul p q) = true ∧ isNaN (fmul q p) = true) ∧
  (∀ p q, isInf p = true → isInf q = true → signBit p ≠ signBit q → isNaN (fadd p q) = true) ∧
  (∀ p q, isInf p = true → isNaN q = false → (isInf q = true → signBit p = signBit q) →
    fadd p q = p ∧ fadd q p = p) ∧
  (∀ p q, isInf p = true → isNaN q = false → isZero q = false →
    isInf (fmul p q) = true ∧ isInf (fmul q p) = true) ∧
  (∀ p q, isInf p = true → isFinite q = true → isInf (fdiv p q) = true ∧ isZero (fdiv q p) = true) ∧
  (∀ p q, isNaN (fmul p q) = false → signBit (fmul p q) = (signBit p != signBit q)) ∧
  (∀ p q, isNaN (fdiv p q) = false → signBit (fdiv p q) = (signBit p != signBit q)) ∧
  (∀ p q, isFinite p = true → isFinite q = true →
    (value p + value q = 0 → isZero (fadd p q) = true ∧
      signBit (fadd p q) = (signBit p && signBit q)) ∧
    (value p + value q ≠ 0 → signBit (fadd p q) = decide (value p + value q < 0))) ∧
  (∀ p q, fsub p q = fadd p (fneg q)) ∧
  ∀ p, signBit (fneg p) = (!signBit p) ∧ magBits (fneg p) = magBits p

/-- R12: comparisons are those of the values, with the infinities at the two ends; a comparison with a
NaN is false, the two zeros are equal, and `<= +0.0` is true of `-0.0` and `-Inf` and false of NaN. -/
def Obligations.ComparisonsAreTheValues : Prop :=
  (∀ p q, isFinite p = true → isFinite q = true →
    (flt p q = true ↔ value p < value q) ∧ (fle p q = true ↔ value p ≤ value q) ∧
    (fgt p q = true ↔ value p > value q) ∧ (fge p q = true ↔ value p ≥ value q) ∧
    (feq p q = true ↔ value p = value q)) ∧
  (∀ p, isFinite p = true → flt p 0x7F800000 = true ∧ flt 0xFF800000 p = true) ∧
  (∀ p q, isNaN p = true ∨ isNaN q = true → flt p q = false ∧ fle p q = false ∧ fgt p q = false ∧
    fge p q = false ∧ feq p q = false) ∧
  feq zero (fneg zero) = true ∧ fle (fneg zero) zero = true ∧ fle 0xFF800000 zero = true

/-- R17: `ROUND_INT` gives the nearest integer, on an exact half the even one or the one farther from
zero, the extended integers for the infinities and `NONE` for NaN. -/
def Obligations.RoundIntIsNearest : Prop :=
  (∀ (ties : RoundTies) (p : Word), isFinite p = true → ∃ z : Int, roundInt ties p = .int z ∧
    2 * |z * 2 ^ 149 - value p| ≤ 2 ^ 149 ∧
    (2 * |z * 2 ^ 149 - value p| = 2 ^ 149 →
      match ties with
      | .even => z % 2 = 0
      | .away => |value p| < |z * 2 ^ 149|)) ∧
  ∀ ties, roundInt ties 0x7F800000 = .posInf ∧ roundInt ties 0xFF800000 = .negInf ∧
    ∀ p, isNaN p = true → roundInt ties p = .none
end

