-- ==== Sys2Proof/Laws/Encoding.lean ====
section
/-!
SUPPORT. The fields of a command word as numbers, and what the field and register maps give back
(R76, R79, R52).
-/

namespace Sys2Proof

/-! ### Fields as numbers (R76) -/

theorem toNat_opField (w : Word) : (opField w).toNat = w.toNat / 2 ^ 24 := by
  have := w.isLt
  simp only [opField, BitVec.extractLsb'_toNat, Nat.shiftRight_eq_div_pow]
  omega

theorem toNat_vField (w : Word) : (vField w).toNat = w.toNat / 2 ^ 16 % 2 ^ 8 := by
  simp only [vField, BitVec.extractLsb'_toNat, Nat.shiftRight_eq_div_pow]

theorem toNat_nField (w : Word) : (nField w).toNat = w.toNat % 2 ^ 16 := by
  simp [nField, BitVec.extractLsb'_toNat]

theorem toNat_commandWord (op v : BitVec 8) (n : BitVec 16) :
    (commandWord op v n).toNat = op.toNat * 2 ^ 24 + v.toNat * 2 ^ 16 + n.toNat := by
  have h1 := v.isLt
  have h2 := n.isLt
  rw [commandWord, BitVec.toNat_append, BitVec.toNat_append,
    ← Nat.shiftLeft_add_eq_or_of_lt h1, ← Nat.shiftLeft_add_eq_or_of_lt h2]
  simp only [Nat.shiftLeft_eq]
  omega

theorem opField_commandWord (op v : BitVec 8) (n : BitVec 16) : opField (commandWord op v n) = op := by
  have := v.isLt
  have := n.isLt
  apply BitVec.eq_of_toNat_eq
  rw [toNat_opField, toNat_commandWord]
  omega

theorem vField_commandWord (op v : BitVec 8) (n : BitVec 16) : vField (commandWord op v n) = v := by
  have := v.isLt
  have := n.isLt
  apply BitVec.eq_of_toNat_eq
  rw [toNat_vField, toNat_commandWord]
  omega

theorem nField_commandWord (op v : BitVec 8) (n : BitVec 16) : nField (commandWord op v n) = n := by
  have := n.isLt
  apply BitVec.eq_of_toNat_eq
  rw [toNat_nField, toNat_commandWord]
  omega

/-- A command word is its three fields. -/
theorem commandWord_fields (w : Word) : commandWord (opField w) (vField w) (nField w) = w := by
  apply BitVec.eq_of_toNat_eq
  rw [toNat_commandWord, toNat_opField, toNat_vField, toNat_nField]
  omega

/-! ### The maps (R52, R79, R84) -/

theorem opcodeOf_toByte (o : Opcode) : opcodeOf o.toByte = some o := by
  cases o <;> decide

/-- The opcode read from an `op` value has that value. -/
theorem toByte_of_opcodeOf {op : BitVec 8} {o : Opcode} (h : opcodeOf op = some o) : o.toByte = op := by
  have := List.find?_some h
  simpa using this

theorem regOfNumber_number (r : Reg) : regOfNumber r.number = some r := by
  cases r with
  | voice v k =>
    have all : ∀ v : Fin Config.nv, regOfNumber (Reg.voice v k).number = some (.voice v k) := by
      cases k <;> decide
    exact all v
  | _ => decide

/-- The voice field of a voice is below `NV` and gives the voice back. -/
theorem toNat_voiceByte (v : Fin Config.nv) : (BitVec.ofNat 8 v.val).toNat = v.val := by
  rw [BitVec.toNat_ofNat]
  exact Nat.mod_eq_of_lt (Nat.lt_trans v.isLt (by decide))

/-- A table entry that a lookup finds is in the table. -/
theorem mem_of_lookup {β : Type} {l : List (Nat × β)} {a : Nat} {b : β}
    (h : l.lookup a = some b) : (a, b) ∈ l := by
  induction l with
  | nil => simp at h
  | cons c l ih =>
    obtain ⟨k, y⟩ := c
    rw [List.lookup_cons] at h
    by_cases e : a = k
    · subst e; simp at h; simp [h]
    · have : (a == k) = false := by simpa using e
      rw [this] at h
      exact List.mem_cons_of_mem _ (ih h)

/-- A number names at most the register that has this number (R52). -/
theorem number_of_regOfNumber {n : BitVec 16} {r : Reg} (h : regOfNumber n = some r) :
    r.number = n := by
  have hn := n.isLt
  unfold regOfNumber at h
  split at h
  · next e =>
    split at h
    · next hv =>
      cases hk : List.lookup (n.extractLsb' 0 4).toNat voiceRegs with
      | none => rw [hk] at h; cases h
      | some k =>
        rw [hk] at h
        cases h
        have hm := mem_of_lookup hk
        have off : ∀ p ∈ voiceRegs, p.2.offset = p.1 := by decide
        have ho := off _ hm
        simp only at ho
        have e' := congrArg BitVec.toNat e
        simp only [BitVec.extractLsb'_toNat, Nat.shiftRight_eq_div_pow] at e' ho hv
        apply BitVec.eq_of_toNat_eq
        simp only [Reg.number, BitVec.toNat_ofNat, ho, BitVec.extractLsb'_toNat,
          Nat.shiftRight_eq_div_pow]
        simp at e'
        omega
    · cases h
  · have key : ∀ p ∈ globalRegs, p.2.number.toNat = p.1 := by decide
    exact BitVec.eq_of_toNat_eq (key _ (mem_of_lookup h))

/-! ### The operand fields (R77, R81) -/

/-- The V format's operand is the voice exactly when the command word is that voice's. -/
theorem voiceOperand_eq_ok {w : Word} {v : Fin Config.nv} :
    voiceOperand w = .ok v ↔ nField w = 0 ∧ (vField w).toNat = v.val := by
  unfold voiceOperand
  split
  · next h => exact ⟨nofun, fun e => absurd e.1 h⟩
  · next h =>
    split
    · next h' => simp [Decidable.not_not.1 h, Fin.ext_iff]
    · next h' =>
      have := v.isLt
      constructor
      · intro e
        cases e
      · rintro ⟨-, e⟩
        omega

theorem noOperand_eq_ok {w : Word} {i j : Instr} :
    noOperand w i = .ok j ↔ vField w = 0 ∧ nField w = 0 ∧ i = j := by
  unfold noOperand
  split
  · next h => exact ⟨nofun, fun e => absurd e.1 h⟩
  · next h =>
    split
    · next h' => exact ⟨nofun, fun e => absurd e.2.1 h'⟩
    · next h' => simp [Decidable.not_not.1 h, Decidable.not_not.1 h']

theorem registerOperand_eq_ok {w : Word} {r : Reg} :
    registerOperand w = .ok r ↔ vField w = 0 ∧ regOfNumber (nField w) = some r := by
  unfold registerOperand
  split
  · next h => exact ⟨nofun, fun e => absurd e.1 h⟩
  · next h =>
    split
    · next h' => simp [h']
    · next r' h' => simp [Decidable.not_not.1 h, h']

theorem writableOperand_eq_ok {w : Word} {r : Reg} :
    writableOperand w = .ok r ↔
      vField w = 0 ∧ regOfNumber (nField w) = some r ∧ r.writable = true := by
  unfold writableOperand
  split
  · next e h =>
    have : ∀ r', registerOperand w ≠ .ok r' := by simp [h]
    simp only [ne_eq, registerOperand_eq_ok, not_and] at this
    constructor
    · intro e
      cases e
    · rintro ⟨a, b, -⟩
      exact absurd b (this r a)
  · next r' h =>
    obtain ⟨h1, h2⟩ := registerOperand_eq_ok.1 h
    by_cases hw : r'.writable = true
    · simp only [hw, if_true, h1, h2, true_and, Except.ok.injEq, Option.some.injEq]
      constructor
      · rintro rfl
        exact ⟨rfl, hw⟩
      · exact fun e => e.1
    · simp only [hw, h1, h2, true_and, Option.some.injEq]
      constructor
      · intro e
        cases e
      · rintro ⟨rfl, e⟩
        exact absurd e hw

end Sys2Proof
end

