-- ==== Sys2Proof/Laws/Memory.lean ====
section
/-!
SUPPORT. The laws of delay-buffer memory: a read after a write gives the value written, every other
address keeps its value, and every operation keeps the canonical form (R65, R66, R67).
-/

namespace Sys2Proof.Machine

/-! ### The canonical form -/

/-- The canonical form of `Memory.wf` as a proposition, by parts. -/
theorem Memory.wf_iff (m : Memory) :
    m.wf = true ↔ m.Pairwise (fun c d => c.1 < d.1) ∧
      ∀ c ∈ m, c.1 < 4 * Config.cap ∧ c.2 ≠ Memory.unlisted := by
  simp [Memory.wf]

/-- The memory after reset is canonical. -/
@[simp] theorem Memory.wf_nil : Memory.wf [] = true := by decide

/-- After reset every byte reads as the unlisted byte. -/
@[simp] theorem Memory.readByte_nil (a : Nat) : Memory.readByte [] a = Memory.unlisted := rfl

/-- An address that no entry lists reads as the unlisted byte. -/
theorem Memory.readByte_of_not_listed {m : Memory} {a : Nat} (h : ∀ c ∈ m, c.1 ≠ a) :
    m.readByte a = Memory.unlisted := by
  induction m with
  | nil => rfl
  | cons c rest ih =>
    obtain ⟨b, y⟩ := c
    have hb : a ≠ b := fun e => h (b, y) (by simp) e.symm
    simp [Memory.readByte, hb, ih fun c hc => h c (by simp [hc])]

/-! ### One byte -/

/-- Writing a byte leaves every other address alone, whatever the list. -/
theorem Memory.readByte_writeByte_of_ne (m : Memory) {a a' : Nat} (x : Byte) (h : a' ≠ a) :
    (m.writeByte a x).readByte a' = m.readByte a' := by
  induction m with
  | nil => by_cases hx : x = Memory.unlisted <;> simp [Memory.writeByte, Memory.put, hx, Memory.readByte, h]
  | cons c rest ih =>
    obtain ⟨b, y⟩ := c
    by_cases h1 : a < b
    · by_cases hx : x = Memory.unlisted <;>
        simp [Memory.writeByte, Memory.put, h1, hx, Memory.readByte, h]
    · by_cases h2 : a = b
      · subst h2
        by_cases hx : x = Memory.unlisted <;>
          simp [Memory.writeByte, Memory.put, hx, Memory.readByte, h]
      · simp only [Memory.writeByte, h1, h2, if_false, Memory.readByte, ih]

/-- Reading the address written gives the byte written, on a list with rising addresses. -/
theorem Memory.readByte_writeByte_same {m : Memory} (a : Nat) (x : Byte)
    (h : m.Pairwise (fun c d => c.1 < d.1)) : (m.writeByte a x).readByte a = x := by
  induction m with
  | nil => by_cases hx : x = Memory.unlisted <;> simp [Memory.writeByte, Memory.put, hx, Memory.readByte]
  | cons c rest ih =>
    obtain ⟨b, y⟩ := c
    rw [List.pairwise_cons] at h
    by_cases h1 : a < b
    · by_cases hx : x = Memory.unlisted
      · have : ∀ c ∈ ((b, y) :: rest : Memory), c.1 ≠ a := by
          intro c hc
          rcases List.mem_cons.1 hc with rfl | hc
          · exact Nat.ne_of_gt h1
          · exact Nat.ne_of_gt (Nat.lt_trans h1 (h.1 c hc))
        simp only [Memory.writeByte, Memory.put, h1, hx, if_true]
        exact Memory.readByte_of_not_listed this
      · simp [Memory.writeByte, Memory.put, h1, hx, Memory.readByte]
    · by_cases h2 : a = b
      · subst h2
        by_cases hx : x = Memory.unlisted
        · simp only [Memory.writeByte, Memory.put, hx, if_true, Nat.lt_irrefl, if_false]
          exact Memory.readByte_of_not_listed fun c hc => Nat.ne_of_gt (h.1 c hc)
        · simp [Memory.writeByte, Memory.put, hx, Memory.readByte]
      · simp only [Memory.writeByte, h1, h2, if_false, Memory.readByte, ih h.2]

/-- Every entry after a write is the written one or an old one. -/
theorem Memory.mem_writeByte {m : Memory} {a : Nat} {x : Byte} {c : Host.Cell}
    (h : c ∈ m.writeByte a x) : (c = (a, x) ∧ x ≠ Memory.unlisted) ∨ c ∈ m := by
  induction m with
  | nil =>
    by_cases hx : x = Memory.unlisted
    · simp [Memory.writeByte, Memory.put, hx] at h
    · exact .inl ⟨by simpa [Memory.writeByte, Memory.put, hx] using h, hx⟩
  | cons d rest ih =>
    obtain ⟨b, y⟩ := d
    have hput : ∀ tail : Memory, c ∈ Memory.put a x tail →
        (c = (a, x) ∧ x ≠ Memory.unlisted) ∨ c ∈ tail := by
      intro tail hc
      by_cases hx : x = Memory.unlisted
      · exact .inr (by simpa [Memory.put, hx] using hc)
      · simp only [Memory.put, hx, if_false, List.mem_cons] at hc
        exact hc.imp_left fun e => ⟨e, hx⟩
    by_cases h1 : a < b
    · simp only [Memory.writeByte, h1, if_true] at h
      exact hput _ h
    · by_cases h2 : a = b
      · simp only [Memory.writeByte, h2, Nat.lt_irrefl, if_false, if_true] at h
        exact (hput _ (h2 ▸ h)).imp_right fun e => List.mem_cons_of_mem _ e
      · simp only [Memory.writeByte, h1, h2, if_false, List.mem_cons] at h
        rcases h with rfl | h
        · simp
        · exact (ih h).imp_right fun e => List.mem_cons_of_mem _ e

/-- A byte write inside the buffer keeps the canonical form. -/
theorem Memory.wf_writeByte {m : Memory} {a : Nat} (x : Byte) (h : m.wf = true)
    (ha : a < 4 * Config.cap) : (m.writeByte a x).wf = true := by
  rw [Memory.wf_iff] at h ⊢
  refine ⟨?_, fun c hc => ?_⟩
  · have hs := h.1
    clear h
    induction m with
    | nil => by_cases hx : x = Memory.unlisted <;> simp [Memory.writeByte, Memory.put, hx]
    | cons d rest ih =>
      obtain ⟨b, y⟩ := d
      have hrest := (List.pairwise_cons.1 hs).1
      have hs' := (List.pairwise_cons.1 hs).2
      by_cases h1 : a < b
      · by_cases hx : x = Memory.unlisted
        · simpa [Memory.writeByte, Memory.put, h1, hx] using hs
        · simp only [Memory.writeByte, Memory.put, h1, hx, if_true, if_false]
          refine List.pairwise_cons.2 ⟨fun c hc => ?_, hs⟩
          rcases List.mem_cons.1 hc with rfl | hc
          · exact h1
          · exact Nat.lt_trans h1 (hrest c hc)
      · by_cases h2 : a = b
        · subst h2
          by_cases hx : x = Memory.unlisted
          · simpa [Memory.writeByte, Memory.put, hx] using hs'
          · simpa [Memory.writeByte, Memory.put, hx] using List.pairwise_cons.2 ⟨hrest, hs'⟩
        · simp only [Memory.writeByte, h1, h2, if_false]
          refine List.pairwise_cons.2 ⟨fun c hc => ?_, ih hs'⟩
          rcases Memory.mem_writeByte hc with ⟨rfl, -⟩ | hc
          · show b < a
            omega
          · exact hrest c hc
  · rcases Memory.mem_writeByte hc with ⟨rfl, hx⟩ | hc
    · exact ⟨ha, hx⟩
    · exact h.2 c hc

/-! ### One word -/

/-- Four bytes taken from a word make that word. -/
theorem wordOfBytes_extract (w : Word) :
    wordOfBytes (w.extractLsb' 0 8) (w.extractLsb' 8 8) (w.extractLsb' 16 8) (w.extractLsb' 24 8)
      = w := by
  simp only [wordOfBytes]
  rw [BitVec.extractLsb'_append_extractLsb'_eq_extractLsb' (by omega),
    BitVec.extractLsb'_append_extractLsb'_eq_extractLsb' (by omega),
    BitVec.extractLsb'_append_extractLsb'_eq_extractLsb' (by omega)]
  simp

/-- A word write leaves every byte outside the word alone, whatever the list. -/
theorem Memory.readByte_writeWord_outside (m : Memory) {i a : Nat} (w : Word)
    (h : a < 4 * i ∨ 4 * i + 4 ≤ a) : (m.writeWord i w).readByte a = m.readByte a := by
  unfold Memory.writeWord
  rw [Memory.readByte_writeByte_of_ne _ _ (by omega), Memory.readByte_writeByte_of_ne _ _ (by omega),
    Memory.readByte_writeByte_of_ne _ _ (by omega), Memory.readByte_writeByte_of_ne _ _ (by omega)]

/-- A word write leaves every other word alone, whatever the list. -/
theorem Memory.readWord_writeWord_of_ne (m : Memory) {i j : Nat} (w : Word) (h : j ≠ i) :
    (m.writeWord i w).readWord j = m.readWord j := by
  unfold Memory.readWord
  rw [Memory.readByte_writeWord_outside _ _ (by omega), Memory.readByte_writeWord_outside _ _ (by omega),
    Memory.readByte_writeWord_outside _ _ (by omega), Memory.readByte_writeWord_outside _ _ (by omega)]

/-- A word write inside the buffer keeps the canonical form. -/
theorem Memory.wf_writeWord {m : Memory} {i : Nat} (w : Word) (h : m.wf = true)
    (hi : i < Config.cap) : (m.writeWord i w).wf = true := by
  unfold Memory.writeWord
  exact Memory.wf_writeByte _ (Memory.wf_writeByte _ (Memory.wf_writeByte _
    (Memory.wf_writeByte _ h (by omega)) (by omega)) (by omega)) (by omega)

/-- Reading the word written gives the value written (R66). -/
theorem Memory.readWord_writeWord_same {m : Memory} {i : Nat} (w : Word) (h : m.wf = true)
    (hi : i < Config.cap) : (m.writeWord i w).readWord i = w := by
  have h0 := Memory.wf_writeByte (w.extractLsb' 0 8) h (a := 4 * i) (by omega)
  have h1 := Memory.wf_writeByte (w.extractLsb' 8 8) h0 (a := 4 * i + 1) (by omega)
  have h2 := Memory.wf_writeByte (w.extractLsb' 16 8) h1 (a := 4 * i + 2) (by omega)
  have b0 := Memory.readByte_writeByte_same (4 * i) (w.extractLsb' 0 8) ((Memory.wf_iff _).1 h).1
  have b1 := Memory.readByte_writeByte_same (4 * i + 1) (w.extractLsb' 8 8) ((Memory.wf_iff _).1 h0).1
  have b2 := Memory.readByte_writeByte_same (4 * i + 2) (w.extractLsb' 16 8) ((Memory.wf_iff _).1 h1).1
  have b3 := Memory.readByte_writeByte_same (4 * i + 3) (w.extractLsb' 24 8) ((Memory.wf_iff _).1 h2).1
  have e : ∀ (n : Memory) {a a' : Nat} (x : Byte), a' ≠ a →
      (n.writeByte a x).readByte a' = n.readByte a' := fun n {_ _} x h =>
    Memory.readByte_writeByte_of_ne n x h
  have c0 : (m.writeWord i w).readByte (4 * i) = w.extractLsb' 0 8 := by
    unfold Memory.writeWord
    rw [e _ _ (by omega), e _ _ (by omega), e _ _ (by omega), b0]
  have c1 : (m.writeWord i w).readByte (4 * i + 1) = w.extractLsb' 8 8 := by
    unfold Memory.writeWord
    rw [e _ _ (by omega), e _ _ (by omega), b1]
  have c2 : (m.writeWord i w).readByte (4 * i + 2) = w.extractLsb' 16 8 := by
    unfold Memory.writeWord
    rw [e _ _ (by omega), b2]
  unfold Memory.readWord
  rw [c0, c1, c2]
  show wordOfBytes _ _ _ ((m.writeWord i w).readByte (4 * i + 3)) = w
  rw [Memory.writeWord, b3]
  exact wordOfBytes_extract w

/-- After reset every word reads as `+0.0` (R31, R183). -/
@[simp] theorem Memory.readWord_nil (i : Nat) : Memory.readWord [] i = 0 := by
  simp [Memory.readWord, wordOfBytes, Memory.unlisted]

end Sys2Proof.Machine
end

