-- ==== Sys2Proof/Laws/Real.lean ====
section
/-!
SUPPORT. What the numeric primitives do, each said once: reading a packed REAL back, the NaN value, and
the range of every index (R10 to R21, R104).
-/

namespace Sys2Proof.Machine

/-! ### Patterns (R10) -/

theorem magBits_lt (x : Word) : magBits x < 2 ^ 31 := Nat.mod_lt _ (by decide)

theorem signBit_eq (x : Word) : signBit x = decide (2 ^ 31 ≤ x.toNat) := by
  simp [signBit, BitVec.msb_eq_decide]

/-- The magnitude field of a packed REAL is the one packed. -/
theorem magBits_packReal (neg : Bool) {mag : Nat} (h : mag < 2 ^ 31) :
    magBits (packReal neg mag) = mag := by
  cases neg <;> simp [magBits, packReal, BitVec.toNat_ofNat] <;> omega

/-- The sign of a packed REAL is the one packed. -/
theorem signBit_packReal (neg : Bool) {mag : Nat} (h : mag < 2 ^ 31) :
    signBit (packReal neg mag) = neg := by
  rw [signBit_eq]
  cases neg <;> simp [packReal, BitVec.toNat_ofNat] <;> omega

/-- A pattern is its sign and its magnitude field. -/
theorem packReal_eq (x : Word) : packReal (signBit x) (magBits x) = x := by
  rw [signBit_eq]
  apply BitVec.eq_of_toNat_eq
  have := x.isLt
  simp only [packReal, magBits, BitVec.toNat_ofNat, decide_eq_true_eq]
  split <;> omega

/-- Two patterns with the same sign and magnitude field are one. -/
theorem real_ext {x y : Word} (hs : signBit x = signBit y) (hm : magBits x = magBits y) : x = y := by
  rw [← packReal_eq x, ← packReal_eq y, hs, hm]

theorem xor_top {m c : Nat} (h : m < 2 ^ 31) (hc : c < 2) :
    (2 ^ 31 * c + m) ^^^ 2 ^ 31 = 2 ^ 31 * (1 - c) + m := by
  apply Nat.eq_of_testBit_eq
  intro j
  rw [Nat.testBit_xor, Nat.testBit_two_pow, Nat.testBit_two_pow_mul_add _ h,
    Nat.testBit_two_pow_mul_add _ h]
  by_cases hj : j < 31
  · have : ¬(31 = j) := by omega
    simp [hj, this]
  · have e : (31 = j) ↔ (0 = j - 31) := by omega
    have one_bit : Nat.testBit 1 (j - 31) = decide (0 = j - 31) := by
      simpa using Nat.testBit_two_pow (n := 0) (m := j - 31)
    obtain rfl | rfl : c = 0 ∨ c = 1 := by omega
    all_goals simp [hj, e, one_bit]

theorem toNat_fneg (x : Word) :
    (fneg x).toNat = if 2 ^ 31 ≤ x.toNat then x.toNat - 2 ^ 31 else x.toNat + 2 ^ 31 := by
  have hx := x.isLt
  have e : (fneg x).toNat = x.toNat ^^^ 2 ^ 31 := by simp [fneg]
  have h := xor_top (Nat.mod_lt x.toNat (by decide : 0 < 2 ^ 31)) (c := x.toNat / 2 ^ 31) (by omega)
  rw [Nat.div_add_mod] at h
  rw [e, h]
  split <;> omega

/-- Negation keeps the magnitude field (R11). -/
@[simp] theorem magBits_fneg (x : Word) : magBits (fneg x) = magBits x := by
  have := x.isLt
  simp only [magBits, toNat_fneg]
  split <;> omega

/-- Negation flips the sign bit (R11). -/
@[simp] theorem signBit_fneg (x : Word) : signBit (fneg x) = !signBit x := by
  have := x.isLt
  rw [signBit_eq, signBit_eq, toNat_fneg, ← decide_not]
  exact decide_eq_decide.2 (by split <;> omega)

@[simp] theorem isNaN_fneg (x : Word) : isNaN (fneg x) = isNaN x := by simp [isNaN]

/-! ### NaN (R19) -/

/-- The NaN value is a NaN. -/
@[simp] theorem isNaN_nan : isNaN Config.nan = true := by
  unfold Config.nan
  split
  · assumption
  · decide

/-- The pattern that a response shows for a NaN is a NaN. -/
@[simp] theorem isNaN_nanShown (n : Nat) : isNaN (Config.nanShown n) = true := by
  unfold Config.nanShown
  split
  · assumption
  · decide

/-- What a response shows of a REAL that is no NaN is its pattern. -/
theorem shownReal_of_not_nan {x : Word} (n : Nat) (h : isNaN x = false) : shownReal n x = x := by
  simp [shownReal, h]

/-- What a response shows of a REAL, in all cases (R19). -/
theorem showsReal_shownReal (n : Nat) (x : Word) : ShowsReal (shownReal n x) x := by
  by_cases h : isNaN x = true <;> simp [ShowsReal, shownReal, h]

/-- A NaN operand gives NaN (R11). -/
theorem fadd_of_nan {p q : Word} (h : isNaN p = true ∨ isNaN q = true) : fadd p q = Config.nan := by
  rcases h with h | h <;> simp [fadd, h]

theorem fmul_of_nan {p q : Word} (h : isNaN p = true ∨ isNaN q = true) : fmul p q = Config.nan := by
  rcases h with h | h <;> simp [fmul, h]

theorem fdiv_of_nan {p q : Word} (h : isNaN p = true ∨ isNaN q = true) : fdiv p q = Config.nan := by
  rcases h with h | h <;> simp [fdiv, h]

theorem fsub_of_nan {p q : Word} (h : isNaN p = true ∨ isNaN q = true) : fsub p q = Config.nan :=
  fadd_of_nan (by simpa using h)

/-! ### Finite results -/

/-- A rounded magnitude field is that of a finite REAL or of infinity. -/
theorem roundMag_le (n d : Nat) : roundMag n d ≤ infMag := Nat.min_le_right _ _

theorem roundMag_lt (n d : Nat) : roundMag n d < 2 ^ 31 :=
  Nat.lt_of_le_of_lt (roundMag_le n d) (by decide)

theorem roundMag_zero (d : Nat) : roundMag 0 d = 0 := by
  simp [roundMag, roundQuot]

/-- The sum of two finite REALs, by the exact sum. -/
theorem fadd_of_finite {p q : Word} (hp : isFinite p = true) (hq : isFinite q = true) :
    fadd p q =
      if value p + value q = 0 then packReal (signBit p && signBit q) 0
      else packReal (decide (value p + value q < 0)) (roundMag (value p + value q).natAbs 1) := by
  have hp' : magBits p < infMag := by simpa [isFinite] using hp
  have hq' : magBits q < infMag := by simpa [isFinite] using hq
  have a1 : isNaN p = false := by simp [isNaN]; omega
  have a2 : isNaN q = false := by simp [isNaN]; omega
  have a3 : isInf p = false := by simp [isInf]; omega
  have a4 : isInf q = false := by simp [isInf]; omega
  simp [fadd, a1, a2, a3, a4]

/-- The product of two finite REALs, by the exact product. -/
theorem fmul_of_finite {p q : Word} (hp : isFinite p = true) (hq : isFinite q = true) :
    fmul p q = packReal (signBit p != signBit q) (roundMag (units p * units q) (2 ^ 149)) := by
  have hp' : magBits p < infMag := by simpa [isFinite] using hp
  have hq' : magBits q < infMag := by simpa [isFinite] using hq
  have a1 : isNaN p = false := by simp [isNaN]; omega
  have a2 : isNaN q = false := by simp [isNaN]; omega
  have a3 : isInf p = false := by simp [isInf]; omega
  have a4 : isInf q = false := by simp [isInf]; omega
  simp [fmul, a1, a2, a3, a4]

/-- The quotient of two finite REALs with a divisor that is not zero, by the exact quotient. -/
theorem fdiv_of_finite {p q : Word} (hp : isFinite p = true) (hq : isFinite q = true)
    (h0 : isZero q = false) :
    fdiv p q = packReal (signBit p != signBit q) (roundMag (units p * 2 ^ 149) (units q)) := by
  have hp' : magBits p < infMag := by simpa [isFinite] using hp
  have hq' : magBits q < infMag := by simpa [isFinite] using hq
  have a1 : isNaN p = false := by simp [isNaN]; omega
  have a2 : isNaN q = false := by simp [isNaN]; omega
  have a3 : isInf p = false := by simp [isInf]; omega
  have a4 : isInf q = false := by simp [isInf]; omega
  simp [fdiv, a1, a2, a3, a4, h0]

/-! ### The one NaN value (R19) -/

theorem real_of_nan {x : Word} (h : isNaN x = true) : real x = Config.nan := by simp [real, h]

theorem real_of_not_nan {x : Word} (h : isNaN x = false) : real x = x := by simp [real, h]

@[simp] theorem real_real (x : Word) : real (real x) = real x := by
  by_cases h : isNaN x = true <;> simp [real, h]

@[simp] theorem isNaN_real (x : Word) : isNaN (real x) = isNaN x := by
  by_cases h : isNaN x = true <;> simp [real, h]

@[simp] theorem real_nan : real Config.nan = Config.nan := real_of_nan isNaN_nan

/-- All NaN patterns stand for one REAL. -/
theorem real_eq_of_nan {x y : Word} (hx : isNaN x = true) (hy : isNaN y = true) : real x = real y := by
  rw [real_of_nan hx, real_of_nan hy]

/-- An answer shows a REAL as it shows the pattern that stands for it. -/
@[simp] theorem shownReal_real (n : Nat) (x : Word) : shownReal n (real x) = shownReal n x := by
  by_cases h : isNaN x = true <;> simp [shownReal, real, h]

@[simp] theorem showsReal_real (r x : Word) : ShowsReal r (real x) ↔ ShowsReal r x := by
  by_cases h : isNaN x = true <;> simp [ShowsReal, real, h]

theorem isNaN_packReal (neg : Bool) {mag : Nat} (h : mag ≤ infMag) : isNaN (packReal neg mag) = false := by
  have : mag < 2 ^ 31 := Nat.lt_of_le_of_lt h (by decide)
  simp [isNaN, magBits_packReal neg this, h]

@[simp] theorem real_packReal_roundMag (neg : Bool) (n d : Nat) :
    real (packReal neg (roundMag n d)) = packReal neg (roundMag n d) :=
  real_of_not_nan (isNaN_packReal neg (roundMag_le n d))

@[simp] theorem real_packReal_zero (neg : Bool) : real (packReal neg 0) = packReal neg 0 :=
  real_of_not_nan (isNaN_packReal neg (by decide))

@[simp] theorem real_packReal_inf (neg : Bool) : real (packReal neg infMag) = packReal neg infMag :=
  real_of_not_nan (isNaN_packReal neg (Nat.le_refl _))

/-- A sum is a REAL: if it is NaN, it is the one NaN value. -/
@[simp] theorem real_fadd (p q : Word) : real (fadd p q) = fadd p q := by
  unfold fadd
  split
  · exact real_nan
  · next h =>
    simp only [Bool.or_eq_true, not_or, Bool.not_eq_true] at h
    split
    · split
      · exact real_nan
      · exact real_of_not_nan h.1
    · split
      · exact real_of_not_nan h.2
      · dsimp only
        split <;> simp

@[simp] theorem real_fsub (p q : Word) : real (fsub p q) = fsub p q := real_fadd _ _

@[simp] theorem real_fmul (p q : Word) : real (fmul p q) = fmul p q := by
  unfold fmul
  repeat' split
  all_goals simp

@[simp] theorem real_fdiv (p q : Word) : real (fdiv p q) = fdiv p q := by
  unfold fdiv
  repeat' split
  all_goals simp

/-- Arithmetic does not tell one NaN pattern from another. -/
@[simp] theorem fadd_real_left (p q : Word) : fadd (real p) q = fadd p q := by
  by_cases h : isNaN p = true
  · rw [fadd_of_nan (.inl h), fadd_of_nan (.inl (by simpa using h))]
  · rw [real_of_not_nan (by simpa using h)]

@[simp] theorem fadd_real_right (p q : Word) : fadd p (real q) = fadd p q := by
  by_cases h : isNaN q = true
  · rw [fadd_of_nan (.inr h), fadd_of_nan (.inr (by simpa using h))]
  · rw [real_of_not_nan (by simpa using h)]

@[simp] theorem fmul_real_left (p q : Word) : fmul (real p) q = fmul p q := by
  by_cases h : isNaN p = true
  · rw [fmul_of_nan (.inl h), fmul_of_nan (.inl (by simpa using h))]
  · rw [real_of_not_nan (by simpa using h)]

@[simp] theorem fmul_real_right (p q : Word) : fmul p (real q) = fmul p q := by
  by_cases h : isNaN q = true
  · rw [fmul_of_nan (.inr h), fmul_of_nan (.inr (by simpa using h))]
  · rw [real_of_not_nan (by simpa using h)]

/-- A function on REALs takes and gives REALs. -/
@[simp] theorem onReals_real (f : Word → Word) (x : Word) : onReals f (real x) = onReals f x := by
  simp [onReals]

@[simp] theorem real_onReals (f : Word → Word) (x : Word) : real (onReals f x) = onReals f x := by
  simp [onReals]

@[simp] theorem real_realExp (x : Word) : real (realExp x) = realExp x := real_onReals _ x

@[simp] theorem svfCoef_real_cut (k : FilterType) (srate cut q gain : Word) :
    svfCoef k srate (real cut) q gain = svfCoef k srate cut q gain := by simp [svfCoef]

@[simp] theorem svfCoef_real_q (k : FilterType) (srate cut q gain : Word) :
    svfCoef k srate cut (real q) gain = svfCoef k srate cut q gain := by simp [svfCoef]

@[simp] theorem svfTick_real (co : SvfCoef) (st : SvfState) (x : Word) :
    svfTick co st (real x) = svfTick co st x := by simp [svfTick]

@[simp] theorem real_svfTick (co : SvfCoef) (st : SvfState) (x : Word) :
    real (svfTick co st x).2 = (svfTick co st x).2 := by simp [svfTick]

/-- Zero, the constants and a positive finite strap are REALs. -/
theorem real_of_isPosFinite {x : Word} (h : isPosFinite x = true) : real x = x := by
  refine real_of_not_nan ?_
  have k : 0 < x.toNat ∧ x.toNat < infMag := by simpa [isPosFinite] using h
  have : magBits x ≤ x.toNat := Nat.mod_le _ _
  simp only [isNaN, decide_eq_false_iff_not]
  omega

theorem isPosFinite_fs : isPosFinite Config.fs = true := by
  unfold Config.fs
  split
  · assumption
  · decide

theorem isPosFinite_baseHz : isPosFinite Config.baseHz = true := by
  unfold Config.baseHz
  split
  · assumption
  · decide

/-- `SVF_GAIN` is a REAL. -/
@[simp] theorem real_svfGain : real Config.svfGain = Config.svfGain := real_real Config.svfGainStrap

/-! ### Indices (R20, R21, R104) -/

theorem cap_le_two_pow : Config.cap ≤ 2 ^ Config.idxw := by decide

/-- An index below `CAP` is kept by an index register (R20). -/
theorem toNat_index {n : Nat} (h : n < Config.cap) : (BitVec.ofNat Config.idxw n).toNat = n := by
  rw [BitVec.toNat_ofNat]
  exact Nat.mod_eq_of_lt (Nat.lt_of_lt_of_le h cap_le_two_pow)

/-- `UNSPEC_AMT` is an index below `CAP` (R104). -/
theorem unspecAmt_lt (n v : Nat) : (Config.unspecAmt n v).toNat < Config.cap := by
  have : Config.amountDraw n v % Config.cap < Config.cap := Nat.mod_lt _ (by decide)
  rw [Config.unspecAmt, toNat_index this]
  exact this

/-- The write index advances modulo `CAP` (R101). -/
theorem toNat_advance (wp : BitVec Config.idxw) :
    (advance wp).toNat = (wp.toNat + 1) % Config.cap :=
  toNat_index (Nat.mod_lt _ (by decide))

theorem advance_lt (wp : BitVec Config.idxw) : (advance wp).toNat < Config.cap := by
  rw [toNat_advance]
  exact Nat.mod_lt _ (by decide)

/-- A read index names a word of the buffer (R65). -/
theorem readIndex_lt (wp amt : BitVec Config.idxw) : readIndex wp amt < Config.cap :=
  Nat.mod_lt _ (by decide)

/-- A clamped lag is an index below `CAP`, if the draw is. -/
theorem clampAmount_lt {u : BitVec Config.idxw} (hu : u.toNat < Config.cap) (r : RoundedInt) :
    (clampAmount u r).toNat < Config.cap := by
  have hc : (BitVec.ofNat Config.idxw (Config.cap - 1)).toNat < Config.cap := by decide
  cases r with
  | none => exact hu
  | negInf => exact hu
  | posInf => exact hc
  | int z =>
    simp only [clampAmount]
    split
    · exact hc
    · rw [toNat_index (by omega)]
      omega

/-- A tuned lag is an index below `CAP`, if the draw is (R35). -/
theorem tunedAmount_lt (ties : RoundTies) {u : BitVec Config.idxw} (hu : u.toNat < Config.cap)
    (f rate : Word) : (tunedAmount ties u f rate).toNat < Config.cap := by
  unfold tunedAmount
  split
  · exact hu
  · split
    · decide
    · exact clampAmount_lt hu _

end Sys2Proof.Machine
end

