-- ==== Sys2Proof/Laws/State.lean ====
section
/-!
SUPPORT. One lemma for each field and each named update of the state, so that no later proof unfolds a
record update; the voice of an updated state; and the equality of states field by field.
-/

namespace Sys2Proof.Machine

variable (s : State)

/-! ### `setVoice` -/

@[simp] theorem State.setVoice_pDry (v : Fin Config.nv) (c : Voice) : (s.setVoice v c).pDry = s.pDry := rfl
@[simp] theorem State.setVoice_pWet (v : Fin Config.nv) (c : Voice) : (s.setVoice v c).pWet = s.pWet := rfl
@[simp] theorem State.setVoice_pLrate (v : Fin Config.nv) (c : Voice) : (s.setVoice v c).pLrate = s.pLrate := rfl
@[simp] theorem State.setVoice_pLdepth (v : Fin Config.nv) (c : Voice) : (s.setVoice v c).pLdepth = s.pLdepth := rfl
@[simp] theorem State.setVoice_pBase (v : Fin Config.nv) (c : Voice) : (s.setVoice v c).pBase = s.pBase := rfl
@[simp] theorem State.setVoice_status (v : Fin Config.nv) (c : Voice) : (s.setVoice v c).status = s.status := rfl
@[simp] theorem State.setVoice_lfoPhase (v : Fin Config.nv) (c : Voice) : (s.setVoice v c).lfoPhase = s.lfoPhase := rfl
@[simp] theorem State.setVoice_lfoRate (v : Fin Config.nv) (c : Voice) : (s.setVoice v c).lfoRate = s.lfoRate := rfl
@[simp] theorem State.setVoice_lfoAmt (v : Fin Config.nv) (c : Voice) : (s.setVoice v c).lfoAmt = s.lfoAmt := rfl
@[simp] theorem State.setVoice_eDry (v : Fin Config.nv) (c : Voice) : (s.setVoice v c).eDry = s.eDry := rfl
@[simp] theorem State.setVoice_voices (v : Fin Config.nv) (c : Voice) : (s.setVoice v c).voices = s.voices.set v.val c := rfl
@[simp] theorem State.setVoice_cmdIn (v : Fin Config.nv) (c : Voice) : (s.setVoice v c).cmdIn = s.cmdIn := rfl
@[simp] theorem State.setVoice_resp (v : Fin Config.nv) (c : Voice) : (s.setVoice v c).resp = s.resp := rfl
@[simp] theorem State.setVoice_serial (v : Fin Config.nv) (c : Voice) : (s.setVoice v c).serial = s.serial := rfl

/-! ### `respond` -/

@[simp] theorem State.respond_pDry (e : Bool) (r : Word) : (s.respond e r).pDry = s.pDry := rfl
@[simp] theorem State.respond_pWet (e : Bool) (r : Word) : (s.respond e r).pWet = s.pWet := rfl
@[simp] theorem State.respond_pLrate (e : Bool) (r : Word) : (s.respond e r).pLrate = s.pLrate := rfl
@[simp] theorem State.respond_pLdepth (e : Bool) (r : Word) : (s.respond e r).pLdepth = s.pLdepth := rfl
@[simp] theorem State.respond_pBase (e : Bool) (r : Word) : (s.respond e r).pBase = s.pBase := rfl
@[simp] theorem State.respond_status (e : Bool) (r : Word) : (s.respond e r).status = s.status := rfl
@[simp] theorem State.respond_lfoPhase (e : Bool) (r : Word) : (s.respond e r).lfoPhase = s.lfoPhase := rfl
@[simp] theorem State.respond_lfoRate (e : Bool) (r : Word) : (s.respond e r).lfoRate = s.lfoRate := rfl
@[simp] theorem State.respond_lfoAmt (e : Bool) (r : Word) : (s.respond e r).lfoAmt = s.lfoAmt := rfl
@[simp] theorem State.respond_eDry (e : Bool) (r : Word) : (s.respond e r).eDry = s.eDry := rfl
@[simp] theorem State.respond_voices (e : Bool) (r : Word) : (s.respond e r).voices = s.voices := rfl
@[simp] theorem State.respond_cmdIn (e : Bool) (r : Word) : (s.respond e r).cmdIn = s.cmdIn := rfl
@[simp] theorem State.respond_resp (e : Bool) (r : Word) : (s.respond e r).resp = some ⟨e, r⟩ := rfl
@[simp] theorem State.respond_serial (e : Bool) (r : Word) : (s.respond e r).serial = s.serial := rfl
@[simp] theorem State.respond_voice (e : Bool) (r : Word) (u : Fin Config.nv) : (s.respond e r).voice u = s.voice u := rfl

/-! ### `finish` -/

@[simp] theorem State.finish_pDry (r : Word) : (s.finish r).pDry = s.pDry := rfl
@[simp] theorem State.finish_pWet (r : Word) : (s.finish r).pWet = s.pWet := rfl
@[simp] theorem State.finish_pLrate (r : Word) : (s.finish r).pLrate = s.pLrate := rfl
@[simp] theorem State.finish_pLdepth (r : Word) : (s.finish r).pLdepth = s.pLdepth := rfl
@[simp] theorem State.finish_pBase (r : Word) : (s.finish r).pBase = s.pBase := rfl
@[simp] theorem State.finish_status (r : Word) : (s.finish r).status = s.status := rfl
@[simp] theorem State.finish_lfoPhase (r : Word) : (s.finish r).lfoPhase = s.lfoPhase := rfl
@[simp] theorem State.finish_lfoRate (r : Word) : (s.finish r).lfoRate = s.lfoRate := rfl
@[simp] theorem State.finish_lfoAmt (r : Word) : (s.finish r).lfoAmt = s.lfoAmt := rfl
@[simp] theorem State.finish_eDry (r : Word) : (s.finish r).eDry = s.eDry := rfl
@[simp] theorem State.finish_voices (r : Word) : (s.finish r).voices = s.voices := rfl
@[simp] theorem State.finish_cmdIn (r : Word) : (s.finish r).cmdIn = s.cmdIn := rfl
@[simp] theorem State.finish_resp (r : Word) : (s.finish r).resp = some ⟨false, r⟩ := rfl
@[simp] theorem State.finish_serial (r : Word) : (s.finish r).serial = s.serial + 1 := rfl
@[simp] theorem State.finish_voice (r : Word) (u : Fin Config.nv) : (s.finish r).voice u = s.voice u := rfl

/-! ### `finishReal` -/

@[simp] theorem State.finishReal_pDry (x : Word) : (s.finishReal x).pDry = s.pDry := rfl
@[simp] theorem State.finishReal_pWet (x : Word) : (s.finishReal x).pWet = s.pWet := rfl
@[simp] theorem State.finishReal_pLrate (x : Word) : (s.finishReal x).pLrate = s.pLrate := rfl
@[simp] theorem State.finishReal_pLdepth (x : Word) : (s.finishReal x).pLdepth = s.pLdepth := rfl
@[simp] theorem State.finishReal_pBase (x : Word) : (s.finishReal x).pBase = s.pBase := rfl
@[simp] theorem State.finishReal_status (x : Word) : (s.finishReal x).status = s.status := rfl
@[simp] theorem State.finishReal_lfoPhase (x : Word) : (s.finishReal x).lfoPhase = s.lfoPhase := rfl
@[simp] theorem State.finishReal_lfoRate (x : Word) : (s.finishReal x).lfoRate = s.lfoRate := rfl
@[simp] theorem State.finishReal_lfoAmt (x : Word) : (s.finishReal x).lfoAmt = s.lfoAmt := rfl
@[simp] theorem State.finishReal_eDry (x : Word) : (s.finishReal x).eDry = s.eDry := rfl
@[simp] theorem State.finishReal_voices (x : Word) : (s.finishReal x).voices = s.voices := rfl
@[simp] theorem State.finishReal_cmdIn (x : Word) : (s.finishReal x).cmdIn = s.cmdIn := rfl
@[simp] theorem State.finishReal_resp (x : Word) : (s.finishReal x).resp = some ⟨false, shownReal s.serial x⟩ := rfl
@[simp] theorem State.finishReal_serial (x : Word) : (s.finishReal x).serial = s.serial + 1 := rfl
@[simp] theorem State.finishReal_voice (x : Word) (u : Fin Config.nv) : (s.finishReal x).voice u = s.voice u := rfl

/-! ### `reject` -/

@[simp] theorem State.reject_pDry : (s.reject).pDry = s.pDry := rfl
@[simp] theorem State.reject_pWet : (s.reject).pWet = s.pWet := rfl
@[simp] theorem State.reject_pLrate : (s.reject).pLrate = s.pLrate := rfl
@[simp] theorem State.reject_pLdepth : (s.reject).pLdepth = s.pLdepth := rfl
@[simp] theorem State.reject_pBase : (s.reject).pBase = s.pBase := rfl
@[simp] theorem State.reject_status : (s.reject).status = s.status := rfl
@[simp] theorem State.reject_lfoPhase : (s.reject).lfoPhase = s.lfoPhase := rfl
@[simp] theorem State.reject_lfoRate : (s.reject).lfoRate = s.lfoRate := rfl
@[simp] theorem State.reject_lfoAmt : (s.reject).lfoAmt = s.lfoAmt := rfl
@[simp] theorem State.reject_eDry : (s.reject).eDry = s.eDry := rfl
@[simp] theorem State.reject_voices : (s.reject).voices = s.voices := rfl
@[simp] theorem State.reject_cmdIn : (s.reject).cmdIn = s.cmdIn := rfl
@[simp] theorem State.reject_resp : (s.reject).resp = some ⟨true, 0⟩ := rfl
@[simp] theorem State.reject_serial : (s.reject).serial = s.serial := rfl
@[simp] theorem State.reject_voice (u : Fin Config.nv) : (s.reject).voice u = s.voice u := rfl

/-! ### `takePacket` -/

@[simp] theorem State.takePacket_pDry : (s.takePacket).pDry = s.pDry := rfl
@[simp] theorem State.takePacket_pWet : (s.takePacket).pWet = s.pWet := rfl
@[simp] theorem State.takePacket_pLrate : (s.takePacket).pLrate = s.pLrate := rfl
@[simp] theorem State.takePacket_pLdepth : (s.takePacket).pLdepth = s.pLdepth := rfl
@[simp] theorem State.takePacket_pBase : (s.takePacket).pBase = s.pBase := rfl
@[simp] theorem State.takePacket_status : (s.takePacket).status = s.status := rfl
@[simp] theorem State.takePacket_lfoPhase : (s.takePacket).lfoPhase = s.lfoPhase := rfl
@[simp] theorem State.takePacket_lfoRate : (s.takePacket).lfoRate = s.lfoRate := rfl
@[simp] theorem State.takePacket_lfoAmt : (s.takePacket).lfoAmt = s.lfoAmt := rfl
@[simp] theorem State.takePacket_eDry : (s.takePacket).eDry = s.eDry := rfl
@[simp] theorem State.takePacket_voices : (s.takePacket).voices = s.voices := rfl
@[simp] theorem State.takePacket_cmdIn : (s.takePacket).cmdIn = s.cmdIn.tail := rfl
@[simp] theorem State.takePacket_resp : (s.takePacket).resp = s.resp := rfl
@[simp] theorem State.takePacket_serial : (s.takePacket).serial = s.serial := rfl
@[simp] theorem State.takePacket_voice (u : Fin Config.nv) : (s.takePacket).voice u = s.voice u := rfl

/-! ### `presentNext` -/

@[simp] theorem State.presentNext_pDry (p : Packet) : (s.presentNext p).pDry = s.pDry := rfl
@[simp] theorem State.presentNext_pWet (p : Packet) : (s.presentNext p).pWet = s.pWet := rfl
@[simp] theorem State.presentNext_pLrate (p : Packet) : (s.presentNext p).pLrate = s.pLrate := rfl
@[simp] theorem State.presentNext_pLdepth (p : Packet) : (s.presentNext p).pLdepth = s.pLdepth := rfl
@[simp] theorem State.presentNext_pBase (p : Packet) : (s.presentNext p).pBase = s.pBase := rfl
@[simp] theorem State.presentNext_status (p : Packet) : (s.presentNext p).status = s.status := rfl
@[simp] theorem State.presentNext_lfoPhase (p : Packet) : (s.presentNext p).lfoPhase = s.lfoPhase := rfl
@[simp] theorem State.presentNext_lfoRate (p : Packet) : (s.presentNext p).lfoRate = s.lfoRate := rfl
@[simp] theorem State.presentNext_lfoAmt (p : Packet) : (s.presentNext p).lfoAmt = s.lfoAmt := rfl
@[simp] theorem State.presentNext_eDry (p : Packet) : (s.presentNext p).eDry = s.eDry := rfl
@[simp] theorem State.presentNext_voices (p : Packet) : (s.presentNext p).voices = s.voices := rfl
@[simp] theorem State.presentNext_cmdIn (p : Packet) : (s.presentNext p).cmdIn = p :: s.cmdIn := rfl
@[simp] theorem State.presentNext_resp (p : Packet) : (s.presentNext p).resp = s.resp := rfl
@[simp] theorem State.presentNext_serial (p : Packet) : (s.presentNext p).serial = s.serial := rfl
@[simp] theorem State.presentNext_voice (p : Packet) (u : Fin Config.nv) : (s.presentNext p).voice u = s.voice u := rfl

/-! ### `lsetf` -/

@[simp] theorem State.lsetf_pDry (f : Word) : (s.lsetf f).pDry = s.pDry := rfl
@[simp] theorem State.lsetf_pWet (f : Word) : (s.lsetf f).pWet = s.pWet := rfl
@[simp] theorem State.lsetf_pLrate (f : Word) : (s.lsetf f).pLrate = s.pLrate := rfl
@[simp] theorem State.lsetf_pLdepth (f : Word) : (s.lsetf f).pLdepth = s.pLdepth := rfl
@[simp] theorem State.lsetf_pBase (f : Word) : (s.lsetf f).pBase = s.pBase := rfl
@[simp] theorem State.lsetf_status (f : Word) : (s.lsetf f).status = s.status := rfl
@[simp] theorem State.lsetf_lfoPhase (f : Word) : (s.lsetf f).lfoPhase = s.lfoPhase := rfl
@[simp] theorem State.lsetf_lfoRate (f : Word) : (s.lsetf f).lfoRate = f := rfl
@[simp] theorem State.lsetf_lfoAmt (f : Word) : (s.lsetf f).lfoAmt = s.lfoAmt := rfl
@[simp] theorem State.lsetf_eDry (f : Word) : (s.lsetf f).eDry = s.eDry := rfl
@[simp] theorem State.lsetf_voices (f : Word) : (s.lsetf f).voices = s.voices := rfl
@[simp] theorem State.lsetf_cmdIn (f : Word) : (s.lsetf f).cmdIn = s.cmdIn := rfl
@[simp] theorem State.lsetf_resp (f : Word) : (s.lsetf f).resp = s.resp := rfl
@[simp] theorem State.lsetf_serial (f : Word) : (s.lsetf f).serial = s.serial := rfl
@[simp] theorem State.lsetf_voice (f : Word) (u : Fin Config.nv) : (s.lsetf f).voice u = s.voice u := rfl

/-! ### `lseta` -/

@[simp] theorem State.lseta_pDry (m : Word) : (s.lseta m).pDry = s.pDry := rfl
@[simp] theorem State.lseta_pWet (m : Word) : (s.lseta m).pWet = s.pWet := rfl
@[simp] theorem State.lseta_pLrate (m : Word) : (s.lseta m).pLrate = s.pLrate := rfl
@[simp] theorem State.lseta_pLdepth (m : Word) : (s.lseta m).pLdepth = s.pLdepth := rfl
@[simp] theorem State.lseta_pBase (m : Word) : (s.lseta m).pBase = s.pBase := rfl
@[simp] theorem State.lseta_status (m : Word) : (s.lseta m).status = s.status := rfl
@[simp] theorem State.lseta_lfoPhase (m : Word) : (s.lseta m).lfoPhase = s.lfoPhase := rfl
@[simp] theorem State.lseta_lfoRate (m : Word) : (s.lseta m).lfoRate = s.lfoRate := rfl
@[simp] theorem State.lseta_lfoAmt (m : Word) : (s.lseta m).lfoAmt = m := rfl
@[simp] theorem State.lseta_eDry (m : Word) : (s.lseta m).eDry = s.eDry := rfl
@[simp] theorem State.lseta_voices (m : Word) : (s.lseta m).voices = s.voices := rfl
@[simp] theorem State.lseta_cmdIn (m : Word) : (s.lseta m).cmdIn = s.cmdIn := rfl
@[simp] theorem State.lseta_resp (m : Word) : (s.lseta m).resp = s.resp := rfl
@[simp] theorem State.lseta_serial (m : Word) : (s.lseta m).serial = s.serial := rfl
@[simp] theorem State.lseta_voice (m : Word) (u : Fin Config.nv) : (s.lseta m).voice u = s.voice u := rfl

/-! ### `lnext` -/

@[simp] theorem State.lnext_pDry : (s.lnext.1).pDry = s.pDry := rfl
@[simp] theorem State.lnext_pWet : (s.lnext.1).pWet = s.pWet := rfl
@[simp] theorem State.lnext_pLrate : (s.lnext.1).pLrate = s.pLrate := rfl
@[simp] theorem State.lnext_pLdepth : (s.lnext.1).pLdepth = s.pLdepth := rfl
@[simp] theorem State.lnext_pBase : (s.lnext.1).pBase = s.pBase := rfl
@[simp] theorem State.lnext_status : (s.lnext.1).status = s.status := rfl
@[simp] theorem State.lnext_lfoPhase : (s.lnext.1).lfoPhase = fadd s.lfoPhase s.lfoRate := rfl
@[simp] theorem State.lnext_lfoRate : (s.lnext.1).lfoRate = s.lfoRate := rfl
@[simp] theorem State.lnext_lfoAmt : (s.lnext.1).lfoAmt = s.lfoAmt := rfl
@[simp] theorem State.lnext_eDry : (s.lnext.1).eDry = s.eDry := rfl
@[simp] theorem State.lnext_voices : (s.lnext.1).voices = s.voices := rfl
@[simp] theorem State.lnext_cmdIn : (s.lnext.1).cmdIn = s.cmdIn := rfl
@[simp] theorem State.lnext_resp : (s.lnext.1).resp = s.resp := rfl
@[simp] theorem State.lnext_serial : (s.lnext.1).serial = s.serial := rfl
@[simp] theorem State.lnext_voice (u : Fin Config.nv) : (s.lnext.1).voice u = s.voice u := rfl

/-! ### `push` -/

@[simp] theorem State.push_pDry (v : Fin Config.nv) (x : Word) : (s.push v x).pDry = s.pDry := rfl
@[simp] theorem State.push_pWet (v : Fin Config.nv) (x : Word) : (s.push v x).pWet = s.pWet := rfl
@[simp] theorem State.push_pLrate (v : Fin Config.nv) (x : Word) : (s.push v x).pLrate = s.pLrate := rfl
@[simp] theorem State.push_pLdepth (v : Fin Config.nv) (x : Word) : (s.push v x).pLdepth = s.pLdepth := rfl
@[simp] theorem State.push_pBase (v : Fin Config.nv) (x : Word) : (s.push v x).pBase = s.pBase := rfl
@[simp] theorem State.push_status (v : Fin Config.nv) (x : Word) : (s.push v x).status = s.status := rfl
@[simp] theorem State.push_lfoPhase (v : Fin Config.nv) (x : Word) : (s.push v x).lfoPhase = s.lfoPhase := rfl
@[simp] theorem State.push_lfoRate (v : Fin Config.nv) (x : Word) : (s.push v x).lfoRate = s.lfoRate := rfl
@[simp] theorem State.push_lfoAmt (v : Fin Config.nv) (x : Word) : (s.push v x).lfoAmt = s.lfoAmt := rfl
@[simp] theorem State.push_eDry (v : Fin Config.nv) (x : Word) : (s.push v x).eDry = s.eDry := rfl
@[simp] theorem State.push_cmdIn (v : Fin Config.nv) (x : Word) : (s.push v x).cmdIn = s.cmdIn := rfl
@[simp] theorem State.push_resp (v : Fin Config.nv) (x : Word) : (s.push v x).resp = s.resp := rfl
@[simp] theorem State.push_serial (v : Fin Config.nv) (x : Word) : (s.push v x).serial = s.serial := rfl

/-! ### `pop` -/

@[simp] theorem State.pop_pDry (v : Fin Config.nv) : ((s.pop v).1).pDry = s.pDry := rfl
@[simp] theorem State.pop_pWet (v : Fin Config.nv) : ((s.pop v).1).pWet = s.pWet := rfl
@[simp] theorem State.pop_pLrate (v : Fin Config.nv) : ((s.pop v).1).pLrate = s.pLrate := rfl
@[simp] theorem State.pop_pLdepth (v : Fin Config.nv) : ((s.pop v).1).pLdepth = s.pLdepth := rfl
@[simp] theorem State.pop_pBase (v : Fin Config.nv) : ((s.pop v).1).pBase = s.pBase := rfl
@[simp] theorem State.pop_status (v : Fin Config.nv) : ((s.pop v).1).status = s.status := rfl
@[simp] theorem State.pop_lfoPhase (v : Fin Config.nv) : ((s.pop v).1).lfoPhase = s.lfoPhase := rfl
@[simp] theorem State.pop_lfoRate (v : Fin Config.nv) : ((s.pop v).1).lfoRate = s.lfoRate := rfl
@[simp] theorem State.pop_lfoAmt (v : Fin Config.nv) : ((s.pop v).1).lfoAmt = s.lfoAmt := rfl
@[simp] theorem State.pop_eDry (v : Fin Config.nv) : ((s.pop v).1).eDry = s.eDry := rfl
@[simp] theorem State.pop_cmdIn (v : Fin Config.nv) : ((s.pop v).1).cmdIn = s.cmdIn := rfl
@[simp] theorem State.pop_resp (v : Fin Config.nv) : ((s.pop v).1).resp = s.resp := rfl
@[simp] theorem State.pop_serial (v : Fin Config.nv) : ((s.pop v).1).serial = s.serial := rfl

/-! ### `setf` -/

@[simp] theorem State.setf_pDry (v : Fin Config.nv) (f rate : Word) : (s.setf v f rate).pDry = s.pDry := rfl
@[simp] theorem State.setf_pWet (v : Fin Config.nv) (f rate : Word) : (s.setf v f rate).pWet = s.pWet := rfl
@[simp] theorem State.setf_pLrate (v : Fin Config.nv) (f rate : Word) : (s.setf v f rate).pLrate = s.pLrate := rfl
@[simp] theorem State.setf_pLdepth (v : Fin Config.nv) (f rate : Word) : (s.setf v f rate).pLdepth = s.pLdepth := rfl
@[simp] theorem State.setf_pBase (v : Fin Config.nv) (f rate : Word) : (s.setf v f rate).pBase = s.pBase := rfl
@[simp] theorem State.setf_status (v : Fin Config.nv) (f rate : Word) : (s.setf v f rate).status = s.status := rfl
@[simp] theorem State.setf_lfoPhase (v : Fin Config.nv) (f rate : Word) : (s.setf v f rate).lfoPhase = s.lfoPhase := rfl
@[simp] theorem State.setf_lfoRate (v : Fin Config.nv) (f rate : Word) : (s.setf v f rate).lfoRate = s.lfoRate := rfl
@[simp] theorem State.setf_lfoAmt (v : Fin Config.nv) (f rate : Word) : (s.setf v f rate).lfoAmt = s.lfoAmt := rfl
@[simp] theorem State.setf_eDry (v : Fin Config.nv) (f rate : Word) : (s.setf v f rate).eDry = s.eDry := rfl
@[simp] theorem State.setf_cmdIn (v : Fin Config.nv) (f rate : Word) : (s.setf v f rate).cmdIn = s.cmdIn := rfl
@[simp] theorem State.setf_resp (v : Fin Config.nv) (f rate : Word) : (s.setf v f rate).resp = s.resp := rfl
@[simp] theorem State.setf_serial (v : Fin Config.nv) (f rate : Word) : (s.setf v f rate).serial = s.serial := rfl

/-! ### `tick` -/

@[simp] theorem State.tick_pDry (v : Fin Config.nv) (x : Word) : ((s.tick v x).1).pDry = s.pDry := rfl
@[simp] theorem State.tick_pWet (v : Fin Config.nv) (x : Word) : ((s.tick v x).1).pWet = s.pWet := rfl
@[simp] theorem State.tick_pLrate (v : Fin Config.nv) (x : Word) : ((s.tick v x).1).pLrate = s.pLrate := rfl
@[simp] theorem State.tick_pLdepth (v : Fin Config.nv) (x : Word) : ((s.tick v x).1).pLdepth = s.pLdepth := rfl
@[simp] theorem State.tick_pBase (v : Fin Config.nv) (x : Word) : ((s.tick v x).1).pBase = s.pBase := rfl
@[simp] theorem State.tick_status (v : Fin Config.nv) (x : Word) : ((s.tick v x).1).status = s.status := rfl
@[simp] theorem State.tick_lfoPhase (v : Fin Config.nv) (x : Word) : ((s.tick v x).1).lfoPhase = s.lfoPhase := rfl
@[simp] theorem State.tick_lfoRate (v : Fin Config.nv) (x : Word) : ((s.tick v x).1).lfoRate = s.lfoRate := rfl
@[simp] theorem State.tick_lfoAmt (v : Fin Config.nv) (x : Word) : ((s.tick v x).1).lfoAmt = s.lfoAmt := rfl
@[simp] theorem State.tick_eDry (v : Fin Config.nv) (x : Word) : ((s.tick v x).1).eDry = s.eDry := rfl
@[simp] theorem State.tick_cmdIn (v : Fin Config.nv) (x : Word) : ((s.tick v x).1).cmdIn = s.cmdIn := rfl
@[simp] theorem State.tick_resp (v : Fin Config.nv) (x : Word) : ((s.tick v x).1).resp = s.resp := rfl
@[simp] theorem State.tick_serial (v : Fin Config.nv) (x : Word) : ((s.tick v x).1).serial = s.serial := rfl

/-! ### `storeSetting` -/

@[simp] theorem State.storeSetting_pDry (v : Fin Config.nv) (r : Filter × Bool) : (s.storeSetting v r).pDry = s.pDry := rfl
@[simp] theorem State.storeSetting_pWet (v : Fin Config.nv) (r : Filter × Bool) : (s.storeSetting v r).pWet = s.pWet := rfl
@[simp] theorem State.storeSetting_pLrate (v : Fin Config.nv) (r : Filter × Bool) : (s.storeSetting v r).pLrate = s.pLrate := rfl
@[simp] theorem State.storeSetting_pLdepth (v : Fin Config.nv) (r : Filter × Bool) : (s.storeSetting v r).pLdepth = s.pLdepth := rfl
@[simp] theorem State.storeSetting_pBase (v : Fin Config.nv) (r : Filter × Bool) : (s.storeSetting v r).pBase = s.pBase := rfl
@[simp] theorem State.storeSetting_status (v : Fin Config.nv) (r : Filter × Bool) : (s.storeSetting v r).status = recordCoefErr r.2 v s.status := rfl
@[simp] theorem State.storeSetting_lfoPhase (v : Fin Config.nv) (r : Filter × Bool) : (s.storeSetting v r).lfoPhase = s.lfoPhase := rfl
@[simp] theorem State.storeSetting_lfoRate (v : Fin Config.nv) (r : Filter × Bool) : (s.storeSetting v r).lfoRate = s.lfoRate := rfl
@[simp] theorem State.storeSetting_lfoAmt (v : Fin Config.nv) (r : Filter × Bool) : (s.storeSetting v r).lfoAmt = s.lfoAmt := rfl
@[simp] theorem State.storeSetting_eDry (v : Fin Config.nv) (r : Filter × Bool) : (s.storeSetting v r).eDry = s.eDry := rfl
@[simp] theorem State.storeSetting_cmdIn (v : Fin Config.nv) (r : Filter × Bool) : (s.storeSetting v r).cmdIn = s.cmdIn := rfl
@[simp] theorem State.storeSetting_resp (v : Fin Config.nv) (r : Filter × Bool) : (s.storeSetting v r).resp = s.resp := rfl
@[simp] theorem State.storeSetting_serial (v : Fin Config.nv) (r : Filter × Bool) : (s.storeSetting v r).serial = s.serial := rfl

/-! ### `setc` -/

@[simp] theorem State.setc_pDry (v : Fin Config.nv) (c : Word) : (s.setc v c).pDry = s.pDry := rfl
@[simp] theorem State.setc_pWet (v : Fin Config.nv) (c : Word) : (s.setc v c).pWet = s.pWet := rfl
@[simp] theorem State.setc_pLrate (v : Fin Config.nv) (c : Word) : (s.setc v c).pLrate = s.pLrate := rfl
@[simp] theorem State.setc_pLdepth (v : Fin Config.nv) (c : Word) : (s.setc v c).pLdepth = s.pLdepth := rfl
@[simp] theorem State.setc_pBase (v : Fin Config.nv) (c : Word) : (s.setc v c).pBase = s.pBase := rfl
@[simp] theorem State.setc_status (v : Fin Config.nv) (c : Word) : (s.setc v c).status = recordCoefErr ((s.voice v).filter.setCutoff c).2 v s.status := rfl
@[simp] theorem State.setc_lfoPhase (v : Fin Config.nv) (c : Word) : (s.setc v c).lfoPhase = s.lfoPhase := rfl
@[simp] theorem State.setc_lfoRate (v : Fin Config.nv) (c : Word) : (s.setc v c).lfoRate = s.lfoRate := rfl
@[simp] theorem State.setc_lfoAmt (v : Fin Config.nv) (c : Word) : (s.setc v c).lfoAmt = s.lfoAmt := rfl
@[simp] theorem State.setc_eDry (v : Fin Config.nv) (c : Word) : (s.setc v c).eDry = s.eDry := rfl
@[simp] theorem State.setc_cmdIn (v : Fin Config.nv) (c : Word) : (s.setc v c).cmdIn = s.cmdIn := rfl
@[simp] theorem State.setc_resp (v : Fin Config.nv) (c : Word) : (s.setc v c).resp = s.resp := rfl
@[simp] theorem State.setc_serial (v : Fin Config.nv) (c : Word) : (s.setc v c).serial = s.serial := rfl

/-! ### `setq` -/

@[simp] theorem State.setq_pDry (v : Fin Config.nv) (q : Word) : (s.setq v q).pDry = s.pDry := rfl
@[simp] theorem State.setq_pWet (v : Fin Config.nv) (q : Word) : (s.setq v q).pWet = s.pWet := rfl
@[simp] theorem State.setq_pLrate (v : Fin Config.nv) (q : Word) : (s.setq v q).pLrate = s.pLrate := rfl
@[simp] theorem State.setq_pLdepth (v : Fin Config.nv) (q : Word) : (s.setq v q).pLdepth = s.pLdepth := rfl
@[simp] theorem State.setq_pBase (v : Fin Config.nv) (q : Word) : (s.setq v q).pBase = s.pBase := rfl
@[simp] theorem State.setq_status (v : Fin Config.nv) (q : Word) : (s.setq v q).status = recordCoefErr ((s.voice v).filter.setQ q).2 v s.status := rfl
@[simp] theorem State.setq_lfoPhase (v : Fin Config.nv) (q : Word) : (s.setq v q).lfoPhase = s.lfoPhase := rfl
@[simp] theorem State.setq_lfoRate (v : Fin Config.nv) (q : Word) : (s.setq v q).lfoRate = s.lfoRate := rfl
@[simp] theorem State.setq_lfoAmt (v : Fin Config.nv) (q : Word) : (s.setq v q).lfoAmt = s.lfoAmt := rfl
@[simp] theorem State.setq_eDry (v : Fin Config.nv) (q : Word) : (s.setq v q).eDry = s.eDry := rfl
@[simp] theorem State.setq_cmdIn (v : Fin Config.nv) (q : Word) : (s.setq v q).cmdIn = s.cmdIn := rfl
@[simp] theorem State.setq_resp (v : Fin Config.nv) (q : Word) : (s.setq v q).resp = s.resp := rfl
@[simp] theorem State.setq_serial (v : Fin Config.nv) (q : Word) : (s.setq v q).serial = s.serial := rfl

/-! ### `vproc` -/

@[simp] theorem State.vproc_pDry (v : Fin Config.nv) (x : Word) : ((s.vproc v x).1).pDry = s.pDry := rfl
@[simp] theorem State.vproc_pWet (v : Fin Config.nv) (x : Word) : ((s.vproc v x).1).pWet = s.pWet := rfl
@[simp] theorem State.vproc_pLrate (v : Fin Config.nv) (x : Word) : ((s.vproc v x).1).pLrate = s.pLrate := rfl
@[simp] theorem State.vproc_pLdepth (v : Fin Config.nv) (x : Word) : ((s.vproc v x).1).pLdepth = s.pLdepth := rfl
@[simp] theorem State.vproc_pBase (v : Fin Config.nv) (x : Word) : ((s.vproc v x).1).pBase = s.pBase := rfl
@[simp] theorem State.vproc_status (v : Fin Config.nv) (x : Word) : ((s.vproc v x).1).status = s.status := rfl
@[simp] theorem State.vproc_lfoPhase (v : Fin Config.nv) (x : Word) : ((s.vproc v x).1).lfoPhase = s.lfoPhase := rfl
@[simp] theorem State.vproc_lfoRate (v : Fin Config.nv) (x : Word) : ((s.vproc v x).1).lfoRate = s.lfoRate := rfl
@[simp] theorem State.vproc_lfoAmt (v : Fin Config.nv) (x : Word) : ((s.vproc v x).1).lfoAmt = s.lfoAmt := rfl
@[simp] theorem State.vproc_eDry (v : Fin Config.nv) (x : Word) : ((s.vproc v x).1).eDry = s.eDry := rfl
@[simp] theorem State.vproc_cmdIn (v : Fin Config.nv) (x : Word) : ((s.vproc v x).1).cmdIn = s.cmdIn := rfl
@[simp] theorem State.vproc_resp (v : Fin Config.nv) (x : Word) : ((s.vproc v x).1).resp = s.resp := rfl
@[simp] theorem State.vproc_serial (v : Fin Config.nv) (x : Word) : ((s.vproc v x).1).serial = s.serial := rfl

/-! ### The voices of an updated state -/

@[simp] theorem State.setVoice_voice_same (v : Fin Config.nv) (c : Voice) :
    (s.setVoice v c).voice v = c := by
  simp [State.voice, State.setVoice]

@[simp] theorem State.setVoice_voice_of_ne {v u : Fin Config.nv} (c : Voice) (h : u ≠ v) :
    (s.setVoice v c).voice u = s.voice u := by
  have : v.val ≠ u.val := fun e => h (Fin.ext e.symm)
  simp [State.voice, State.setVoice, this]

theorem State.setVoice_voice (v u : Fin Config.nv) (c : Voice) :
    (s.setVoice v c).voice u = if u = v then c else s.voice u := by
  by_cases h : u = v
  · subst h
    simp
  · simp [h]

@[simp] theorem State.push_voice_same (v : Fin Config.nv) (x : Word) :
    (s.push v x).voice v = (s.voice v).push x :=
  State.setVoice_voice_same s v _

@[simp] theorem State.push_voice_of_ne {v u : Fin Config.nv} (x : Word) (h : u ≠ v) :
    (s.push v x).voice u = s.voice u :=
  State.setVoice_voice_of_ne s _ h

@[simp] theorem State.pop_voice_same (v : Fin Config.nv) :
    ((s.pop v).1).voice v = (s.voice v).pop.1 :=
  State.setVoice_voice_same s v _

@[simp] theorem State.pop_voice_of_ne {v u : Fin Config.nv} (h : u ≠ v) :
    ((s.pop v).1).voice u = s.voice u :=
  State.setVoice_voice_of_ne s _ h

@[simp] theorem State.setf_voice_same (v : Fin Config.nv) (f rate : Word) :
    (s.setf v f rate).voice v = (s.voice v).setf (Config.unspecAmt s.serial v.val) f rate :=
  State.setVoice_voice_same s v _

@[simp] theorem State.setf_voice_of_ne {v u : Fin Config.nv} (f rate : Word) (h : u ≠ v) :
    (s.setf v f rate).voice u = s.voice u :=
  State.setVoice_voice_of_ne s _ h

@[simp] theorem State.tick_voice_same (v : Fin Config.nv) (x : Word) :
    ((s.tick v x).1).voice v = { s.voice v with filter := ((s.voice v).filter.tick x).1 } :=
  State.setVoice_voice_same s v _

@[simp] theorem State.tick_voice_of_ne {v u : Fin Config.nv} (x : Word) (h : u ≠ v) :
    ((s.tick v x).1).voice u = s.voice u :=
  State.setVoice_voice_of_ne s _ h

@[simp] theorem State.storeSetting_voice_same (v : Fin Config.nv) (r : Filter × Bool) :
    (s.storeSetting v r).voice v = { s.voice v with filter := r.1 } :=
  State.setVoice_voice_same s v _

@[simp] theorem State.storeSetting_voice_of_ne {v u : Fin Config.nv} (r : Filter × Bool) (h : u ≠ v) :
    (s.storeSetting v r).voice u = s.voice u :=
  State.setVoice_voice_of_ne s _ h

@[simp] theorem State.setc_voice_same (v : Fin Config.nv) (c : Word) :
    (s.setc v c).voice v = { s.voice v with filter := ((s.voice v).filter.setCutoff c).1 } :=
  State.setVoice_voice_same s v _

@[simp] theorem State.setc_voice_of_ne {v u : Fin Config.nv} (c : Word) (h : u ≠ v) :
    (s.setc v c).voice u = s.voice u :=
  State.setVoice_voice_of_ne s _ h

@[simp] theorem State.setq_voice_same (v : Fin Config.nv) (q : Word) :
    (s.setq v q).voice v = { s.voice v with filter := ((s.voice v).filter.setQ q).1 } :=
  State.setVoice_voice_same s v _

@[simp] theorem State.setq_voice_of_ne {v u : Fin Config.nv} (q : Word) (h : u ≠ v) :
    (s.setq v q).voice u = s.voice u :=
  State.setVoice_voice_of_ne s _ h

@[simp] theorem State.vproc_voice_same (v : Fin Config.nv) (x : Word) :
    ((s.vproc v x).1).voice v = ((s.voice v).process x).1 :=
  State.setVoice_voice_same s v _

@[simp] theorem State.vproc_voice_of_ne {v u : Fin Config.nv} (x : Word) (h : u ≠ v) :
    ((s.vproc v x).1).voice u = s.voice u :=
  State.setVoice_voice_of_ne s _ h

/-! ### Results of the paired operations -/

@[simp] theorem State.pop_result (v : Fin Config.nv) : (s.pop v).2 = (s.voice v).tap := rfl

@[simp] theorem State.tick_result (v : Fin Config.nv) (x : Word) :
    (s.tick v x).2 = ((s.voice v).filter.tick x).2 := rfl

@[simp] theorem State.vproc_result (v : Fin Config.nv) (x : Word) :
    (s.vproc v x).2 = (s.voice v).tap := rfl

@[simp] theorem State.lnext_result :
    s.lnext.2 = lfoValueWith realSin s.lfoAmt s.lfoPhase := rfl

/-! ### Fields of an updated voice -/

variable (c : Voice)

@[simp] theorem Voice.push_buf (x : Word) : (c.push x).buf = c.buf.writeWord c.wp.toNat x := rfl
@[simp] theorem Voice.push_wp (x : Word) : (c.push x).wp = advance c.wp := rfl
@[simp] theorem Voice.push_amt (x : Word) : (c.push x).amt = c.amt := rfl
@[simp] theorem Voice.push_last (x : Word) : (c.push x).last = c.last := rfl
@[simp] theorem Voice.push_filter (x : Word) : (c.push x).filter = c.filter := rfl
@[simp] theorem Voice.push_eVgain (x : Word) : (c.push x).eVgain = c.eVgain := rfl
@[simp] theorem Voice.push_eNote (x : Word) : (c.push x).eNote = c.eNote := rfl
@[simp] theorem Voice.push_pVgain (x : Word) : (c.push x).pVgain = c.pVgain := rfl
@[simp] theorem Voice.push_pVcut (x : Word) : (c.push x).pVcut = c.pVcut := rfl
@[simp] theorem Voice.push_pVq (x : Word) : (c.push x).pVq = c.pVq := rfl
@[simp] theorem Voice.push_pVoff (x : Word) : (c.push x).pVoff = c.pVoff := rfl

@[simp] theorem Voice.pop_buf : (c.pop.1).buf = c.buf := rfl
@[simp] theorem Voice.pop_wp : (c.pop.1).wp = c.wp := rfl
@[simp] theorem Voice.pop_amt : (c.pop.1).amt = c.amt := rfl
@[simp] theorem Voice.pop_last : (c.pop.1).last = c.tap := rfl
@[simp] theorem Voice.pop_filter : (c.pop.1).filter = c.filter := rfl
@[simp] theorem Voice.pop_eVgain : (c.pop.1).eVgain = c.eVgain := rfl
@[simp] theorem Voice.pop_eNote : (c.pop.1).eNote = c.eNote := rfl
@[simp] theorem Voice.pop_pVgain : (c.pop.1).pVgain = c.pVgain := rfl
@[simp] theorem Voice.pop_pVcut : (c.pop.1).pVcut = c.pVcut := rfl
@[simp] theorem Voice.pop_pVq : (c.pop.1).pVq = c.pVq := rfl
@[simp] theorem Voice.pop_pVoff : (c.pop.1).pVoff = c.pVoff := rfl

@[simp] theorem Voice.setf_buf (unspec : BitVec Config.idxw) (f rate : Word) :
    (c.setf unspec f rate).buf = c.buf := rfl
@[simp] theorem Voice.setf_wp (unspec : BitVec Config.idxw) (f rate : Word) :
    (c.setf unspec f rate).wp = c.wp := rfl
@[simp] theorem Voice.setf_amt (unspec : BitVec Config.idxw) (f rate : Word) :
    (c.setf unspec f rate).amt = tunedAmount Config.roundTies unspec f rate := rfl
@[simp] theorem Voice.setf_last (unspec : BitVec Config.idxw) (f rate : Word) :
    (c.setf unspec f rate).last = c.last := rfl
@[simp] theorem Voice.setf_filter (unspec : BitVec Config.idxw) (f rate : Word) :
    (c.setf unspec f rate).filter = c.filter := rfl
@[simp] theorem Voice.setf_eVgain (unspec : BitVec Config.idxw) (f rate : Word) :
    (c.setf unspec f rate).eVgain = c.eVgain := rfl
@[simp] theorem Voice.setf_eNote (unspec : BitVec Config.idxw) (f rate : Word) :
    (c.setf unspec f rate).eNote = c.eNote := rfl
@[simp] theorem Voice.setf_pVgain (unspec : BitVec Config.idxw) (f rate : Word) :
    (c.setf unspec f rate).pVgain = c.pVgain := rfl
@[simp] theorem Voice.setf_pVcut (unspec : BitVec Config.idxw) (f rate : Word) :
    (c.setf unspec f rate).pVcut = c.pVcut := rfl
@[simp] theorem Voice.setf_pVq (unspec : BitVec Config.idxw) (f rate : Word) :
    (c.setf unspec f rate).pVq = c.pVq := rfl
@[simp] theorem Voice.setf_pVoff (unspec : BitVec Config.idxw) (f rate : Word) :
    (c.setf unspec f rate).pVoff = c.pVoff := rfl

@[simp] theorem Voice.process_buf (x : Word) :
    ((c.process x).1).buf = c.buf.writeWord c.wp.toNat (fmul Config.decay (fadd (c.filter.tick c.tap).2 x)) := rfl
@[simp] theorem Voice.process_wp (x : Word) : ((c.process x).1).wp = advance c.wp := rfl
@[simp] theorem Voice.process_amt (x : Word) : ((c.process x).1).amt = c.amt := rfl
@[simp] theorem Voice.process_last (x : Word) : ((c.process x).1).last = c.tap := rfl
@[simp] theorem Voice.process_filter (x : Word) :
    ((c.process x).1).filter = (c.filter.tick c.tap).1 := rfl
@[simp] theorem Voice.process_eVgain (x : Word) : ((c.process x).1).eVgain = c.eVgain := rfl
@[simp] theorem Voice.process_eNote (x : Word) : ((c.process x).1).eNote = c.eNote := rfl
@[simp] theorem Voice.process_pVgain (x : Word) : ((c.process x).1).pVgain = c.pVgain := rfl
@[simp] theorem Voice.process_pVcut (x : Word) : ((c.process x).1).pVcut = c.pVcut := rfl
@[simp] theorem Voice.process_pVq (x : Word) : ((c.process x).1).pVq = c.pVq := rfl
@[simp] theorem Voice.process_pVoff (x : Word) : ((c.process x).1).pVoff = c.pVoff := rfl

@[simp] theorem Voice.process_result (x : Word) : (c.process x).2 = c.tap := rfl

/-! ### Equality of states -/

/-- Two states that agree on every field, voice by voice, are equal. -/
theorem State.ext_of_voices {s t : State} (h1 : s.pDry = t.pDry) (h2 : s.pWet = t.pWet)
    (h3 : s.pLrate = t.pLrate) (h4 : s.pLdepth = t.pLdepth) (h5 : s.pBase = t.pBase)
    (h6 : s.status = t.status) (h7 : s.lfoPhase = t.lfoPhase) (h8 : s.lfoRate = t.lfoRate)
    (h9 : s.lfoAmt = t.lfoAmt) (h10 : s.eDry = t.eDry) (h11 : ∀ v, s.voice v = t.voice v)
    (h12 : s.cmdIn = t.cmdIn) (h13 : s.resp = t.resp) (h14 : s.serial = t.serial) : s = t := by
  have hv : s.voices = t.voices := by
    ext i hi : 1
    exact h11 ⟨i, hi⟩
  cases s
  cases t
  simp_all

/-- Two writes of one voice: the second stays. -/
@[simp] theorem State.setVoice_setVoice (v : Fin Config.nv) (c d : Voice) :
    (s.setVoice v c).setVoice v d = s.setVoice v d := by
  simp [State.setVoice]

/-- Writing a voice back changes nothing. -/
@[simp] theorem State.setVoice_self (v : Fin Config.nv) : s.setVoice v (s.voice v) = s := by
  refine State.ext_of_voices rfl rfl rfl rfl rfl rfl rfl rfl rfl rfl (fun u => ?_) rfl rfl rfl
  by_cases h : u = v
  · subst h
    simp
  · simp [h]

/-! ### The reset state -/

@[simp] theorem State.resetWith_voice (g : GlobalParam → Word) (w : Fin Config.nv → VoiceParam → Word)
    (v : Fin Config.nv) : (State.resetWith g w).voice v = resetVoice w v := by
  simp [State.voice, State.resetWith]
@[simp] theorem State.reset_voice (v : Fin Config.nv) :
    State.reset.voice v = resetVoice Config.voiceParamReset v := State.resetWith_voice _ _ v

end Sys2Proof.Machine
end

