-- ==== Sys2Proof/Laws/Ops.lean ====
section
/-!
SUPPORT. What each shared operation can do, said once: commands that store, the status flag, the filter
operations, the invariant of one voice, and the loops of EFRAME and ESAMP.
-/

namespace Sys2Proof.Machine

/-! ### Commands that store -/

/-- A storing command answers a next state exactly when every word it pushes exists. -/
theorem storing_eq_next {s t t' : State} {vs : List (Fin Config.nv)} :
    storing s vs t = .next t' ↔ (∀ v ∈ vs, (s.voice v).wp.toNat < Config.cap) ∧ t' = t := by
  unfold storing
  split
  · next h =>
    have h' : ∀ v ∈ vs, (s.voice v).wp.toNat < Config.cap := by
      simpa [List.find?_eq_none, Voice.storeOk] using h
    constructor
    · intro e
      exact ⟨h', by simpa using e.symm⟩
    · rintro ⟨-, rfl⟩
      rfl
  · next v h =>
    have hv := List.find?_some h
    have hm := List.mem_of_find?_eq_some h
    constructor
    · intro e
      cases e
    · rintro ⟨hall, -⟩
      simp [Voice.storeOk] at hv
      exact absurd (hall v hm) (by omega)

/-- A storing command whose words exist answers its state. -/
theorem storing_of_ok {s t : State} {vs : List (Fin Config.nv)}
    (h : ∀ v ∈ vs, (s.voice v).wp.toNat < Config.cap) : storing s vs t = .next t :=
  storing_eq_next.2 ⟨h, rfl⟩

theorem mem_voiceIndices (v : Fin Config.nv) : v ∈ voiceIndices := List.mem_finRange v

theorem voiceIndices_eq : voiceIndices = [0, 1, 2, 3] := by decide

/-! ### The status flag (R47) -/

theorem coefErrBit_getLsbD (v : Fin Config.nv) (i : Nat) :
    (coefErrBit v).getLsbD i = decide (i = v.val) := by
  have hv : v.val < 32 := Nat.lt_trans v.isLt (by decide)
  by_cases h : i = v.val
  · subst h
    simp [coefErrBit, hv]
  · simp only [coefErrBit, BitVec.getLsbD_shiftLeft, h, decide_false]
    by_cases h1 : i < v.val
    · simp [h1]
    · have : i - v.val ≠ 0 := by omega
      simp [this]

/-- Every bit of `STATUS` after a coefficient computation. -/
theorem getLsbD_recordCoefErr (failed : Bool) (v : Fin Config.nv) (status : Word) (i : Nat) :
    (recordCoefErr failed v status).getLsbD i =
      (status.getLsbD i || (failed && decide (i = v.val))) := by
  cases failed <;> simp [recordCoefErr, coefErrBit_getLsbD]

/-- `COEF_ERR` of every voice after a coefficient computation of voice `v`. -/
theorem coefErr_recordCoefErr (failed : Bool) (u v : Fin Config.nv) (status : Word) :
    coefErr (recordCoefErr failed v status) u = (coefErr status u || (failed && decide (u = v))) := by
  rw [coefErr, getLsbD_recordCoefErr, coefErr]
  simp [Fin.ext_iff]

/-- A flag that is set stays set (R47). -/
theorem coefErr_sticky {failed : Bool} {u v : Fin Config.nv} {status : Word}
    (h : coefErr status u = true) : coefErr (recordCoefErr failed v status) u = true := by
  rw [coefErr_recordCoefErr, h, Bool.true_or]

/-! ### The filter (R110 to R116) -/

/-- `tick` keeps the filter the configured one. -/
theorem Filter.tick_fits {v : Fin Config.nv} {f : Filter} (x : Word) (h : f.Fits v) :
    (f.tick x).1.Fits v := by
  cases f <;> exact h

theorem SvfFilter.recompute_setting (f : SvfFilter) :
    f.recompute.1.type = f.type ∧ f.recompute.1.srate = f.srate ∧ f.recompute.1.cut = f.cut ∧
      f.recompute.1.q = f.q ∧ f.recompute.1.gain = f.gain ∧ f.recompute.1.st = f.st := by
  unfold SvfFilter.recompute
  split <;> simp

/-- A recomputation takes the library's coefficients, or keeps the previous ones and reports the
failure (R114, R116). -/
theorem SvfFilter.recompute_cases (f : SvfFilter) :
    (∃ k, svfCoef f.type f.srate f.cut f.q f.gain = some k ∧
      f.recompute = ({ f with co := k }, false)) ∨
    (svfCoef f.type f.srate f.cut f.q f.gain = none ∧ f.recompute = (f, true)) := by
  unfold SvfFilter.recompute
  split
  · next k h => exact .inl ⟨k, h, rfl⟩
  · next h => exact .inr ⟨h, rfl⟩

/-- `set_cutoff` keeps the filter the configured one, and fails only on an SVF. -/
theorem Filter.setCutoff_fits {v : Fin Config.nv} {f : Filter} (c : Word) (h : f.Fits v) :
    (f.setCutoff c).1.Fits v ∧ ((f.setCutoff c).2 = true → Config.filterVariant v = .svf) := by
  cases f with
  | comb g => exact ⟨h, by simp [Filter.setCutoff]⟩
  | svf g =>
    have r := ({ g with cut := c } : SvfFilter).recompute_setting
    exact ⟨⟨h.1, r.1.trans h.2.1, r.2.1.trans h.2.2.1, r.2.2.2.2.1.trans h.2.2.2⟩, fun _ => h.1⟩

/-- `set_q` keeps the filter the configured one, and fails only on an SVF. -/
theorem Filter.setQ_fits {v : Fin Config.nv} {f : Filter} (q : Word) (h : f.Fits v) :
    (f.setQ q).1.Fits v ∧ ((f.setQ q).2 = true → Config.filterVariant v = .svf) := by
  cases f with
  | comb g => exact ⟨h, by simp [Filter.setQ]⟩
  | svf g =>
    have r := ({ g with q := q } : SvfFilter).recompute_setting
    exact ⟨⟨h.1, r.1.trans h.2.1, r.2.1.trans h.2.2.1, r.2.2.2.2.1.trans h.2.2.2⟩, fun _ => h.1⟩

/-! ### The invariant of one voice (R35, R36) -/

theorem Voice.push_inv {v : Fin Config.nv} {c : Voice} (x : Word) (h : c.Inv v) : (c.push x).Inv v :=
  ⟨advance_lt _, h.amt_lt, Memory.wf_writeWord x h.buf_wf h.wp_lt, h.fits⟩

theorem Voice.pop_inv {v : Fin Config.nv} {c : Voice} (h : c.Inv v) : c.pop.1.Inv v :=
  ⟨h.wp_lt, h.amt_lt, h.buf_wf, h.fits⟩

theorem Voice.setf_inv {v : Fin Config.nv} {c : Voice} {u : BitVec Config.idxw} (f rate : Word)
    (hu : u.toNat < Config.cap) (h : c.Inv v) : (c.setf u f rate).Inv v :=
  ⟨h.wp_lt, tunedAmount_lt _ hu f rate, h.buf_wf, h.fits⟩

theorem Voice.filter_inv {v : Fin Config.nv} {c : Voice} {f : Filter} (hf : f.Fits v) (h : c.Inv v) :
    ({ c with filter := f } : Voice).Inv v :=
  ⟨h.wp_lt, h.amt_lt, h.buf_wf, hf⟩

theorem Voice.process_inv {v : Fin Config.nv} {c : Voice} (x : Word) (h : c.Inv v) :
    (c.process x).1.Inv v :=
  Voice.push_inv _ (Voice.filter_inv (Filter.tick_fits _ h.fits) (Voice.pop_inv h))

/-! ### Loops over the voices (R142, R144) -/

/-- A loop over the voices whose pass for `v` replaces voice `v` by a function of that voice, and leaves
alone what `same` compares, does so for every voice. -/
theorem foldl_voices {f : State → Fin Config.nv → State} {g : Fin Config.nv → Voice → Voice}
    {same : State → State → Prop} (refl : ∀ s, same s s)
    (trans : ∀ {s t u}, same s t → same t u → same s u) {s₀ : State}
    (hf : ∀ s v, same s₀ s → same s (f s v) ∧ (f s v).voice v = g v (s.voice v) ∧
      ∀ u, u ≠ v → (f s v).voice u = s.voice u)
    {vs : List (Fin Config.nv)} (nodup : vs.Nodup) :
    ∀ s, same s₀ s → same s (vs.foldl f s) ∧
      ∀ u, (vs.foldl f s).voice u = if u ∈ vs then g u (s.voice u) else s.voice u := by
  induction vs with
  | nil => exact fun s _ => ⟨refl s, fun u => by simp⟩
  | cons v rest ih =>
    intro s hs
    obtain ⟨h1, h2, h3⟩ := hf s v hs
    obtain ⟨k1, k2⟩ := ih (List.nodup_cons.1 nodup).2 (f s v) (trans hs h1)
    refine ⟨trans h1 k1, fun u => ?_⟩
    rw [List.foldl_cons, k2 u]
    by_cases hu : u = v
    · subst hu
      simp [(List.nodup_cons.1 nodup).1, h2]
    · simp [hu, h3 u hu]

theorem nodup_voiceIndices : voiceIndices.Nodup := List.nodup_finRange _

/-- A voice after step 2 of EFRAME, with the wet gain `wet`. -/
def framedVoice (wet : Word) (c : Voice) : Voice :=
  { c with
    eVgain := fmul wet c.pVgain
    filter := ((c.filter.setCutoff (real c.pVcut)).1.setQ (real c.pVq)).1 }

/-- A voice after step 3 of EFRAME, with the base note `base`. -/
def notedVoice (base : Word) (c : Voice) : Voice := { c with eNote := fadd base c.pVoff }

/-- Everything but `STATUS` and the voices is the same. -/
def SameGlobals (s t : State) : Prop :=
  t.pDry = s.pDry ∧ t.pWet = s.pWet ∧ t.pLrate = s.pLrate ∧ t.pLdepth = s.pLdepth ∧
    t.pBase = s.pBase ∧ t.lfoPhase = s.lfoPhase ∧ t.lfoRate = s.lfoRate ∧ t.lfoAmt = s.lfoAmt ∧
    t.eDry = s.eDry ∧ t.cmdIn = s.cmdIn ∧ t.resp = s.resp ∧ t.serial = s.serial

theorem SameGlobals.refl (s : State) : SameGlobals s s := by simp [SameGlobals]

theorem SameGlobals.trans {s t u : State} (h : SameGlobals s t) (k : SameGlobals t u) :
    SameGlobals s u := by
  simp only [SameGlobals] at *
  simp [h, k]

/-- One pass of step 2 of EFRAME, voice by voice. -/
theorem State.frameVoice_voice (s : State) (v : Fin Config.nv) :
    SameGlobals s (s.frameVoice v) ∧
      (s.frameVoice v).voice v = framedVoice s.pWet (s.voice v) ∧
      ∀ u, u ≠ v → (s.frameVoice v).voice u = s.voice u := by
  refine ⟨by simp [SameGlobals, State.frameVoice], by simp [State.frameVoice, framedVoice],
    fun u hu => by simp [State.frameVoice, hu]⟩

/-- One pass of step 3 of EFRAME. -/
theorem State.frameNote_voice (s : State) (v : Fin Config.nv) :
    (SameGlobals s (s.frameNote v) ∧ (s.frameNote v).status = s.status) ∧
      (s.frameNote v).voice v = notedVoice s.pBase (s.voice v) ∧
      ∀ u, u ≠ v → (s.frameNote v).voice u = s.voice u := by
  refine ⟨by simp [SameGlobals, State.frameNote], by simp [State.frameNote, notedVoice],
    fun u hu => by simp [State.frameNote, hu]⟩

/-- The globals after step 1 of EFRAME. -/
def framedGlobals (s : State) : State :=
  { s with eDry := real s.pDry, lfoAmt := real s.pLdepth, lfoRate := real s.pLrate }

/-- What EFRAME does to the voices and to everything but `STATUS` (R142). -/
theorem State.frame_spec (s : State) :
    SameGlobals (framedGlobals s) s.frame ∧
      ∀ v, s.frame.voice v = notedVoice s.pBase (framedVoice s.pWet (s.voice v)) := by
  have g0 : ∀ v, s.frameGlobals.voice v = s.voice v := fun v => rfl
  have e0 : SameGlobals (framedGlobals s)
      s.frameGlobals := by simp [SameGlobals, State.frameGlobals, framedGlobals]
  obtain ⟨a1, a2⟩ := foldl_voices (g := fun _ => framedVoice s.pWet) SameGlobals.refl
    SameGlobals.trans (s₀ := s.frameGlobals) (f := State.frameVoice)
    (fun t v ht => by
      have hw : t.pWet = s.pWet := ht.2.1
      have := t.frameVoice_voice v
      rw [hw] at this
      exact this) nodup_voiceIndices s.frameGlobals (SameGlobals.refl _)
  obtain ⟨b1, b2⟩ := foldl_voices (g := fun _ => notedVoice s.pBase) SameGlobals.refl
    SameGlobals.trans (s₀ := s.frameGlobals) (f := State.frameNote)
    (fun t v ht => by
      have hw : t.pBase = s.pBase := ht.2.2.2.2.1
      have := t.frameNote_voice v
      rw [hw] at this
      exact ⟨this.1.1, this.2⟩) nodup_voiceIndices _ a1
  refine ⟨e0.trans (a1.trans b1), fun v => ?_⟩
  rw [State.frame, b2 v, a2 v, g0 v]
  simp [mem_voiceIndices]

/-- A coefficient computation of EFRAME fails for the voice: for its cutoff, or then for its Q. -/
def Voice.frameFails (c : Voice) : Bool :=
  (c.filter.setCutoff (real c.pVcut)).2 || ((c.filter.setCutoff (real c.pVcut)).1.setQ (real c.pVq)).2

/-- Every flag after one pass of step 2 of EFRAME. -/
theorem State.frameVoice_status (s : State) (v : Fin Config.nv) (i : Nat) :
    (s.frameVoice v).status.getLsbD i =
      (s.status.getLsbD i || (decide (v.val = i) && (s.voice v).frameFails)) := by
  simp only [State.frameVoice, State.setq_status, State.setc_status, State.setVoice_status,
    State.setVoice_voice_same, State.setc_voice_same, getLsbD_recordCoefErr, eq_comm (a := i),
    Voice.frameFails]
  generalize decide (v.val = i) = d
  cases s.status.getLsbD i <;> cases ((s.voice v).filter.setCutoff (real (s.voice v).pVcut)).2 <;>
    cases d <;> simp

/-- Every flag after EFRAME: set before, or by a failure of the voice's cutoff or Q (R142, R166). -/
theorem State.frame_status (s : State) (i : Nat) :
    s.frame.status.getLsbD i = true ↔
      s.status.getLsbD i = true ∨ ∃ v : Fin Config.nv, v.val = i ∧ (s.voice v).frameFails = true := by
  have notes : ∀ (vs : List (Fin Config.nv)) (t : State),
      (vs.foldl State.frameNote t).status = t.status := by
    intro vs
    induction vs with
    | nil => exact fun t => rfl
    | cons v rest ih => exact fun t => (ih _).trans (t.frameNote_voice v).1.2
  have settings : ∀ (vs : List (Fin Config.nv)) (t : State), vs.Nodup →
      ((vs.foldl State.frameVoice t).status.getLsbD i = true ↔
        t.status.getLsbD i = true ∨ ∃ v ∈ vs, v.val = i ∧ (t.voice v).frameFails = true) := by
    intro vs
    induction vs with
    | nil => simp
    | cons v rest ih =>
      intro t nodup
      obtain ⟨hv, nodup'⟩ := List.nodup_cons.1 nodup
      have others : ∀ u ∈ rest, (t.frameVoice v).voice u = t.voice u := fun u hu =>
        (t.frameVoice_voice v).2.2 u fun e => hv (e ▸ hu)
      have tail : (∃ u ∈ rest, u.val = i ∧ ((t.frameVoice v).voice u).frameFails = true) ↔
          ∃ u ∈ rest, u.val = i ∧ (t.voice u).frameFails = true :=
        exists_congr fun u => and_congr_right fun hu => by rw [others u hu]
      rw [List.foldl_cons, ih _ nodup', tail, State.frameVoice_status]
      simp only [Bool.or_eq_true, Bool.and_eq_true, decide_eq_true_eq, List.mem_cons, exists_eq_or_imp,
        or_assoc]
  rw [State.frame, notes, settings _ _ nodup_voiceIndices]
  simp only [mem_voiceIndices, true_and]
  rfl

/-- A voice after its pass of the loop of ESAMP, for the input `x` and the LFO value `lv`. -/
def sampledVoice (serial : Nat) (x lv : Word) (v : Fin Config.nv) (c : Voice) : Voice :=
  ((c.setf (Config.unspecAmt serial v.val) (noteToFreq (fadd c.eNote lv) Config.baseHz)
    Config.fs).process x).1

/-- What a voice adds to the sum of ESAMP (R144): its gain times the word its new lag reads. -/
def sampledTerm (serial : Nat) (lv : Word) (v : Fin Config.nv) (c : Voice) : Word :=
  fmul c.eVgain (c.setf (Config.unspecAmt serial v.val) (noteToFreq (fadd c.eNote lv) Config.baseHz)
    Config.fs).tap

/-- The loop of ESAMP over any voices: the state is that of the retuned and stepped voices, the sum
adds their terms in order. -/
theorem sampleVoice_foldl (x lv : Word) {vs : List (Fin Config.nv)} (nodup : vs.Nodup) :
    ∀ acc : State × Word,
      (SameGlobals acc.1 (vs.foldl (sampleVoice x lv) acc).1 ∧
        (vs.foldl (sampleVoice x lv) acc).1.status = acc.1.status) ∧
      (∀ u, (vs.foldl (sampleVoice x lv) acc).1.voice u =
        if u ∈ vs then sampledVoice acc.1.serial x lv u (acc.1.voice u) else acc.1.voice u) ∧
      (vs.foldl (sampleVoice x lv) acc).2 =
        vs.foldl (fun out v => fadd out (sampledTerm acc.1.serial lv v (acc.1.voice v))) acc.2 := by
  induction vs with
  | nil => exact fun acc => ⟨⟨SameGlobals.refl _, rfl⟩, fun u => by simp, rfl⟩
  | cons v rest ih =>
    intro acc
    obtain ⟨hv, nodup'⟩ := List.nodup_cons.1 nodup
    obtain ⟨⟨i1, i2⟩, i3, i4⟩ := ih nodup' (sampleVoice x lv acc v)
    have g : SameGlobals acc.1 (sampleVoice x lv acc v).1 := by simp [SameGlobals, sampleVoice]
    have st : (sampleVoice x lv acc v).1.status = acc.1.status := by simp [sampleVoice]
    have se : (sampleVoice x lv acc v).1.serial = acc.1.serial := g.2.2.2.2.2.2.2.2.2.2.2
    have same : (sampleVoice x lv acc v).1.voice v = sampledVoice acc.1.serial x lv v (acc.1.voice v) := by
      simp [sampleVoice, sampledVoice]
    have other : ∀ u, u ≠ v → (sampleVoice x lv acc v).1.voice u = acc.1.voice u :=
      fun u hu => by simp [sampleVoice, hu]
    have term : (sampleVoice x lv acc v).2 =
        fadd acc.2 (sampledTerm acc.1.serial lv v (acc.1.voice v)) := by
      simp [sampleVoice, sampledTerm]
    refine ⟨⟨g.trans i1, i2.trans st⟩, fun u => ?_, ?_⟩
    · rw [List.foldl_cons, i3 u, se]
      by_cases hu : u = v
      · subst hu
        simp [hv, same]
      · simp [hu, other u hu]
    · rw [List.foldl_cons, i4, List.foldl_cons, term, se]
      refine List.foldl_ext _ _ _ fun out u hu => ?_
      rw [other u fun e => hv (e ▸ hu)]

/-- What ESAMP does before its answer (R144): the LFO phase advances once, every voice is retuned and
stepped, nothing else changes, and the sum adds the voices' terms to the dry term in ascending order. -/
theorem State.sample_spec (s : State) (x : Word) :
    SameGlobals { s with lfoPhase := fadd s.lfoPhase s.lfoRate } (s.sample x).1 ∧
      (s.sample x).1.status = s.status ∧
      (∀ v, (s.sample x).1.voice v = sampledVoice s.serial x s.lnext.2 v (s.voice v)) ∧
      (s.sample x).2 = voiceIndices.foldl
        (fun out v => fadd out (sampledTerm s.serial s.lnext.2 v (s.voice v))) (fmul s.eDry x) := by
  obtain ⟨⟨h1, h2⟩, h3, h4⟩ :=
    sampleVoice_foldl x s.lnext.2 nodup_voiceIndices (s.lnext.1, fmul s.eDry x)
  refine ⟨h1, h2, fun v => ?_, h4⟩
  rw [State.sample, h3 v]
  simp [mem_voiceIndices]

end Sys2Proof.Machine
end

