-- ==== Sys2Proof/Laws/PerInstr.lean ====
section
/-!
SUPPORT. A fact about every instruction, one lemma for each constructor: the `op` field of its encoding
is its opcode's, and the fields its format does not use are zero (R76, R77, R79).
-/

namespace Sys2Proof.Laws

/-- The format's must-be-zero fields are zero and the `op` field is the opcode's (R77). -/
def EncodedFields.Statement (i : Instr) : Prop :=
  opField (encode i).cmd = i.opcode.toByte ∧
    (vField (encode i).cmd = 0 ∨ nField (encode i).cmd = 0)

theorem EncodedFields.of_voice (o : Opcode) (v : Fin Config.nv) :
    opField (voiceCommand o v) = o.toByte ∧
      (vField (voiceCommand o v) = 0 ∨ nField (voiceCommand o v) = 0) :=
  ⟨opField_commandWord _ _ _, .inr (nField_commandWord _ _ _)⟩

theorem EncodedFields.of_global (o : Opcode) :
    opField (globalCommand o) = o.toByte ∧
      (vField (globalCommand o) = 0 ∨ nField (globalCommand o) = 0) :=
  ⟨opField_commandWord _ _ _, .inr (nField_commandWord _ _ _)⟩

theorem EncodedFields.of_register (o : Opcode) (r : Reg) :
    opField (registerCommand o r) = o.toByte ∧
      (vField (registerCommand o r) = 0 ∨ nField (registerCommand o r) = 0) :=
  ⟨opField_commandWord _ _ _, .inl (vField_commandWord _ _ _)⟩

theorem EncodedFields.dpush (v : Fin Config.nv) (x : Word) :
    EncodedFields.Statement (.dpush v x) := EncodedFields.of_voice _ _
theorem EncodedFields.dpop (v : Fin Config.nv) :
    EncodedFields.Statement (.dpop v) := EncodedFields.of_voice _ _
theorem EncodedFields.dsetf (v : Fin Config.nv) (f rate : Word) :
    EncodedFields.Statement (.dsetf v f rate) := EncodedFields.of_voice _ _
theorem EncodedFields.ftick (v : Fin Config.nv) (x : Word) :
    EncodedFields.Statement (.ftick v x) := EncodedFields.of_voice _ _
theorem EncodedFields.fsetc (v : Fin Config.nv) (c : Word) :
    EncodedFields.Statement (.fsetc v c) := EncodedFields.of_voice _ _
theorem EncodedFields.fsetq (v : Fin Config.nv) (q : Word) :
    EncodedFields.Statement (.fsetq v q) := EncodedFields.of_voice _ _
theorem EncodedFields.vproc (v : Fin Config.nv) (x : Word) :
    EncodedFields.Statement (.vproc v x) := EncodedFields.of_voice _ _
theorem EncodedFields.lnext : EncodedFields.Statement .lnext := EncodedFields.of_global _
theorem EncodedFields.lsetf (f : Word) : EncodedFields.Statement (.lsetf f) := EncodedFields.of_global _
theorem EncodedFields.lseta (m : Word) : EncodedFields.Statement (.lseta m) := EncodedFields.of_global _
theorem EncodedFields.eframe : EncodedFields.Statement .eframe := EncodedFields.of_global _
theorem EncodedFields.esamp (x : Word) : EncodedFields.Statement (.esamp x) := EncodedFields.of_global _
theorem EncodedFields.pwr (reg : Reg) (x : Word) :
    EncodedFields.Statement (.pwr reg x) := EncodedFields.of_register _ _
theorem EncodedFields.prd (reg : Reg) : EncodedFields.Statement (.prd reg) := EncodedFields.of_register _ _

end Sys2Proof.Laws
end

