-- ==== Sys2Proof/Tests/Slice0.lean ====
section
/-!
SUPPORT. Tests of one step each, with expected values from the vectors and worked examples of the spec
(spec/95_test_vectors.md and the rules named), and for each obligation with hypotheses a state and
operands that meet them.
-/

namespace Sys2Proof.Tests

open Sys2Proof.Machine

/-! ### Helpers -/

/-- A comb voice with an empty delay line, all registers zero but the comb's. -/
def combVoice (b a y : Word) : Voice where
  buf := []
  wp := 0
  amt := 0
  last := 0
  filter := .comb ⟨b, a, y⟩
  eVgain := 0
  eNote := 0
  pVgain := 0
  pVcut := 0
  pVq := 0
  pVoff := 0

/-- A state whose four voices are `c`, all else zero. -/
def withVoice (c : Voice) : State where
  pDry := 0
  pWet := 0
  pLrate := 0
  pLdepth := 0
  pBase := 0
  status := 0
  lfoPhase := 0
  lfoRate := 0
  lfoAmt := 0
  eDry := 0
  voices := Vector.replicate Config.nv c
  cmdIn := []
  resp := none
  serial := 0

/-- Four pass-through combs (`b = 0`, `a = 1`). -/
def start : State := withVoice (combVoice 0 0x3F800000 0)

/-- What a field of the next state is, `none` when there is no next state. -/
def get {α : Type} (o : Host.Outcome State Fault Refusal) (f : State → α) : Option α :=
  match o with
  | .next t => some (f t)
  | .fault _ => none
  | .refused _ => none

/-! ### Well-formedness: the ill-formed term each check refuses -/

theorem test_wf_pwr_status : Instr.wf (.pwr .status 0) = false := by decide
theorem test_wf_pwr_cfg : Instr.wf (.pwr .cfgCap 0) = false := by decide
theorem test_wf_pwr_view : Instr.wf (.pwr (.voice 0 .dlWp) 0) = false := by decide
theorem test_sizes_legal : sizesLegal Config.cap Config.nv Config.idxw = true := by decide
theorem test_sizes_refused : sizesLegal 1 4 13 = false ∧ sizesLegal 16777217 4 25 = false ∧
    sizesLegal 5000 0 13 = false ∧ sizesLegal 5000 17 13 = false ∧ sizesLegal 5000 4 12 = false ∧
    sizesLegal 5000 4 14 = false := by decide
theorem test_straps_legal : strapsLegal 0x472C4400 0x43DC0000 = true := by decide
theorem test_straps_refused : strapsLegal 0 0x43DC0000 = false ∧ strapsLegal 0xC72C4400 0x43DC0000 = false ∧
    strapsLegal 0x472C4400 0x7F800000 = false ∧ strapsLegal 0x472C4400 0x7FC00000 = false := by decide

/-! ### Decoding, one word per opcode written out from the opcode map (R79), the examples of
R86, R151, R152 among them -/

theorem test_decode_dpush : decode ⟨0x10030000, 0x3F800000, 0⟩ = .ok (.dpush 3 0x3F800000) := by decide
theorem test_decode_dpop : decode ⟨0x11000000, 0, 0⟩ = .ok (.dpop 0) := by decide
theorem test_decode_dsetf :
    decodeBytes [0x00, 0x00, 0x02, 0x12, 0x00, 0x00, 0xDC, 0x43, 0x00, 0x44, 0x2C, 0x47] =
      .ok (.dsetf 2 0x43DC0000 0x472C4400) := by decide
theorem test_decode_ftick : decode ⟨0x20010000, 0xBF800000, 0⟩ = .ok (.ftick 1 0xBF800000) := by decide
theorem test_decode_fsetc : decode ⟨0x21000000, 0x7F800000, 0⟩ = .ok (.fsetc 0 0x7F800000) := by decide
theorem test_decode_fsetq : decode ⟨0x22010000, 0x3F34FDF4, 0⟩ = .ok (.fsetq 1 0x3F34FDF4) := by decide
theorem test_decode_vproc : decode ⟨0x30020000, 0x3F800000, 0⟩ = .ok (.vproc 2 0x3F800000) := by decide
theorem test_decode_lnext : decode ⟨0x40000000, 0, 0⟩ = .ok .lnext := by decide
theorem test_decode_lsetf : decode ⟨0x41000000, 0x42480000, 0⟩ = .ok (.lsetf 0x42480000) := by decide
theorem test_decode_lseta : decode ⟨0x42000000, 0x3F800000, 0⟩ = .ok (.lseta 0x3F800000) := by decide
theorem test_decode_eframe : decode ⟨0x50000000, 0, 0⟩ = .ok .eframe := by decide
theorem test_decode_esamp : decode ⟨0x51000000, 0x3F800000, 0⟩ = .ok (.esamp 0x3F800000) := by decide
theorem test_decode_pwr :
    decode ⟨0x60000121, 0x3F800000, 0⟩ = .ok (.pwr (.voice 2 .pVcut) 0x3F800000) := by decide
theorem test_decode_prd : decode ⟨0x61000020, 0, 0⟩ = .ok (.prd .cfgCap) ∧
    decode ⟨0x6100013D, 0, 0⟩ = .ok (.prd (.voice 3 .fsQ)) := by decide
/-- An operand that the opcode does not use is ignored, whatever its bits (R9). -/
theorem test_decode_ignores_operands : decode ⟨0x11010000, 0xFFFFFFFF, 0xFFFFFFFF⟩ = .ok (.dpop 1) := by
  decide

/-- The illegal words V-X1 to V-X15, each refused for its own reason. -/
theorem test_decode_illegal_opcodes : [0x00000000, 0xFFFFFFFF, 0x13000000, 0x52000000].all
    (fun w => decide (decode ⟨w, 0, 0⟩ = .error .unknownOpcode)) = true := by decide
theorem test_decode_illegal_fields : decode ⟨0x10040000, 0, 0⟩ = .error .noSuchVoice ∧
    decode ⟨0x11000001, 0, 0⟩ = .error .numberFieldNotZero ∧
    decode ⟨0x40010000, 0, 0⟩ = .error .voiceFieldNotZero ∧
    decode ⟨0x51000100, 0, 0⟩ = .error .numberFieldNotZero ∧
    decode ⟨0x60010000, 0, 0⟩ = .error .voiceFieldNotZero := by decide
theorem test_decode_illegal_registers :
    [0x60000010, 0x60000020, 0x60000104].all
      (fun w => decide (decode ⟨w, 0, 0⟩ = .error .notWritable)) = true ∧
    [0x60000005, 0x60000140, 0x61000005, 0x6100010E, 0x61000140, 0x61000200, 0x6100FFFF].all
      (fun w => decide (decode ⟨w, 0, 0⟩ = .error .noSuchRegister)) = true := by decide
theorem test_decode_short : decodeBytes [0x00, 0x00, 0x00, 0x40] = .error .notAPacket := by decide

theorem test_encode_dsetf : encode (.dsetf 2 0x43DC0000 0x472C4400) =
    ⟨0x12020000, 0x43DC0000, 0x472C4400⟩ := by decide
theorem test_encode_pwr : encode (.pwr (.voice 2 .pVcut) 0x3F800000) = ⟨0x60000121, 0x3F800000, 0⟩ := by
  decide
theorem test_table_word : decodeTableWord 32 0x11010000 = some (.dpop 1) ∧
    decodeTableWord 96 (0x12020000 + 0x43DC0000 * 2 ^ 32 + 0x472C4400 * 2 ^ 64) =
      some (.dsetf 2 0x43DC0000 0x472C4400) ∧ decodeTableWord 32 0 = none := by decide
theorem test_fetch_word :
    get (step (start.withFetchWord 96 (0x10010000 + 0x40000000 * 2 ^ 32)))
      (fun t => ((t.voice 1).wp, (t.voice 1).buf.readWord 0, t.cmdIn)) =
      some (1, 0x40000000, []) := by decide

/-! ### Numbers -/

/-- Constants of R13 and the pattern of a decimal (R87). -/
theorem test_decimals : realOfRatio false 98 100 = Config.decay ∧ realOfNat 441000 = Config.period ∧
    realOfRatio false 707 1000 = 0x3F34FDF4 ∧ realOfRatio true 1 1 = negOne ∧
    realOfRatio false 1 10 = 0x3DCCCCCD ∧ realOfNat 12 = twelve := by decide
/-- Products of V-V4 to V-V6, P2. -/
theorem test_fmul : fmul Config.decay Config.decay = 0x3F75DCC7 ∧
    fmul Config.decay 0x3F75DCC7 = 0x3F70F1F7 ∧ fmul Config.decay 0x40400000 = 0x403C28F6 ∧
    fmul Config.decay 0xBF800001 = 0xBF7AE14A := by decide
/-- Quotients of V-D1, V-D3, V-D13 and the exponent of V-E4. -/
theorem test_fdiv : fdiv 0x472C4400 0x43DC0000 = 0x42C8745D ∧ fdiv 0x472C4400 0x445C0000 = 0x4248745D ∧
    fdiv 0x472C4400 0x00000001 = 0x7F800000 ∧ fdiv 0x40E00000 twelve = 0x3F155555 := by decide +kernel
/-- Ties and subnormals: `2^24 + 1` (R136), a subnormal sum, an exact zero sum. -/
theorem test_fadd : fadd 0x4B800000 one = 0x4B800000 ∧ fadd 0x00000001 0x00000001 = 0x00000002 ∧
    fadd one negOne = 0 ∧ fadd 0x80000000 0x80000000 = 0x80000000 := by decide
theorem test_fmul_limits : fmul 0x7F7FFFFF 0x40000000 = 0x7F800000 ∧ fmul 0x00000001 0x3F000000 = 0 ∧
    fmul 0x00000003 0x3F000000 = 0x00000002 ∧ fmul negTwoPi 0 = 0x80000000 := by decide
/-- The examples of R17, both tie rules. -/
theorem test_round_int : roundInt .even 0x42C90000 = .int 100 ∧ roundInt .away 0x42C90000 = .int 101 ∧
    roundInt .even 0x3F000000 = .int 0 ∧ roundInt .away 0x3F000000 = .int 1 ∧
    roundInt .even 0x42CB0000 = .int 102 ∧ roundInt .away 0x42CB0000 = .int 102 := by decide

/-- Signs of zeros and valid infinities: `1 - 1`, `-0 - 0`, `-0 * 1`, `-1 / Inf`, `Inf + 1`. -/
theorem test_signs : fsub one one = 0 ∧ fsub 0x80000000 0 = 0x80000000 ∧ fmul 0x80000000 one = 0x80000000 ∧
    fdiv negOne 0x7F800000 = 0x80000000 ∧ fadd 0xFF800000 one = 0xFF800000 := by decide

/-! ### The delay line -/

/-- V-D22: a push at the last index wraps the pointer. -/
theorem test_dpush_wraps :
    get (exec (.dpush 1 0x40000000) (withVoice { combVoice 0 0 0 with wp := 4999 }))
      (fun t => ((t.voice 1).wp, (t.voice 1).buf.readWord 4999, (t.voice 0).wp, t.resp)) =
      some (0, 0x40000000, 4999, some ⟨false, 0⟩) := by decide
/-- V-D23: the read index wraps below zero. -/
theorem test_dpop_lag :
    get (exec (.dpop 0)
        (withVoice { combVoice 0 0 0 with wp := 1, amt := 3, buf := Memory.writeWord [] 4998 0x40E00000 }))
      (fun t => (t.resp, (t.voice 0).last, (t.voice 0).wp)) =
      some (some ⟨false, 0x40E00000⟩, 0x40E00000, 1) := by decide
/-- V-D25: a lag of zero reads the word that the next push overwrites. -/
theorem test_dpop_zero :
    get (exec (.dpop 0) (withVoice { combVoice 0 0 0 with
        wp := 10, buf := (Memory.writeWord [] 10 0x40800000).writeWord 9 0x41100000 }))
      (fun t => t.resp) = some (some ⟨false, 0x40800000⟩) := by decide
/-- V-D1, V-D7, V-D9, V-D11, V-D14, V-D15, V-D17. -/
theorem test_dsetf : [(0x43DC0000, 0x472C4400, 100), (0x41000000, 0x471C3C00, 4999), (0, 0x472C4400, 4999),
      (0xC0A00000, 0x472C4400, 4999), (0x7F800000, 0x472C4400, 0), (0x4E6E6B28, 0x472C4400, 0),
      (0x46E5B000, 0x472C4400, 2)].all (fun c => decide (get (exec (.dsetf 0 c.1 c.2.1) start)
        (fun t => ((t.voice 0).amt.toNat, t.resp)) = some (c.2.2, some ⟨false, 0⟩))) = true := by decide
/-- V-D19: DSETN, and the other voices keep their lag. -/
theorem test_dsetn : get (exec (dsetn 3 100) start) (fun t => ((t.voice 3).amt, (t.voice 2).amt)) =
    some (100, 0) := by decide

/-! ### The filter -/

/-- V-F2 and V-F4. -/
theorem test_ftick : get (exec (.ftick 0 one) (withVoice (combVoice 0x3F000000 0x3F000000 0x3F000000)))
      (fun t => (t.resp, (t.voice 0).filter)) =
      some (some ⟨false, 0x3F400000⟩, .comb ⟨0x3F000000, 0x3F000000, 0x3F400000⟩) ∧
    get (exec (.ftick 0 negOne) (withVoice (combVoice 0x3E800000 0x3F400000 0x40000000)))
      (fun t => t.resp) = some (some ⟨false, 0xBE800000⟩) := by decide
/-- V-F8: the coefficients of an exponential with `P_EXP_NEGINF`, and the history survives. -/
theorem test_set_cutoff_inf (exp : Word → Word) (h : ExpNegInf exp) :
    CombFilter.setCutoffWith exp ⟨one, zero, 0x40400000⟩ 0x7F800000 = ⟨zero, one, 0x40400000⟩ := by
  have e : fmul negTwoPi 0x7F800000 = 0xFF800000 := by decide
  have f : fsub one zero = one := by decide
  rw [CombFilter.setCutoffWith, combFeedbackWith, e, show exp 0xFF800000 = zero from h, f]
/-- V-F10: the argument of the exponential, and `a = 1 - b`. -/
theorem test_fsetc : get (exec (.fsetc 0 one) start) (fun t => (t.voice 0).filter) =
    some (.comb ⟨realExp 0xC0C90FDB, fsub one (realExp 0xC0C90FDB), 0⟩) := by
  have e : fmul negTwoPi one = 0xC0C90FDB := by decide
  show some (((start.setc 0 one).finish 0).voice 0).filter = _
  rw [State.finish_voice, State.setc_voice_same]
  show some (Filter.comb ⟨realExp (fmul negTwoPi one), fsub one (realExp (fmul negTwoPi one)), 0⟩) = _
  rw [e]
/-- V-F15: no state change on a comb. -/
theorem test_fsetq : get (exec (.fsetq 1 0x3F34FDF4) start) (fun t => (t.voices, t.status, t.resp)) =
    some (start.voices, 0, some ⟨false, 0⟩) := by decide

/-! ### The voice -/

/-- V-V5: the answer is the popped word, the pushed word is scaled. -/
theorem test_vproc :
    get (exec (.vproc 0 0x3E800000) (withVoice { combVoice 0x3F000000 0x3F000000 0 with
        wp := 5, amt := 1, buf := Memory.writeWord [] 4 0x3F000000 }))
      (fun t => (t.resp, (t.voice 0).buf.readWord 5, (t.voice 0).wp, (t.voice 0).filter)) =
      some (some ⟨false, 0x3F000000⟩, 0x3EFAE148, 6, .comb ⟨0x3F000000, 0x3F000000, 0x3E800000⟩) := by
  decide
/-- V-V6: with a lag of zero the word is read before it is overwritten. -/
theorem test_vproc_zero :
    get (exec (.vproc 0 one) (withVoice { combVoice 0 one 0 with
        wp := 7, buf := Memory.writeWord [] 7 0x40000000 }))
      (fun t => (t.resp, (t.voice 0).buf.readWord 7, (t.voice 0).wp)) =
      some (some ⟨false, 0x40000000⟩, 0x403C28F6, 8) := by decide

/-! ### The LFO -/

/-- V-L5: the argument of the sine is that of the phase before the increment. -/
theorem test_lfo_argument : lfoArgument 0x47D75500 = 0x3FC90FDB ∧ lfoArgument 0x48575500 = 0x40490FDB ∧
    lfoArgument 0x48A17FC0 = 0x4096CBE4 ∧ lfoArgument 0x48D75500 = 0x40C90FDB := by decide
/-- V-L5: the phase after it. -/
theorem test_lnext : get (exec .lnext { start with lfoPhase := 0x47D75500, lfoRate := 0x47D75500 })
    (fun t => (t.lfoPhase, t.lfoRate)) = some (0x48575500, 0x47D75500) := by decide
/-- V-L2, V-L3. -/
theorem test_lsetf : get (exec (.lsetf 0x42480000) start) (fun t => (t.lfoRate, t.lfoAmt, t.lfoPhase)) =
    some (0x42480000, 0, 0) := by decide
theorem test_lseta : get (exec (.lseta one) start) (fun t => (t.lfoRate, t.lfoAmt, t.lfoPhase)) =
    some (0, one, 0) := by decide

/-! ### The engine -/

/-- V-E6 to V-E10. -/
theorem test_clip : clip 0x40400000 = one ∧ clip 0xC0400000 = 0 ∧ clip 0xBF800000 = 0xBF800000 ∧
    clip one = one ∧ clip 0xBF800001 = 0 ∧ clip 0x3F800001 = one ∧ clip 0x7FC00000 = 0x7FC00000 ∧
    clip 0x7F800000 = one ∧ clip 0xFF800000 = 0 ∧ clip 0x80000000 = 0x80000000 := by decide
/-- The start of V-E11, its first voice in every voice. -/
def frameStart : State :=
  { withVoice { combVoice zero zero 0x40400000 with
      pVgain := 0x3F000000, pVcut := 0x7F800000, pVq := 0x3F34FDF4, pVoff := 0xC1400000 } with
    pDry := 0x3F000000, pWet := 0x3F000000, pLrate := one, pLdepth := 0x3E800000, pBase := twelve }
/-- V-E11: what the exponential has no part in. -/
theorem test_eframe : get (exec .eframe frameStart) (fun t => (t.eDry, t.lfoAmt, t.lfoRate, t.lfoPhase)) =
      some (0x3F000000, 0x3E800000, one, 0) ∧
    get (exec .eframe frameStart) (fun t => ((t.voice 0).eVgain, (t.voice 3).eNote, t.resp)) =
      some (0x3E800000, 0, some ⟨false, 0⟩) := by decide
/-- With empty buffers and zero voice gains every wet term is `+0.0`. -/
theorem sample_of_empty (dry x : Word) :
    (State.sample { start with eDry := dry } x).2 =
      fadd (fadd (fadd (fadd (fmul dry x) zero) zero) zero) zero := by
  have term : ∀ lv v, sampledTerm 0 lv v (State.voice { start with eDry := dry } v) = zero := by
    intro lv v
    have : State.voice { start with eDry := dry } v = combVoice 0 0x3F800000 0 := by
      simp [State.voice, start, withVoice]
    have z : fmul 0 0 = zero := by decide
    rw [this, sampledTerm, Voice.tap]
    show fmul 0 (Memory.readWord [] _) = zero
    rw [Memory.readWord_nil, z]
  have spec := (State.sample_spec { start with eDry := dry } x).2.2.2
  rw [spec, voiceIndices_eq]
  show fadd (fadd (fadd (fadd (fmul dry x) (sampledTerm 0 _ _ (State.voice { start with eDry := dry } _)))
    (sampledTerm 0 _ _ (State.voice { start with eDry := dry } _)))
    (sampledTerm 0 _ _ (State.voice { start with eDry := dry } _)))
    (sampledTerm 0 _ _ (State.voice { start with eDry := dry } _)) = _
  rw [term, term, term, term]
/-- V-E15: the dry term is clipped at both ends, -3.0 to `+0.0`. -/
theorem test_esamp :
    get (exec (.esamp one) { start with eDry := 0x40400000 }) (·.resp) = some (some ⟨false, one⟩) ∧
    get (exec (.esamp negOne) { start with eDry := 0x40400000 }) (·.resp) = some (some ⟨false, 0⟩) := by
  have ok : ∀ v ∈ voiceIndices, (State.voice { start with eDry := 0x40400000 } v).wp.toNat < Config.cap :=
    by decide
  constructor
  · have e : clip (fadd (fadd (fadd (fadd (fmul 0x40400000 one) zero) zero) zero) zero) = one := by decide
    simp only [exec, execEsamp, storing_of_ok ok, get, State.finishReal_resp, sample_of_empty, e]
    rfl
  · have e : clip (fadd (fadd (fadd (fadd (fmul 0x40400000 negOne) zero) zero) zero) zero) = 0 := by decide
    simp only [exec, execEsamp, storing_of_ok ok, get, State.finishReal_resp, sample_of_empty, e]
    rfl

/-! ### Register access -/

/-- V-R4: a NaN pattern is stored and read back bit for bit. -/
theorem test_pwr : get (exec (.pwr (.voice 3 .pVoff) 0x7FC00001) start)
      (fun t => ((t.voice 3).pVoff, t.readReg (.voice 3 .pVoff), (t.voice 3).eNote, t.resp)) =
      some (0x7FC00001, 0x7FC00001, 0, some ⟨false, 0⟩) := by decide
/-- V-X9, V-X11: a read-only register is refused and nothing changes. -/
theorem test_pwr_refused : exec (.pwr .status 0xFFFFFFFF) start =
    .next { start with resp := some ⟨true, 0⟩ } := rfl
/-- V-R5, V-R7, V-R9, V-R10. -/
theorem test_prd : get (exec (.prd .cfgCap) start) (·.resp) = some (some ⟨false, 0x00001388⟩) ∧
    get (exec (.prd (.voice 0 .dlAmt)) (withVoice { combVoice 0 0 0 with amt := 100 })) (·.resp) =
      some (some ⟨false, 0x00000064⟩) ∧
    get (exec (.prd .status) start) (·.resp) = some (some ⟨false, 0⟩) ∧
    get (exec (.prd (.voice 0 .fsCut)) start) (·.resp) = some (some ⟨false, 0⟩) := by decide
/-- V-R6, V-F23: a status bit above the voices reads as zero, and reading clears nothing. -/
theorem test_prd_status : get (exec (.prd .status) { start with status := 0x00000011 })
    (fun t => (t.resp, t.status)) = some (some ⟨false, 0x00000001⟩, 0x00000011) := by decide

/-! ### One step, and text -/

/-- P6: a refused command leaves no trace but its answer, and the port goes on. -/
theorem test_step_illegal : step { start with cmdIn := [⟨0x10040000, one, 0⟩, ⟨0x11000000, 0, 0⟩] } =
    .next { start with cmdIn := [⟨0x11000000, 0, 0⟩], resp := some ⟨true, 0⟩ } := rfl
/-- Lines of P1 to P3 as text (R87, R88). -/
theorem test_assemble : assemble ["DSETN 0, 3 ; lag", "PWR P_VCUT[2], +inf", ".rept 2", "ESAMP -1.0", ".endr",
    "PRD STATUS"] = some [⟨0x12000000, 0x3F800000, 0x40400000⟩, ⟨0x60000121, 0x7F800000, 0⟩,
      ⟨0x51000000, 0xBF800000, 0⟩, ⟨0x51000000, 0xBF800000, 0⟩, ⟨0x61000010, 0, 0⟩] := by decide

/-! ### Witnesses: for each obligation with hypotheses, what meets them together -/

/-- The outcome is a next state. -/
def runs (o : Host.Outcome State Fault Refusal) : Prop := ∃ t, o = .next t

theorem witness_DecodeOfEncodeIsTheInstruction :
    Instr.wf (.pwr (.voice 3 .pVoff) 0xFFFFFFFF) = true ∧ Instr.wf (.dsetf 3 0 0) = true := by decide
theorem witness_DecodedWordIsTheEncodersWord :
    decode ⟨0x6100013D, 7, 7⟩ = .ok (.prd (.voice 3 .fsQ)) := by decide
/-- One word at the edge of each case (a) to (f) of R81. -/
theorem witness_IllegalCommandChangesNothing :
    (State.cmdIn { start with cmdIn := [⟨0x62000000, 0, 0⟩] } = [⟨0x62000000, 0, 0⟩] ∧
      IllegalWord 0x62000000) ∧
    IllegalWord 0x10040000 ∧ IllegalWord 0x30000001 ∧ IllegalWord 0x51010000 ∧ IllegalWord 0x40008000 ∧
    IllegalWord 0x61010000 ∧ IllegalWord 0x60000104 ∧ IllegalWord 0x6100013E := by
  refine ⟨⟨rfl, ?_⟩, ?_, ?_, ?_, ?_, ?_, ?_, ?_⟩
  · exact .inl (by unfold isUnassignedOp; decide)
  · exact .inr (.inl (by decide))
  · exact .inr (.inl (by decide))
  · exact .inr (.inr (.inl (by decide)))
  · exact .inr (.inr (.inl (by decide)))
  · exact .inr (.inr (.inr (.inl (by decide))))
  · refine .inr (.inr (.inr (.inr (.inl ⟨by decide, ?_⟩))))
    show ¬isWritableNumber 0x0104
    unfold isWritableNumber
    omega
  · refine .inr (.inr (.inr (.inr (.inr ⟨by decide, ?_⟩))))
    show ¬isRegisterNumber 0x013E
    unfold isRegisterNumber
    omega
theorem witness_CommandWordsOfTheTable : Reg.writable .pDry = true ∧ Reg.writable (.voice 3 .pVoff) = true := by
  decide
theorem witness_StepRunsTheDecodedInstruction :
    State.cmdIn { start with cmdIn := [⟨0x50000000, 1, 2⟩] } = [⟨0x50000000, 1, 2⟩] ∧
      decode ⟨0x50000000, 1, 2⟩ = .ok .eframe := by decide
theorem witness_IdleHoldsAllState : start.cmdIn = [] := rfl

/-- A voice at the last index, its lag the largest, with one word in its buffer. -/
def edgeVoice : Voice :=
  { combVoice 0x3F000000 0x3F000000 one with
    wp := 4999, amt := 4999, buf := Memory.writeWord [] 4999 0x40A00000 }
def edge : State := withVoice edgeVoice

theorem witness_DpushWritesThenAdvances :
    (edge.voice 3).wp.toNat < Config.cap ∧ (edge.voice 3).buf.wf = true := by decide
/-- The arms of R104, each at the edge of its range. -/
theorem witness_DsetfStoresTheClampedQuotient :
    (isNaN 0x7F800001 = true ∧ fgt 0x80000000 zero = false) ∧
    (isNaN (fneg zero) = false ∧ isNaN 0x7F800000 = false ∧ fgt 0x7F800000 zero = true ∧
      fle (fneg zero) zero = true) ∧
    (fgt one zero = true ∧ fle 0x7F800000 zero = false ∧
      roundInt Config.roundTies (fdiv one 0x7F800000) = .int 0) ∧
    (roundInt Config.roundTies (fdiv 0x471C3800 0x41000000) = .int 4999 ∧
      roundInt Config.roundTies (fdiv 0x471C3C00 0x41000000) = .int 5000) ∧
    roundInt Config.roundTies (fdiv 0x472C4400 0x00000001) = .posInf := by decide +kernel
/-- The arm without an integer: both operands `+Inf`. -/
theorem witness_DsetfStoresTheClampedQuotient_none : fgt 0x7F800000 zero = true ∧
    fle 0x7F800000 zero = false ∧ roundInt Config.roundTies (fdiv 0x7F800000 0x7F800000) = .none := by
  have e : fdiv 0x7F800000 0x7F800000 = Config.nan := rfl
  refine ⟨by decide, by decide, ?_⟩
  rw [e, roundInt, isNaN_nan, if_pos rfl]
theorem witness_DsetnSetsTheLagExactly : 0 < Config.cap ∧ 4999 < Config.cap := by decide
/-- A run of pushes with the lags 1, 4999 and 0 after it. -/
theorem witness_DelayLaw : ∀ k ∈ [0, 1, 4999],
    (∀ i ∈ [.dpush 0 one, .dpush 0 zero, .dpop 0, dsetn 0 k], isDelayLine i = true) ∧
    (start.voice 0).buf = [] ∧ (start.voice 0).wp = 0 ∧
    get (execAll [.dpush 0 one, .dpush 0 zero, .dpop 0, dsetn 0 k] start)
      (fun t => ((t.voice 0).wp.toNat, (t.voice 0).amt.toNat)) = some (2, k) := by decide
theorem dpush_next (v : Fin Config.nv) (x : Word) (s : State) (h : (s.voice v).wp.toNat < Config.cap) :
    ∃ t, exec (.dpush v x) s = .next t ∧ (t.voice v).wp.toNat < Config.cap ∧
      (t.voice v).amt = (s.voice v).amt :=
  ⟨_, storing_of_ok (by simpa using h), by
    rw [State.finish_voice, State.push_voice_same]
    exact ⟨advance_lt _, rfl⟩⟩
/-- A run of equal pushes answers a next state, and keeps the lag. -/
theorem execAll_dpush (v : Fin Config.nv) (x : Word) (n : Nat) : ∀ s : State,
    (s.voice v).wp.toNat < Config.cap →
    ∃ t, execAll (List.replicate n (.dpush v x)) s = .next t ∧ (t.voice v).amt = (s.voice v).amt := by
  induction n with
  | zero => exact fun s _ => ⟨s, rfl, rfl⟩
  | succ n ih =>
    intro s h
    obtain ⟨u, hu, hw, hm⟩ := dpush_next v x s h
    obtain ⟨t, ht, hm'⟩ := ih u hw
    exact ⟨t, by simp only [List.replicate_succ, execAll, hu, ht], hm'.trans hm⟩
theorem pushedOn_replicate (v : Fin Config.nv) (x : Word) (n : Nat) :
    (pushedOn v (List.replicate n (.dpush v x))).length = n := by
  induction n with
  | zero => rfl
  | succ n ih => simp [List.replicate_succ, pushedOn, ih]
/-- Runs past the wrap, of `CAP` pushes and of one more, with the lags 0, 1 and 4999. -/
theorem witness_DelayLaw_wrapped : ∀ m ∈ [5000, 5001], ∀ k ∈ [0, 1, 4999], ∃ s t,
    (∀ i ∈ List.replicate m (Instr.dpush 0 one), isDelayLine i = true) ∧ (s.voice 0).buf = [] ∧
    (s.voice 0).wp = 0 ∧ execAll (List.replicate m (.dpush 0 one)) s = .next t ∧
    Config.cap ≤ (pushedOn 0 (List.replicate m (.dpush 0 one))).length ∧ (t.voice 0).amt.toNat = k := by
  intro m hm k hk
  have long : Config.cap ≤ m := by
    revert m
    decide
  have lag : (BitVec.ofNat Config.idxw k).toNat = k := by
    revert k
    decide
  obtain ⟨t, ht, amt⟩ := execAll_dpush 0 one m
    (withVoice { combVoice 0 one 0 with amt := BitVec.ofNat Config.idxw k })
    (by decide : (0 : BitVec Config.idxw).toNat < Config.cap)
  refine ⟨_, t, fun i hi => ?_, rfl, rfl, ht, ?_, ?_⟩
  · rw [(List.mem_replicate.1 hi).2]
    rfl
  · rw [pushedOn_replicate]
    exact long
  · rw [amt]
    exact lag
theorem witness_CombPassesThroughOrHolds :
    (CombFilter.b ⟨zero, one, 0x7F7FFFFF⟩ = zero ∧ CombFilter.a ⟨zero, one, 0x7F7FFFFF⟩ = one ∧
      isFinite 0x7F7FFFFF = true ∧ isNaN 0xFF800000 = false ∧ (0xFF800000 : Word) ≠ fneg zero) ∧
    (CombFilter.b ⟨one, zero, 0x7F800000⟩ = one ∧ CombFilter.a ⟨one, zero, 0x7F800000⟩ = zero ∧
      isNaN 0x7F800000 = false ∧ isFinite 0x7F7FFFFF = true) := by decide
theorem witness_CombCoefficientsAreBounded :
    ExpRange (fun _ => 0x3F000000) ∧ ExpUnit (fun _ => 0x3F000000) ∧ fge zero zero = true ∧
      fge 0x7F800000 zero = true :=
  have h : fge 0x3F000000 zero = true ∧ fle 0x3F000000 one = true := by decide
  ⟨fun _ _ => h.1, fun _ _ => h.2, by decide, by decide⟩
theorem witness_VprocIsOneFeedbackStep :
    (edge.voice 0).wp.toNat < Config.cap ∧ (edge.voice 0).buf.wf = true := by decide
theorem witness_VprocIsPopTickPush : ∃ s1 s2 s3, exec (.dpop 1) edge = .next s1 ∧
    exec (.ftick 1 (s1.voice 1).last) s1 = .next s2 ∧
    exec (.dpush 1 (fmul Config.decay
      (fadd ((s1.voice 1).filter.tick (s1.voice 1).last).2 one))) s2 = .next s3 :=
  ⟨_, _, _, rfl, rfl, rfl⟩

theorem vproc_next (v : Fin Config.nv) (y : Word) (s : State) (h : (s.voice v).wp.toNat < Config.cap) :
    ∃ t, exec (.vproc v y) s = .next t ∧ (t.voice v).wp.toNat < Config.cap :=
  ⟨_, storing_of_ok (by simpa using h), by
    rw [State.finishReal_voice, State.vproc_voice_same]
    exact advance_lt _⟩
/-- A run of VPROC commands answers a next state. -/
theorem execAll_vproc (v : Fin Config.nv) (ys : List Word) : ∀ s : State,
    (s.voice v).wp.toNat < Config.cap →
    ∃ t, execAll (ys.map (Instr.vproc v)) s = .next t ∧ (t.voice v).wp.toNat < Config.cap := by
  induction ys with
  | nil => exact fun s h => ⟨s, rfl, h⟩
  | cons y ys ih =>
    intro s h
    obtain ⟨u, hu, hw⟩ := vproc_next v y s h
    obtain ⟨t, ht, hw'⟩ := ih u hw
    exact ⟨t, by simp only [List.map_cons, execAll, hu, ht], hw'⟩

/-- The lag 1, and the lag 0 with `CAP` calls. -/
theorem witness_VprocEchoesAfterTheLag :
    ∀ p ∈ [((1 : BitVec Config.idxw), 0), (0, 4999)], ∃ t u w,
      ((withVoice { edgeVoice with amt := p.1 }).voice 0).buf.wf = true ∧
        (List.replicate p.2 zero).length + 1 ≤ Config.cap ∧
        ((withVoice { edgeVoice with amt := p.1 }).voice 0).amt.toNat =
          ((List.replicate p.2 zero).length + 1) % Config.cap ∧
        exec (.vproc 0 one) (withVoice { edgeVoice with amt := p.1 }) = .next t ∧
        execAll ((List.replicate p.2 zero).map (Instr.vproc 0)) t = .next u ∧
        exec (.vproc 0 zero) u = .next w := by
  intro p hp
  have hv : (withVoice { edgeVoice with amt := p.1 }).voice 0 = { edgeVoice with amt := p.1 } := rfl
  have sides : edgeVoice.buf.wf = true ∧ p.2 + 1 ≤ Config.cap ∧ p.1.toNat = (p.2 + 1) % Config.cap := by
    revert p
    decide
  obtain ⟨t, ht, h1⟩ := vproc_next 0 one (withVoice { edgeVoice with amt := p.1 }) (by
    rw [hv]
    exact (by decide : edgeVoice.wp.toNat < Config.cap))
  obtain ⟨u, hu, h2⟩ := execAll_vproc 0 (List.replicate p.2 zero) t h1
  obtain ⟨w, hw, -⟩ := vproc_next 0 zero u h2
  exact ⟨t, u, w, by rw [hv]; exact sides.1, by simpa using sides.2.1, by rw [hv]; simpa using sides.2.2,
    ht, hu, hw⟩

theorem witness_ZeroDepthIsSilent : SinBound (fun _ => one) ∧ isZero (fneg zero) = true ∧
    isFinite (lfoArgument 0x48D75500) = true :=
  have h : fle negOne one = true ∧ fle one one = true := by decide
  ⟨fun _ _ => h, by decide, by decide⟩
theorem witness_LfoFreezesAtTwoPowTwentyFour :
    State.lfoPhase { start with lfoPhase := 0x4B800000, lfoRate := one } = 0x4B800000 ∧
      State.lfoRate { start with lfoPhase := 0x4B800000, lfoRate := one } = one := by decide
theorem witness_EsampMixesOneSample : edge.BuffersOk := by
  show ∀ v, _
  decide
/-- The clauses at their edges: the REALs next to 1 and -1, 1 and -1, and NaN. -/
theorem witness_ClipIsAsymmetric : fgt 0x3F800001 one = true ∧ flt 0xBF800001 negOne = true ∧
    (fle negOne negOne = true ∧ fle negOne one = true ∧ fle negOne one = true ∧ fle one one = true) ∧
    isNaN 0x7F800001 = true ∧ isNaN 0xFF800000 = false := by decide
/-- A sum of -3.0. -/
theorem witness_EsampOutputIsInRange : State.BuffersOk { start with eDry := 0x40400000 } ∧
    isNaN (State.sample { start with eDry := 0x40400000 } negOne).2 = false ∧
    flt (State.sample { start with eDry := 0x40400000 } negOne).2 negOne = true := by
  refine ⟨by show ∀ v, _; decide, ?_, ?_⟩ <;>
  · rw [sample_of_empty]
    decide
theorem witness_ZeroNoteIsTheBase : PowTwoZero (fun _ => one) ∧ isNaN 0x7F800000 = false ∧
    isNaN 0x00000001 = false := ⟨⟨rfl, rfl⟩, by decide, by decide⟩

/-- The exponents of `P_POW2_INT` and `P_LOG2_POW`. -/
def exponents : List Int := (List.range 254).map fun j : Nat => (j : Int) - 126
/-- A power function with `P_POW2_INT`, and a logarithm with `P_LOG2_POW`. -/
def tablePow2 (x : Word) : Word := ((exponents.find? fun k => realOfInt k == x).map realPowTwo).getD zero
def tableLog2 (x : Word) : Word := ((exponents.find? fun k => realPowTwo k == x).map realOfInt).getD zero
theorem tables_agree : exponents.all (fun k => tablePow2 (realOfInt k) == realPowTwo k &&
    tableLog2 (realPowTwo k) == realOfInt k) = true := by decide +kernel
theorem witness_OctaveConversion : PowTwoInt tablePow2 ∧ LogTwoPow tableLog2 := by
  have all := List.all_eq_true.1 tables_agree
  have mem : ∀ k : Int, -126 ≤ k → k ≤ 127 → k ∈ exponents := fun k h1 h2 =>
    List.mem_map.2 ⟨(k + 126).toNat, by rw [List.mem_range]; omega, by omega⟩
  constructor <;> intro k h1 h2 <;> have := all k (mem k h1 h2) <;> simp at this
  · exact this.1
  · exact this.2

theorem witness_EframeErasesResetValues : ∃ t1 t2,
    SameParams start (withVoice (combVoice one zero one)) ∧ exec .eframe start = .next t1 ∧
      exec .eframe (withVoice (combVoice one zero one)) = .next t2 ∧
      (∃ g, (t1.voice 3).filter = .comb g) ∧ ∃ g, (t2.voice 3).filter = .comb g := by
  refine ⟨_, _, ?_, rfl, rfl, ⟨_, rfl⟩, ⟨_, rfl⟩⟩
  refine ⟨rfl, rfl, rfl, rfl, rfl, ?_⟩
  decide
/-- An SVF voice, for the clauses about that variant. -/
def svfVoice : Voice := { combVoice 0 0 0 with
  filter := .svf ⟨.lowpass, 0x472C4400, 0, 0, one, ⟨[]⟩, ⟨[]⟩⟩, pVcut := 0x447A0000, pVq := one }
/-- The clause for an SVF, where the library has coefficients for the setting. -/
theorem witness_EframeErasesResetValues_svf (k : SvfCoef)
    (h : svfCoef .lowpass 0x472C4400 0x447A0000 one one = some k) : ∃ t,
    exec .eframe (withVoice svfVoice) = .next t ∧ ∃ g, (t.voice 3).filter = .svf g ∧
      svfCoef g.type g.srate g.cut g.q g.gain = some k := by
  let g1 : SvfFilter := (SvfFilter.recompute ⟨.lowpass, 0x472C4400, 0x447A0000, 0, one, ⟨[]⟩, ⟨[]⟩⟩).1
  have r1 := SvfFilter.recompute_setting ⟨.lowpass, 0x472C4400, 0x447A0000, 0, one, ⟨[]⟩, ⟨[]⟩⟩
  have r2 := SvfFilter.recompute_setting { g1 with q := one }
  refine ⟨_, rfl, (SvfFilter.recompute { g1 with q := one }).1, ?_, ?_⟩
  · rw [State.finish_voice, ((withVoice svfVoice).frame_spec).2 3]
    rfl
  · rw [r2.1, r2.2.1, r2.2.2.1, r2.2.2.2.1, r2.2.2.2.2.1]
    show svfCoef g1.type g1.srate g1.cut one g1.gain = some k
    rw [r1.1, r1.2.1, r1.2.2.1, r1.2.2.2.2.1]
    exact h

theorem witness_PwrWritesOneParameter : Reg.writable (.voice 3 .pVoff) = true ∧
    Reg.writable .pBase = true ∧ Reg.writable (.voice 0 .dlWp) = false ∧ Reg.writable .status = false := by
  decide
theorem witness_ParametersAreStaged : (∃ s1, start.writeParam (.voice 3 .pVoff) one = some s1) ∧
    Instr.esamp one ≠ .eframe ∧ (∀ q, Instr.esamp one ≠ .prd q) ∧ (∀ q y, Instr.esamp one ≠ .pwr q y) ∧
    ∃ t, exec (.esamp one) start = .next t :=
  ⟨⟨_, rfl⟩, nofun, nofun, nofun, ⟨_, rfl⟩⟩
/-- A later reset, from a state that is not the reset state: the parameter registers hold new words. -/
theorem witness_ResetValues :
    (∃ s0 g w, State.assertReset (fun _ => one) (fun _ _ => one) edge = State.assertReset g w s0) ∧
      (State.assertReset (fun _ => one) (fun _ _ => one) edge).pDry = one := ⟨⟨_, _, _, rfl⟩, rfl⟩
/-- A reset during a VPROC: the command is gone, and any answer may have come, or none (R185, U12). -/
theorem witness_ResetValues_during (r : Option Response) :
    Reachable (State.resetDuring (fun _ => one) (fun _ _ => one) r
      { edge with cmdIn := [⟨0x30000000, one, 0⟩, ⟨0x40000000, 0, 0⟩] }) ∧
    (State.resetDuring (fun _ => one) (fun _ _ => one) r
      { edge with cmdIn := [⟨0x30000000, one, 0⟩, ⟨0x40000000, 0, 0⟩] }).cmdIn = [⟨0x40000000, 0, 0⟩] ∧
    (State.resetDuring (fun _ => one) (fun _ _ => one) r
      { edge with cmdIn := [⟨0x30000000, one, 0⟩, ⟨0x40000000, 0, 0⟩] }).resp = r :=
  ⟨.resetDuring _ _ _ _ (List.cons_ne_nil _ _), rfl, rfl⟩

/-- A state with the invariant at the edges of its ranges: of the configured variants, pointers and lags
at `CAP - 1`, a word in each buffer, and a DPUSH presented. -/
def fitted : State :=
  { State.reset with
    voices := Vector.ofFn fun v => { edgeVoice with filter := resetFilter v }
    cmdIn := [⟨0x10030000, one, 0⟩] }
theorem fitted_voice (v : Fin Config.nv) : fitted.voice v = { edgeVoice with filter := resetFilter v } := by
  simp [fitted, State.voice]
theorem witness_EveryStepKeepsTheInvariant : fitted.Inv ∧ ∃ t, step fitted = .next t := by
  refine ⟨⟨fun v => ?_, fun i h => ?_⟩, _, rfl⟩
  · rw [fitted_voice]
    have edges : edgeVoice.wp.toNat < Config.cap ∧ edgeVoice.amt.toNat < Config.cap ∧
        edgeVoice.buf.wf = true := by decide
    refine ⟨edges.1, edges.2.1, edges.2.2, ?_⟩
    show (resetFilter v).Fits v
    unfold resetFilter
    split
    · next h => exact h
    · next h => exact ⟨h, rfl, rfl, rfl⟩
  · have e : fitted.status = 0#32 := rfl
    simp [e] at h
/-- A state reached by a command, with a further one presented. -/
theorem witness_LegalCommandsComplete : ∃ s, Reachable s ∧ s.cmdIn = [⟨0x51000000, one, 0⟩] ∧
    decode ⟨0x51000000, one, 0⟩ = .ok (.esamp one) ∧ (s.voice 0).wp = 1 := by
  let s0 := State.enqueue (State.enqueue State.reset ⟨0x10000000, one, 0⟩) ⟨0x51000000, one, 0⟩
  have r : Reachable s0 := (Reachable.reset.enqueue _).enqueue _
  obtain ⟨t, ht⟩ : ∃ t, step s0 = .next t := ⟨_, rfl⟩
  refine ⟨t, r.step ht, ?_⟩
  injection ht.symm.trans (show step s0 = .next _ from rfl) with e
  subst e
  exact ⟨rfl, by decide, rfl⟩
theorem witness_IndicesStayInRange : Reachable (State.reset.enqueue ⟨0, 0, 0⟩) := Reachable.reset.enqueue _
/-- An SVF voice is reachable when one is configured. -/
theorem witness_FilterVariantNeverChanges : Reachable State.reset ∧
    (Config.filterVariant 0 = .svf → ∃ g, (State.reset.voice 0).filter = .svf g) := by
  refine ⟨.reset, fun h => ?_⟩
  rw [State.reset_voice]
  show ∃ g, resetFilter 0 = .svf g
  rw [resetFilter, h]
  exact ⟨_, rfl⟩
/-- A step from a state with a flag set; and one that sets it, where the library fails on the setting. -/
theorem witness_StatusIsSticky :
    (∃ t, step { start with status := 0x00000008, cmdIn := [⟨0x40000000, 0, 0⟩] } = .next t) ∧
    coefErr 0x00000008 3 = true ∧ (svfCoef .lowpass 0x472C4400 one 0 one = none →
      ∃ t, step { withVoice svfVoice with cmdIn := [⟨0x21030000, one, 0⟩] } = .next t ∧
        coefErr (withVoice svfVoice).status 3 = false ∧ coefErr t.status 3 = true) := by
  refine ⟨⟨_, rfl⟩, by decide, fun h => ⟨_, rfl, by decide, ?_⟩⟩
  show coefErr (recordCoefErr (SvfFilter.recompute ⟨.lowpass, 0x472C4400, one, 0, one, ⟨[]⟩, ⟨[]⟩⟩).2 3 0) 3
    = true
  rw [SvfFilter.recompute, h]
  decide
theorem witness_EveryRegisterHasItsWriters : ∃ t, exec (.esamp one) edge = .next t ∧
    ∃ g h, (edge.voice 3).filter = .comb g ∧ (t.voice 3).filter = .comb h :=
  ⟨_, rfl, _, _, rfl, rfl⟩
/-- An SVF before and after each kind of command that its registers name. -/
theorem witness_EveryRegisterHasItsWriters_svf :
    ∀ i ∈ [Instr.fsetc 3 one, .fsetq 3 one, .ftick 3 one, .eframe, .esamp one],
      ∃ t g h, exec i (withVoice svfVoice) = .next t ∧ ((withVoice svfVoice).voice 3).filter = .svf g ∧
        (t.voice 3).filter = .svf h := by
  intro i hi
  simp only [List.mem_cons, List.not_mem_nil, or_false] at hi
  rcases hi with rfl | rfl | rfl | rfl | rfl <;> exact ⟨_, _, _, rfl, rfl, rfl⟩
/-- Two NaN patterns, and a state with a NaN in it whose REALs are values. -/
theorem witness_NaNPatternsOfOperandsDoNotMatter : isNaN 0x7F800001 = true ∧ isNaN 0xFFFFFFFF = true := by
  decide
theorem witness_EveryStepKeepsOneNaN :
    State.BuffersOk { start with lfoRate := Config.nan, cmdIn := [⟨0x10000000, 0xFFC00001, 0⟩] } ∧
    State.OneNaN { start with lfoRate := Config.nan, cmdIn := [⟨0x10000000, 0xFFC00001, 0⟩] } ∧
    ∃ t, step { start with lfoRate := Config.nan, cmdIn := [⟨0x10000000, 0xFFC00001, 0⟩] } = .next t := by
  have z : real 0 = 0 ∧ real one = one := by decide
  have vs : ∀ v, State.voice { start with lfoRate := Config.nan, cmdIn := [⟨0x10000000, 0xFFC00001, 0⟩] } v =
      combVoice 0 0x3F800000 0 := fun v => by simp [State.voice, start, withVoice]
  refine ⟨fun v => ?_, ⟨z.1, real_nan, z.1, z.1, fun v => ?_⟩, _, rfl⟩
  · rw [vs]
    exact ⟨by decide, by decide⟩
  · rw [vs]
    refine ⟨fun i => ?_, z.1, ⟨z.1, z.2, z.1⟩, z.1, z.1⟩
    show real (Memory.readWord [] i) = Memory.readWord [] i
    rw [Memory.readWord_nil]
    exact z.1
/-- Two states that differ in the other voices and in every global register. -/
theorem witness_VoicesAreIsolated : voiceOf (.vproc 2 one) = some 2 ∧
    (∃ t, exec (.vproc 2 one) start = .next t) ∧
    (∃ t, exec (.vproc 2 one) ({ start with pDry := one, lfoPhase := one }.setVoice 1 edgeVoice) = .next t) ∧
    start.voice 2 = State.voice ({ start with pDry := one, lfoPhase := one }.setVoice 1 edgeVoice) 2 ∧
    start.serial = State.serial ({ start with pDry := one, lfoPhase := one }.setVoice 1 edgeVoice) :=
  ⟨rfl, ⟨_, rfl⟩, ⟨_, rfl⟩, rfl, rfl⟩
/-- A tie, and the edge of overflow from both sides. -/
theorem witness_RoundingIsNearestEven : 0 < 1 ∧ roundMag (2 ^ 24 + 1) 1 < infMag ∧
    |(unitsOfMag (roundMag (2 ^ 24 + 1) 1) * 1 : Int) - ↑(2 ^ 24 + 1 : Nat)| =
      |(unitsOfMag 0x01000001 * 1 : Int) - ↑(2 ^ 24 + 1 : Nat)| ∧ 0x01000001 ≠ roundMag (2 ^ 24 + 1) 1 ∧
    roundMag ((2 ^ 25 - 1) * 2 ^ 252) 1 = infMag ∧ roundMag ((2 ^ 25 - 1) * 2 ^ 252 - 1) 1 = infMag - 1 := by
  decide +kernel
theorem witness_RoundingKeepsReals : 0 < 3 ∧ infMag - 1 < infMag ∧
    roundMag (unitsOfMag (infMag - 1) * 3) 3 = infMag - 1 := by decide +kernel
theorem witness_ArithmeticRoundsOnce : isFinite 0x7F7FFFFF = true ∧ isFinite 0x80000001 = true ∧
    isZero 0x80000001 = false := by decide
theorem witness_ArithmeticSpecialCases : isNaN 0x7F800001 = true ∧
    (isFinite 0x00000001 = true ∧ isZero 0x00000001 = false ∧ isZero 0x80000000 = true) ∧
    (isInf 0x7F800000 = true ∧ isInf 0xFF800000 = true ∧ signBit 0x7F800000 ≠ signBit 0xFF800000) ∧
    (isNaN 0x7F7FFFFF = false ∧ isFinite 0x7F7FFFFF = true ∧ isZero 0x00000001 = false) ∧
    (isNaN (fmul 0x80000001 0x00000001) = false ∧ isNaN (fdiv 0x80000000 one) = false) ∧
    (value one + value negOne = 0 ∧ value (fneg zero) + value (fneg zero) = 0 ∧
      value 0x80000001 + value 0x00000002 ≠ 0) := by decide +kernel
theorem witness_ComparisonsAreTheValues : isFinite 0x7F7FFFFF = true ∧ isFinite 0xFF7FFFFF = true ∧
    isNaN 0xFFFFFFFF = true := by decide
/-- Exact halves of both signs. -/
theorem witness_RoundIntIsNearest : isFinite 0x3F000000 = true ∧
    roundInt .away 0xBF000000 = .int (-1) ∧ roundInt .even 0xBF000000 = .int 0 ∧
    2 * |(-1) * 2 ^ 149 - value 0xBF000000| = 2 ^ 149 := by decide +kernel

end Sys2Proof.Tests
end

section
/-!
The datapath holds REALs: with one NaN value, what an operation stores is again a value (R19).
`HasOneNaN`, `Filter.OneNaN`, `Voice.OneNaN` and `State.OneNaN` get one rule for each operation of
Machine/Ops.lean; the statements about reset, steps and NaN operands are assembled from those.
-/

namespace Sys2Proof.Machine

/-! ### Words -/

theorem hasOneNaN_real (x : Word) : HasOneNaN (real x) := real_real x

theorem hasOneNaN_fadd (p q : Word) : HasOneNaN (fadd p q) := real_fadd p q

theorem hasOneNaN_fmul (p q : Word) : HasOneNaN (fmul p q) := real_fmul p q

theorem hasOneNaN_zero : HasOneNaN 0 := real_of_not_nan (by decide)

theorem hasOneNaN_combAReset : HasOneNaN Config.combAReset := by
  unfold Config.combAReset
  split <;> exact real_of_not_nan (by decide)

/-! ### Filters -/

theorem Filter.OneNaN.tick {f : Filter} (h : f.OneNaN) (x : Word) : (f.tick x).1.OneNaN := by
  cases f with
  | comb g =>
    obtain ⟨hb, ha, -⟩ := h
    exact ⟨hb, ha, hasOneNaN_fadd _ _⟩
  | svf g => exact h

/-- A recomputation of the coefficients leaves the setting, where a filter's REALs are. -/
theorem SvfFilter.oneNaN_recompute {f : SvfFilter} (h : (Filter.svf f).OneNaN) :
    (Filter.svf f.recompute.1).OneNaN := by
  obtain ⟨-, hrate, hcut, hq, hgain, -⟩ := f.recompute_setting
  simpa only [Filter.OneNaN, hrate, hcut, hq, hgain] using h

theorem Filter.OneNaN.setCutoff {f : Filter} (h : f.OneNaN) {c : Word} (hc : HasOneNaN c) :
    (f.setCutoff c).1.OneNaN := by
  cases f with
  | comb g =>
    obtain ⟨-, -, hy⟩ := h
    exact ⟨real_realExp _, real_fsub _ _, hy⟩
  | svf g =>
    obtain ⟨hrate, -, hq, hgain⟩ := h
    exact SvfFilter.oneNaN_recompute ⟨hrate, hc, hq, hgain⟩

theorem Filter.OneNaN.setQ {f : Filter} (h : f.OneNaN) {q : Word} (hq : HasOneNaN q) :
    (f.setQ q).1.OneNaN := by
  cases f with
  | comb g => exact h
  | svf g =>
    obtain ⟨hrate, hcut, -, hgain⟩ := h
    exact SvfFilter.oneNaN_recompute ⟨hrate, hcut, hq, hgain⟩

/-- A filter after reset: zeros and the configuration's REALs (R37, R38). -/
theorem oneNaN_resetFilter (v : Fin Config.nv) : (resetFilter v).OneNaN := by
  unfold resetFilter
  split
  · exact ⟨hasOneNaN_zero, hasOneNaN_combAReset, hasOneNaN_zero⟩
  · exact ⟨real_of_isPosFinite isPosFinite_fs, hasOneNaN_zero, hasOneNaN_zero, real_svfGain⟩

/-! ### Voices -/

theorem Voice.OneNaN.filter {c : Voice} (h : c.OneNaN) : c.filter.OneNaN := h.2.2.1

theorem Voice.OneNaN.setFilter {c : Voice} (h : c.OneNaN) {f : Filter} (hf : f.OneNaN) :
    ({ c with filter := f } : Voice).OneNaN := by
  obtain ⟨hbuf, hlast, -, hgain, hnote⟩ := h
  exact ⟨hbuf, hlast, hf, hgain, hnote⟩

theorem Voice.OneNaN.pop {c : Voice} (h : c.OneNaN) : c.pop.1.OneNaN := by
  obtain ⟨hbuf, -, hfilter, hgain, hnote⟩ := h
  exact ⟨hbuf, hbuf _, hfilter, hgain, hnote⟩

theorem Voice.OneNaN.setf {c : Voice} (h : c.OneNaN) (u : BitVec Config.idxw) (f rate : Word) :
    (c.setf u f rate).OneNaN := h

/-- A pushed REAL is read back as it was, and no other word changes. -/
theorem Voice.OneNaN.push {c : Voice} (h : c.OneNaN) (hwp : c.wp.toNat < Config.cap)
    (hwf : c.buf.wf = true) {x : Word} (hx : HasOneNaN x) : (c.push x).OneNaN := by
  obtain ⟨hbuf, hlast, hfilter, hgain, hnote⟩ := h
  refine ⟨fun i => ?_, hlast, hfilter, hgain, hnote⟩
  rw [Voice.push_buf]
  by_cases hi : i = c.wp.toNat
  · rw [hi, Memory.readWord_writeWord_same x hwf hwp]
    exact hx
  · rw [Memory.readWord_writeWord_of_ne _ _ hi]
    exact hbuf i

theorem Voice.OneNaN.process {c : Voice} (h : c.OneNaN) (hwp : c.wp.toNat < Config.cap)
    (hwf : c.buf.wf = true) (x : Word) : (c.process x).1.OneNaN :=
  (h.pop.setFilter (h.pop.filter.tick _)).push hwp hwf (hasOneNaN_fmul _ _)

theorem Voice.OneNaN.framed {c : Voice} (h : c.OneNaN) (wet : Word) : (framedVoice wet c).OneNaN := by
  obtain ⟨hbuf, hlast, hfilter, -, hnote⟩ := h
  exact ⟨hbuf, hlast, (hfilter.setCutoff (hasOneNaN_real _)).setQ (hasOneNaN_real _),
    hasOneNaN_fmul _ _, hnote⟩

theorem Voice.OneNaN.noted {c : Voice} (h : c.OneNaN) (base : Word) : (notedVoice base c).OneNaN := by
  obtain ⟨hbuf, hlast, hfilter, hgain, -⟩ := h
  exact ⟨hbuf, hlast, hfilter, hgain, hasOneNaN_fadd _ _⟩

theorem Voice.OneNaN.sampled {c : Voice} (h : c.OneNaN) (hwp : c.wp.toNat < Config.cap)
    (hwf : c.buf.wf = true) (serial : Nat) (x lv : Word) (v : Fin Config.nv) :
    (sampledVoice serial x lv v c).OneNaN :=
  (h.setf _ _ _).process hwp hwf x

/-- A parameter register is outside the datapath (R50): writing one keeps the voice's REALs. -/
theorem Voice.OneNaN.writeParam {c d : Voice} {k : VoiceReg} {x : Word} (h : c.OneNaN)
    (e : c.writeParam k x = some d) : d.OneNaN := by
  cases k <;> cases e <;> exact h

theorem oneNaN_resetVoice (w : Fin Config.nv → VoiceParam → Word) (v : Fin Config.nv) :
    (resetVoice w v).OneNaN := by
  refine ⟨fun i => ?_, hasOneNaN_zero, oneNaN_resetFilter v, hasOneNaN_zero, hasOneNaN_zero⟩
  show HasOneNaN (Memory.readWord [] i)
  rw [Memory.readWord_nil]
  exact hasOneNaN_zero

/-! ### The state -/

theorem State.OneNaN.voice {s : State} (h : s.OneNaN) (v : Fin Config.nv) : (s.voice v).OneNaN :=
  h.2.2.2.2 v

theorem State.OneNaN.finish {s : State} (h : s.OneNaN) (r : Word) : (s.finish r).OneNaN := h

theorem State.OneNaN.finishReal {s : State} (h : s.OneNaN) (x : Word) : (s.finishReal x).OneNaN := h

theorem State.OneNaN.reject {s : State} (h : s.OneNaN) : s.reject.OneNaN := h

theorem State.OneNaN.takePacket {s : State} (h : s.OneNaN) : s.takePacket.OneNaN := h

theorem State.OneNaN.setVoice {s : State} (h : s.OneNaN) (v : Fin Config.nv) {c : Voice}
    (hc : c.OneNaN) : (s.setVoice v c).OneNaN := by
  obtain ⟨hphase, hrate, hamt, hdry, hvoices⟩ := h
  refine ⟨hphase, hrate, hamt, hdry, fun u => ?_⟩
  rw [State.setVoice_voice]
  split
  · exact hc
  · exact hvoices u

theorem State.OneNaN.storeSetting {s : State} (h : s.OneNaN) (v : Fin Config.nv) {r : Filter × Bool}
    (hr : r.1.OneNaN) : (s.storeSetting v r).OneNaN :=
  h.setVoice v ((h.voice v).setFilter hr)

/-- The LFO's next phase is a sum (R131). -/
theorem State.OneNaN.lnext {s : State} (h : s.OneNaN) : s.lnext.1.OneNaN := by
  obtain ⟨-, hrate, hamt, hdry, hvoices⟩ := h
  exact ⟨hasOneNaN_fadd _ _, hrate, hamt, hdry, hvoices⟩

theorem State.OneNaN.lsetf {s : State} (h : s.OneNaN) {f : Word} (hf : HasOneNaN f) :
    (s.lsetf f).OneNaN := by
  obtain ⟨hphase, -, hamt, hdry, hvoices⟩ := h
  exact ⟨hphase, hf, hamt, hdry, hvoices⟩

theorem State.OneNaN.lseta {s : State} (h : s.OneNaN) {m : Word} (hm : HasOneNaN m) :
    (s.lseta m).OneNaN := by
  obtain ⟨hphase, hrate, -, hdry, hvoices⟩ := h
  exact ⟨hphase, hrate, hm, hdry, hvoices⟩

/-- Two states with the same LFO and dry latch: the REALs of the second are values if those of the
first are and those of the second's voices. -/
theorem State.OneNaN.of_sameGlobals {s t : State} (h : s.OneNaN) (e : SameGlobals s t)
    (hvoices : ∀ v, (t.voice v).OneNaN) : t.OneNaN := by
  obtain ⟨hphase, hrate, hamt, hdry, -⟩ := h
  obtain ⟨-, -, -, -, -, ephase, erate, eamt, edry, -⟩ := e
  exact ⟨by rwa [ephase], by rwa [erate], by rwa [eamt], by rwa [edry], hvoices⟩

/-- EFRAME loads REALs into the latches, the LFO and the filter settings (R142). -/
theorem State.OneNaN.frame {s : State} (h : s.OneNaN) : s.frame.OneNaN := by
  obtain ⟨same, voices⟩ := s.frame_spec
  have globals : (framedGlobals s).OneNaN := by
    obtain ⟨hphase, -, -, -, hvoices⟩ := h
    exact ⟨hphase, hasOneNaN_real _, hasOneNaN_real _, hasOneNaN_real _, hvoices⟩
  refine globals.of_sameGlobals same fun v => ?_
  rw [voices v]
  exact ((h.voice v).framed _).noted _

/-- The loop of ESAMP, where every voice's push goes to a word that exists (R144). -/
theorem State.OneNaN.sample {s : State} (h : s.OneNaN) (hb : s.BuffersOk) (x : Word) :
    (s.sample x).1.OneNaN := by
  obtain ⟨same, -, voices, -⟩ := s.sample_spec x
  refine h.lnext.of_sameGlobals same fun v => ?_
  rw [voices v]
  exact (h.voice v).sampled (hb v).1 (hb v).2 _ _ _ _

theorem State.OneNaN.writeParam {s t : State} {r : Reg} {x : Word} (h : s.OneNaN)
    (e : s.writeParam r x = some t) : t.OneNaN := by
  cases r with
  | voice v k =>
    obtain ⟨d, hd, rfl⟩ := Option.map_eq_some_iff.1 e
    exact h.setVoice v ((h.voice v).writeParam hd)
  | _ => cases e <;> exact h

theorem oneNaN_resetWith (g : GlobalParam → Word) (w : Fin Config.nv → VoiceParam → Word) :
    (State.resetWith g w).OneNaN := by
  refine ⟨hasOneNaN_zero, hasOneNaN_zero, hasOneNaN_zero, hasOneNaN_zero, fun v => ?_⟩
  rw [State.resetWith_voice]
  exact oneNaN_resetVoice w v

/-! ### Every command -/

/-- Each command keeps the datapath's REALs values, from buffers that are in range and canonical. -/
theorem State.OneNaN.exec {s t : State} (h : s.OneNaN) (hb : s.BuffersOk) (i : Instr)
    (e : exec i s = .next t) : t.OneNaN := by
  cases i with
  | dpush v x =>
    obtain ⟨-, rfl⟩ := storing_eq_next.1 e
    exact (h.setVoice v ((h.voice v).push (hb v).1 (hb v).2 (hasOneNaN_real x))).finish 0
  | dpop v =>
    obtain rfl := Host.Outcome.next.inj e
    exact (h.setVoice v (h.voice v).pop).finishReal _
  | dsetf v f rate =>
    obtain rfl := Host.Outcome.next.inj e
    exact (h.setVoice v ((h.voice v).setf _ f rate)).finish 0
  | ftick v x =>
    obtain rfl := Host.Outcome.next.inj e
    exact (h.setVoice v ((h.voice v).setFilter ((h.voice v).filter.tick x))).finishReal _
  | fsetc v c =>
    obtain rfl := Host.Outcome.next.inj e
    exact (h.storeSetting v ((h.voice v).filter.setCutoff (hasOneNaN_real c))).finish 0
  | fsetq v q =>
    obtain rfl := Host.Outcome.next.inj e
    exact (h.storeSetting v ((h.voice v).filter.setQ (hasOneNaN_real q))).finish 0
  | vproc v x =>
    obtain ⟨-, rfl⟩ := storing_eq_next.1 e
    exact (h.setVoice v ((h.voice v).process (hb v).1 (hb v).2 x)).finishReal _
  | lnext =>
    obtain rfl := Host.Outcome.next.inj e
    exact h.lnext.finishReal _
  | lsetf f =>
    obtain rfl := Host.Outcome.next.inj e
    exact (h.lsetf (hasOneNaN_real f)).finish 0
  | lseta m =>
    obtain rfl := Host.Outcome.next.inj e
    exact (h.lseta (hasOneNaN_real m)).finish 0
  | eframe =>
    obtain rfl := Host.Outcome.next.inj e
    exact h.frame.finish 0
  | esamp x =>
    obtain ⟨-, rfl⟩ := storing_eq_next.1 e
    exact (h.sample hb x).finishReal _
  | pwr reg x =>
    obtain rfl := Host.Outcome.next.inj e
    split
    · next u hu => exact (h.writeParam hu).finish 0
    · exact h.reject
  | prd reg =>
    obtain rfl := Host.Outcome.next.inj e
    exact h.finish _

/-- What a step that answers a next state can be: idle, the refusal of an illegal packet, or a command
run from the state with its packet taken (R80, R81, R175). -/
theorem step_cases {s t : State} (e : step s = .next t) :
    t = s ∨ t = s.takePacket.reject ∨ ∃ i, exec i s.takePacket = .next t := by
  unfold step at e
  split at e
  · cases e; exact .inl rfl
  · split at e
    · cases e; exact .inr (.inl rfl)
    · next i _ => exact .inr (.inr ⟨i, e⟩)

/-- Settles O50: every stored REAL is an operand read as a REAL, a result of an operation on REALs, or
was stored before. -/
theorem everyStepKeepsOneNaN : Obligations.EveryStepKeepsOneNaN := by
  intro s t hb h e
  obtain rfl | rfl | ⟨i, e⟩ := step_cases e
  · exact h
  · exact h.takePacket.reject
  · exact h.takePacket.exec hb i e

/-- Settles O49: every reset leaves the words of `State.resetWith` in the datapath. -/
theorem resetHasOneNaN : Obligations.ResetHasOneNaN :=
  ⟨oneNaN_resetWith _ _, fun g w _ => ⟨oneNaN_resetWith g w, fun _ => oneNaN_resetWith g w⟩⟩

end Sys2Proof.Machine
end

section
/-!
No command but PWR tells one NaN operand from another (R19): each reads its operand as the REAL that the
pattern stands for.
-/

namespace Sys2Proof.Machine

/-! ### Operations that take the REAL a pattern stands for -/

theorem tunedAmount_real_left (ties : RoundTies) (u : BitVec Config.idxw) (f rate : Word) :
    tunedAmount ties u (real f) rate = tunedAmount ties u f rate := by
  by_cases h : isNaN f = true
  · simp [tunedAmount, h]
  · rw [real_of_not_nan (by simpa using h)]

theorem tunedAmount_real_right (ties : RoundTies) (u : BitVec Config.idxw) (f rate : Word) :
    tunedAmount ties u f (real rate) = tunedAmount ties u f rate := by
  by_cases h : isNaN rate = true
  · simp [tunedAmount, h]
  · rw [real_of_not_nan (by simpa using h)]

theorem Filter.tick_real (f : Filter) (x : Word) : f.tick (real x) = f.tick x := by
  cases f <;> simp [Filter.tick, CombFilter.output]

theorem State.tick_real (s : State) (v : Fin Config.nv) (x : Word) :
    s.tick v (real x) = s.tick v x := by
  simp only [State.tick, Filter.tick_real]

theorem State.vproc_real (s : State) (v : Fin Config.nv) (x : Word) :
    s.vproc v (real x) = s.vproc v x := by
  simp only [State.vproc, Voice.process, fadd_real_right]

theorem State.sample_real (s : State) (x : Word) : s.sample (real x) = s.sample x := by
  have pass : sampleVoice (real x) = sampleVoice x := by
    funext lv acc v
    simp only [sampleVoice, State.vproc_real]
  simp only [State.sample, pass, fmul_real_right]

/-! ### Commands -/

/-- A command that treats a pattern as it treats the REAL it stands for has one outcome for all NaN
patterns. -/
theorem exec_eq_of_nan {s : State} {cmd : Word → Instr}
    (reads : ∀ x, exec (cmd (real x)) s = exec (cmd x) s) {x y : Word} (hx : isNaN x = true)
    (hy : isNaN y = true) : exec (cmd x) s = exec (cmd y) s := by
  rw [← reads x, ← reads y, real_eq_of_nan hx hy]

theorem exec_dpush_real (s : State) (v : Fin Config.nv) (x : Word) :
    exec (.dpush v (real x)) s = exec (.dpush v x) s := by
  simp only [exec, execDpush, real_real]

theorem exec_dsetf_real_left (s : State) (v : Fin Config.nv) (rate f : Word) :
    exec (.dsetf v (real f) rate) s = exec (.dsetf v f rate) s := by
  simp only [exec, execDsetf, State.setf, Voice.setf, tunedAmount_real_left]

theorem exec_dsetf_real_right (s : State) (v : Fin Config.nv) (f rate : Word) :
    exec (.dsetf v f (real rate)) s = exec (.dsetf v f rate) s := by
  simp only [exec, execDsetf, State.setf, Voice.setf, tunedAmount_real_right]

theorem exec_ftick_real (s : State) (v : Fin Config.nv) (x : Word) :
    exec (.ftick v (real x)) s = exec (.ftick v x) s := by
  simp only [exec, execFtick, State.tick_real]

theorem exec_fsetc_real (s : State) (v : Fin Config.nv) (c : Word) :
    exec (.fsetc v (real c)) s = exec (.fsetc v c) s := by
  simp only [exec, execFsetc, real_real]

theorem exec_fsetq_real (s : State) (v : Fin Config.nv) (q : Word) :
    exec (.fsetq v (real q)) s = exec (.fsetq v q) s := by
  simp only [exec, execFsetq, real_real]

theorem exec_vproc_real (s : State) (v : Fin Config.nv) (x : Word) :
    exec (.vproc v (real x)) s = exec (.vproc v x) s := by
  simp only [exec, execVproc, State.vproc_real]

theorem exec_lsetf_real (s : State) (f : Word) : exec (.lsetf (real f)) s = exec (.lsetf f) s := by
  simp only [exec, execLsetf, real_real]

theorem exec_lseta_real (s : State) (m : Word) : exec (.lseta (real m)) s = exec (.lseta m) s := by
  simp only [exec, execLseta, real_real]

theorem exec_esamp_real (s : State) (x : Word) : exec (.esamp (real x)) s = exec (.esamp x) s := by
  simp only [exec, execEsamp, State.sample_real]

/-- Settles O48: each command treats a pattern as the REAL it stands for. -/
theorem naNPatternsOfOperandsDoNotMatter : Obligations.NaNPatternsOfOperandsDoNotMatter :=
  fun s v _ _ z hx hy =>
    ⟨exec_eq_of_nan (exec_dpush_real s v) hx hy,
      exec_eq_of_nan (cmd := (.dsetf v · z)) (exec_dsetf_real_left s v z) hx hy,
      exec_eq_of_nan (exec_dsetf_real_right s v z) hx hy,
      exec_eq_of_nan (exec_ftick_real s v) hx hy, exec_eq_of_nan (exec_fsetc_real s v) hx hy,
      exec_eq_of_nan (exec_fsetq_real s v) hx hy, exec_eq_of_nan (exec_vproc_real s v) hx hy,
      exec_eq_of_nan (exec_lsetf_real s) hx hy, exec_eq_of_nan (exec_lseta_real s) hx hy,
      exec_eq_of_nan (exec_esamp_real s) hx hy⟩

end Sys2Proof.Machine
end

section
/-!
The command words of the opcode map decode to their operations (R77, R79, R80), and a step runs what the
decoder answers (R23, R75).
-/

namespace Sys2Proof

/-! ### The decoder on a command word -/

/-- A command word as the sum of its fields in place (R76). -/
theorem commandWord_eq_add (op v : BitVec 8) (n : BitVec 16) :
    commandWord op v n = op.setWidth 32 <<< 24 + v.setWidth 32 <<< 16 + n.setWidth 32 := by
  apply BitVec.eq_of_toNat_eq
  have := op.isLt
  have := v.isLt
  have := n.isLt
  rw [toNat_commandWord]
  simp only [BitVec.toNat_add, BitVec.toNat_shiftLeft, BitVec.toNat_setWidth, Nat.shiftLeft_eq]
  omega

/-- The row of an opcode decides what the rest of the word says (R80). -/
theorem decode_commandWord (op : Opcode) (v : BitVec 8) (n : BitVec 16) (a b : Word) :
    decode ⟨commandWord op.toByte v n, a, b⟩ = decodeAs ⟨commandWord op.toByte v n, a, b⟩ op := by
  simp only [decode, opField_commandWord, opcodeOf_toByte]

theorem voiceOperand_voiceCommand (op : Opcode) (v : Fin Config.nv) :
    voiceOperand (voiceCommand op v) = .ok v :=
  voiceOperand_eq_ok.2 ⟨nField_commandWord _ _ _, by
    rw [voiceCommand, vField_commandWord, toNat_voiceByte]⟩

theorem noOperand_globalCommand (op : Opcode) (i : Instr) : noOperand (globalCommand op) i = .ok i :=
  noOperand_eq_ok.2 ⟨vField_commandWord _ _ _, nField_commandWord _ _ _, rfl⟩

theorem registerOperand_registerCommand (op : Opcode) (r : Reg) :
    registerOperand (registerCommand op r) = .ok r :=
  registerOperand_eq_ok.2 ⟨vField_commandWord _ _ _, by
    rw [registerCommand, nField_commandWord, regOfNumber_number]⟩

theorem writableOperand_registerCommand (op : Opcode) {r : Reg} (h : r.writable = true) :
    writableOperand (registerCommand op r) = .ok r := by
  simp only [writableOperand, registerOperand_registerCommand, h, if_true]

/-- The V-format command word of an opcode decodes with its row's operands, whatever they are. -/
theorem decode_voiceCommand (op : Opcode) (v : Fin Config.nv) (a b : Word) :
    decode ⟨voiceCommand op v, a, b⟩ = decodeAs ⟨voiceCommand op v, a, b⟩ op :=
  decode_commandWord op _ _ a b

theorem decode_globalCommand (op : Opcode) (a b : Word) :
    decode ⟨globalCommand op, a, b⟩ = decodeAs ⟨globalCommand op, a, b⟩ op :=
  decode_commandWord op _ _ a b

theorem decode_registerCommand (op : Opcode) (r : Reg) (a b : Word) :
    decode ⟨registerCommand op r, a, b⟩ = decodeAs ⟨registerCommand op r, a, b⟩ op :=
  decode_commandWord op _ _ a b

/-! ### The words of the table (R79, R87) -/

theorem voiceCommand_eq_add (op : Opcode) (v : Fin Config.nv) :
    voiceCommand op v = op.toByte.setWidth 32 <<< 24 + BitVec.ofNat 32 v.val <<< 16 := by
  have hv : (BitVec.ofNat 8 v.val).setWidth 32 = BitVec.ofNat 32 v.val := by
    apply BitVec.eq_of_toNat_eq
    have : v.val < 4 := v.isLt
    simp only [BitVec.toNat_setWidth, BitVec.toNat_ofNat]
    omega
  rw [voiceCommand, commandWord_eq_add, hv]
  exact BitVec.add_zero _

theorem registerCommand_eq_add (op : Opcode) (r : Reg) :
    registerCommand op r = op.toByte.setWidth 32 <<< 24 + r.number.setWidth 32 := by
  rw [registerCommand, commandWord_eq_add]
  exact congrArg (· + r.number.setWidth 32) (BitVec.add_zero _)

/-- The word that the table gives a V-format opcode and a voice decodes by that opcode's row. -/
theorem decode_voiceWord {base : Word} (op : Opcode) (hbase : op.toByte.setWidth 32 <<< 24 = base)
    (v : Fin Config.nv) (a b : Word) {i : Instr}
    (hrow : decodeAs ⟨voiceCommand op v, a, b⟩ op = .ok i) :
    decode ⟨base + BitVec.ofNat 32 v.val <<< 16, a, b⟩ = .ok i := by
  rw [← hbase, ← voiceCommand_eq_add, decode_voiceCommand, hrow]

theorem decode_globalWord {word : Word} (op : Opcode) (hword : globalCommand op = word) (a b : Word)
    {i : Instr} (hrow : decodeAs ⟨globalCommand op, a, b⟩ op = .ok i) :
    decode ⟨word, a, b⟩ = .ok i := by
  rw [← hword, decode_globalCommand, hrow]

theorem decode_registerWord {base : Word} (op : Opcode) (hbase : op.toByte.setWidth 32 <<< 24 = base)
    (r : Reg) (a b : Word) {i : Instr} (hrow : decodeAs ⟨registerCommand op r, a, b⟩ op = .ok i) :
    decode ⟨base + r.number.setWidth 32, a, b⟩ = .ok i := by
  rw [← hbase, ← registerCommand_eq_add, decode_registerCommand, hrow]

/-- A V-format row takes the voice of its command word. -/
theorem map_voiceOperand (op : Opcode) (v : Fin Config.nv) (f : Fin Config.nv → Instr) :
    (voiceOperand (voiceCommand op v)).map f = .ok (f v) := by
  rw [voiceOperand_voiceCommand]
  rfl

/-- Settles O6: each word is the encoder's, so its opcode's row decides, and the row takes the voice or
register of the word and the operands it names. -/
theorem commandWordsOfTheTable : Obligations.CommandWordsOfTheTable := by
  intro v reg a b
  refine ⟨?dpush, ?dpop, ?dsetf, ?ftick, ?fsetc, ?fsetq, ?vproc, ?lnext, ?lsetf, ?lseta, ?eframe,
    ?esamp, ?pwr, ?prd⟩
  case dpush => exact decode_voiceWord .dpush (by decide) v a b (map_voiceOperand _ v _)
  case dpop => exact decode_voiceWord .dpop (by decide) v a b (map_voiceOperand _ v _)
  case dsetf => exact decode_voiceWord .dsetf (by decide) v a b (map_voiceOperand _ v _)
  case ftick => exact decode_voiceWord .ftick (by decide) v a b (map_voiceOperand _ v _)
  case fsetc => exact decode_voiceWord .fsetc (by decide) v a b (map_voiceOperand _ v _)
  case fsetq => exact decode_voiceWord .fsetq (by decide) v a b (map_voiceOperand _ v _)
  case vproc => exact decode_voiceWord .vproc (by decide) v a b (map_voiceOperand _ v _)
  case lnext => exact decode_globalWord .lnext (by decide) a b (noOperand_globalCommand _ _)
  case lsetf => exact decode_globalWord .lsetf (by decide) a b (noOperand_globalCommand _ _)
  case lseta => exact decode_globalWord .lseta (by decide) a b (noOperand_globalCommand _ _)
  case eframe => exact decode_globalWord .eframe (by decide) a b (noOperand_globalCommand _ _)
  case esamp => exact decode_globalWord .esamp (by decide) a b (noOperand_globalCommand _ _)
  case pwr =>
    intro hw
    refine decode_registerWord .pwr (by decide) reg a b ?_
    simp only [decodeAs, writableOperand_registerCommand _ hw, Except.map]
  case prd =>
    refine decode_registerWord .prd (by decide) reg a b ?_
    simp only [decodeAs, registerOperand_registerCommand, Except.map]

namespace Machine

/-- A step with a legal packet at the port runs its instruction from the state with the packet taken. -/
theorem step_of_decode {s : State} {p : Packet} {rest : List Packet} {i : Instr}
    (hport : s.cmdIn = p :: rest) (hdecode : decode p = .ok i) :
    step s = exec i { s with cmdIn := rest } := by
  have next : s.nextPacket = some p := by simp [State.nextPacket, hport]
  have taken : s.takePacket = { s with cmdIn := rest } := by simp [State.takePacket, hport]
  simp only [step, next, hdecode, taken]

/-- Settles O8: the port's first packet is the one that a step decodes. -/
theorem stepRunsTheDecodedInstruction : Obligations.StepRunsTheDecodedInstruction :=
  fun _ _ _ _ => step_of_decode

end Machine
end Sys2Proof
end

section
/-!
The one rounding (R11, R17): `roundQuot` gives a nearest whole number, the fields of the finite REALs
order their magnitudes, and `roundMag` gives the field of a nearest REAL.
-/

namespace Sys2Proof.Machine

/-! ### The nearest whole number (R17) -/

/-- What the rounded quotient can be: the one below with a remainder of at most half the divisor, or the
one above with a remainder of at least half. -/
theorem roundQuot_cases (ties : RoundTies) (n d : Nat) :
    (roundQuot ties n d = n / d ∧ 2 * (n % d) ≤ d ∧
      (2 * (n % d) = d → ties = .even ∧ n / d % 2 = 0)) ∨
    (roundQuot ties n d = n / d + 1 ∧ d ≤ 2 * (n % d) ∧
      (2 * (n % d) = d → ties = .even → (n / d + 1) % 2 = 0)) := by
  unfold roundQuot
  by_cases below : 2 * (n % d) < d
  · exact .inl ⟨if_pos below, by omega, by omega⟩
  · by_cases above : d < 2 * (n % d)
    · exact .inr ⟨by simp [below, above], by omega, by omega⟩
    · cases ties with
      | away => exact .inr ⟨by simp [below, above], by omega, nofun⟩
      | even =>
        by_cases parity : n / d % 2 = 0
        · exact .inl ⟨by simp [below, above, parity], by omega, fun _ => ⟨rfl, parity⟩⟩
        · exact .inr ⟨by simp [below, above, parity], by omega, by omega⟩

theorem div_le_roundQuot (ties : RoundTies) (n d : Nat) : n / d ≤ roundQuot ties n d := by
  rcases roundQuot_cases ties n d with ⟨e, -⟩ | ⟨e, -⟩ <;> omega

theorem roundQuot_le (ties : RoundTies) (n d : Nat) : roundQuot ties n d ≤ n / d + 1 := by
  rcases roundQuot_cases ties n d with ⟨e, -⟩ | ⟨e, -⟩ <;> omega

/-- How far the rounded quotient is off: by at most half a divisor; and exactly a half away the tie rule
has decided. -/
theorem roundQuot_error (ties : RoundTies) (n : Nat) {d : Nat} (hd : 0 < d) :
    2 * |(roundQuot ties n d * d : Int) - n| ≤ d ∧
      (2 * |(roundQuot ties n d * d : Int) - n| = d →
        match ties with
        | .even => roundQuot ties n d % 2 = 0
        | .away => n < roundQuot ties n d * d) := by
  have split : n = n / d * d + n % d := (Nat.div_add_mod' n d).symm
  have rem := Nat.mod_lt n hd
  have cast : (n : Int) = (n / d : Nat) * d + (n % d : Nat) := by exact_mod_cast split
  rcases roundQuot_cases ties n d with ⟨e, half, tie⟩ | ⟨e, half, tie⟩
  · have off : |(roundQuot ties n d * d : Int) - n| = (n % d : Nat) := by
      rw [e, cast, sub_add_cancel_left, abs_neg, Nat.abs_cast]
    rw [off]
    refine ⟨by omega, fun h => ?_⟩
    obtain ⟨rfl, parity⟩ := tie (by omega)
    rw [e]
    exact parity
  · have off : |(roundQuot ties n d * d : Int) - n| = d - (n % d : Nat) := by
      have : (roundQuot ties n d * d : Int) - n = d - (n % d : Nat) := by
        rw [e, cast]
        push_cast
        ring
      rw [this, abs_of_nonneg (by omega)]
    rw [off]
    refine ⟨by omega, fun h => ?_⟩
    cases ties with
    | even =>
      rw [e]
      exact tie (by omega) rfl
    | away =>
      rw [e, Nat.add_mul]
      show n < n / d * d + 1 * d
      omega

/-- No whole number is nearer than the rounded quotient, and one at the same distance is a tie. -/
theorem roundQuot_nearest (ties : RoundTies) (n : Nat) {d : Nat} (hd : 0 < d) (j : Nat) :
    |(roundQuot ties n d * d : Int) - n| ≤ |(j * d : Int) - n| ∧
      (|(roundQuot ties n d * d : Int) - n| = |(j * d : Int) - n| → j ≠ roundQuot ties n d →
        2 * |(roundQuot ties n d * d : Int) - n| = d) := by
  have half := (roundQuot_error ties n hd).1
  by_cases e : j = roundQuot ties n d
  · rw [e]
    exact ⟨le_refl _, fun _ h => absurd rfl h⟩
  · have apart : (d : Int) ≤ |(j * d : Int) - n| + |(roundQuot ties n d * d : Int) - n| := by
      have one_le : 1 ≤ |(j : Int) - roundQuot ties n d| := Int.one_le_abs (by omega)
      calc (d : Int) ≤ |(j : Int) - roundQuot ties n d| * d := by nlinarith
        _ = |((j * d : Int) - n) - (roundQuot ties n d * d - n)| := by
          rw [sub_sub_sub_cancel_right, ← sub_mul, abs_mul, Nat.abs_cast]
        _ ≤ _ := abs_sub _ _
    exact ⟨by omega, fun same _ => by omega⟩

/-- Rounding to even reaches an even number from half a divisor below it on. -/
theorem le_roundQuot_even_iff {n d e : Nat} (hd : 0 < d) (he : e % 2 = 0) :
    e ≤ roundQuot .even n d ↔ 2 * (e * d) ≤ 2 * n + d := by
  obtain ⟨half, tie⟩ := roundQuot_error .even n hd
  set r := roundQuot .even n d
  constructor
  · intro h
    have := le_abs_self ((r * d : Int) - n)
    have : e * d ≤ r * d := Nat.mul_le_mul_right d h
    zify at *
    omega
  · intro h
    by_contra below
    have le : (r + 1) * d ≤ e * d := Nat.mul_le_mul_right d (by omega)
    have split : (r + 1) * d = r * d + d := Nat.succ_mul r d
    have := neg_abs_le ((r * d : Int) - n)
    have even : r % 2 = 0 := tie (by zify at *; omega)
    have next : (r + 2) * d ≤ e * d := Nat.mul_le_mul_right d (by omega)
    have split' : (r + 2) * d = r * d + 2 * d := Nat.add_mul r 2 d
    zify at *
    omega

/-! ### Magnitude fields (R10) -/

/-- The units of a field written with `k` binary places dropped and the significand `r`; a significand of
`2^24` has carried into the exponent. -/
theorem unitsOfMag_add {k r : Nat} (hr : r ≤ 2 ^ 24) (hk : k = 0 ∨ 2 ^ 23 ≤ r) :
    unitsOfMag (k * 2 ^ 23 + r) = r * 2 ^ k := by
  unfold unitsOfMag
  by_cases subnormal : r < 2 ^ 23
  · obtain rfl : k = 0 := by omega
    rw [if_pos (by omega)]
    omega
  · rw [if_neg (by omega)]
    by_cases carry : r = 2 ^ 24
    · have e : (k * 2 ^ 23 + r) / 2 ^ 23 - 1 = k + 1 := by omega
      have f : (k * 2 ^ 23 + r) % 2 ^ 23 = 0 := by omega
      rw [e, f, carry, Nat.pow_succ]
      omega
    · have e : (k * 2 ^ 23 + r) / 2 ^ 23 - 1 = k := by omega
      have f : 2 ^ 23 + (k * 2 ^ 23 + r) % 2 ^ 23 = r := by omega
      rw [e, f]

/-- Every field has a number of binary places and a significand. -/
theorem exists_significand (m : Nat) :
    ∃ k r, m = k * 2 ^ 23 + r ∧ r < 2 ^ 24 ∧ (k = 0 ∨ 2 ^ 23 ≤ r) :=
  ⟨m / 2 ^ 23 - 1, m - (m / 2 ^ 23 - 1) * 2 ^ 23, by omega, by omega, by omega⟩

/-- A greater field is a greater magnitude. -/
theorem unitsOfMag_strictMono : StrictMono unitsOfMag := by
  refine strictMono_nat_of_lt_succ fun m => ?_
  obtain ⟨k, r, rfl, hr, hk⟩ := exists_significand m
  rw [unitsOfMag_add (by omega) hk, Nat.add_assoc, unitsOfMag_add (by omega) (by omega)]
  exact Nat.mul_lt_mul_of_pos_right (Nat.lt_succ_self r) (Nat.two_pow_pos k)

@[simp] theorem unitsOfMag_zero : unitsOfMag 0 = 0 := rfl

/-- Half a unit of the last place past the largest finite magnitude: from here on a ratio rounds to
infinity (R11). -/
def overflowUnits : Nat := (2 ^ 25 - 1) * 2 ^ 252

theorem two_pow_le_overflowUnits : 2 ^ (24 + 252) ≤ overflowUnits := by
  rw [Nat.pow_add]
  exact Nat.mul_le_mul_right _ (by decide)

theorem overflowUnits_le_two_pow {k : Nat} (h : 25 ≤ k) : overflowUnits ≤ 2 ^ (k + 252) := by
  rw [Nat.pow_add]
  exact Nat.mul_le_mul_right _
    (Nat.le_trans (by decide) (Nat.pow_le_pow_right (by decide) h))

/-- A finite magnitude is below the edge of overflow. -/
theorem unitsOfMag_lt_overflowUnits {m : Nat} (h : m < infMag) : unitsOfMag m < overflowUnits := by
  have le : unitsOfMag m ≤ unitsOfMag (infMag - 1) :=
    unitsOfMag_strictMono.monotone (by omega)
  have last : unitsOfMag (infMag - 1) = (2 ^ 24 - 1) * 2 ^ 253 :=
    unitsOfMag_add (k := 253) (r := 2 ^ 24 - 1) (by omega) (by omega)
  rw [last] at le
  exact Nat.lt_of_le_of_lt le (by decide)

/-! ### The field of the nearest REAL (R11) -/

/-- The binary places that the rounding of `n / d` units drops. -/
def droppedPlaces (n d : Nat) : Nat := Nat.log2 (n / d) - 23

/-- The rounded significand of `n / d` units. -/
def roundedSig (n d : Nat) : Nat := roundQuot .even n (d * 2 ^ droppedPlaces n d)

theorem roundMag_eq (n d : Nat) :
    roundMag n d = min (droppedPlaces n d * 2 ^ 23 + roundedSig n d) infMag := rfl

/-- The ratio is below `2^24` units of the place that it is rounded to. -/
theorem div_lt_of_droppedPlaces (n d : Nat) : n / d < 2 ^ (24 + droppedPlaces n d) :=
  Nat.lt_of_lt_of_le Nat.lt_log2_self (Nat.pow_le_pow_right (by decide) (by
    unfold droppedPlaces
    omega))

/-- When places are dropped, the ratio is at least `2^23` units of the place that it is rounded to. -/
theorem le_div_of_droppedPlaces {n d : Nat} (h : droppedPlaces n d ≠ 0) :
    2 ^ (23 + droppedPlaces n d) ≤ n / d := by
  unfold droppedPlaces at *
  have nonzero : n / d ≠ 0 := fun e => h (by rw [e]; rfl)
  have e : 23 + (Nat.log2 (n / d) - 23) = Nat.log2 (n / d) := by omega
  rw [e]
  exact Nat.log2_self_le nonzero

theorem div_place (n d : Nat) :
    n / (d * 2 ^ droppedPlaces n d) = n / d / 2 ^ droppedPlaces n d := (Nat.div_div_eq_div_mul _ _ _).symm

theorem roundedSig_le (n d : Nat) : roundedSig n d ≤ 2 ^ 24 := by
  have below : n / (d * 2 ^ droppedPlaces n d) < 2 ^ 24 := by
    rw [div_place, Nat.div_lt_iff_lt_mul (Nat.two_pow_pos _), ← Nat.pow_add]
    exact div_lt_of_droppedPlaces n d
  exact Nat.le_trans (roundQuot_le _ _ _) below

theorem le_roundedSig {n d : Nat} (h : droppedPlaces n d ≠ 0) : 2 ^ 23 ≤ roundedSig n d := by
  refine Nat.le_trans ?_ (div_le_roundQuot _ _ _)
  rw [div_place, Nat.le_div_iff_mul_le (Nat.two_pow_pos _), ← Nat.pow_add]
  exact le_div_of_droppedPlaces h

/-- The magnitude that the field before the overflow check stands for. -/
theorem unitsOfMag_rounded (n d : Nat) :
    unitsOfMag (droppedPlaces n d * 2 ^ 23 + roundedSig n d) =
      roundedSig n d * 2 ^ droppedPlaces n d :=
  unitsOfMag_add (roundedSig_le n d) (or_iff_not_imp_left.2 le_roundedSig)

/-- Rounding overflows from half a unit past the largest finite REAL on (R11). -/
theorem roundMag_eq_infMag_iff (n : Nat) {d : Nat} (hd : 0 < d) :
    roundMag n d = infMag ↔ overflowUnits * d ≤ n := by
  have upper := div_lt_of_droppedPlaces n d
  have lower := @le_div_of_droppedPlaces n d
  have sig_le := roundedSig_le n d
  have sig_ge := @le_roundedSig n d
  rw [← Nat.le_div_iff_mul_le hd, roundMag_eq, min_eq_right_iff,
    show infMag = 255 * 2 ^ 23 from rfl]
  rcases Nat.lt_trichotomy (droppedPlaces n d) 253 with few | edge | many
  · have : n / d < overflowUnits :=
      Nat.lt_of_lt_of_le upper (Nat.le_trans (Nat.pow_le_pow_right (by decide) (by omega))
        two_pow_le_overflowUnits)
    exact ⟨fun _ => by omega, fun _ => by omega⟩
  · have reach : 2 ^ 24 ≤ roundedSig n d ↔ overflowUnits * d ≤ n := by
      rw [roundedSig, le_roundQuot_even_iff (Nat.mul_pos hd (Nat.two_pow_pos _)) (by decide), edge,
        overflowUnits]
      omega
    rw [Nat.le_div_iff_mul_le hd, ← reach, edge]
    omega
  · have : overflowUnits ≤ n / d :=
      Nat.le_trans (overflowUnits_le_two_pow (k := droppedPlaces n d - 229) (by omega))
        (Nat.le_trans (Nat.pow_le_pow_right (by decide) (by omega)) (lower (by omega)))
    have := sig_ge (by omega)
    exact ⟨fun _ => by omega, fun _ => by omega⟩

/-- A field below that of the rounding place is farther from the ratio than the rounding. -/
theorem rounded_closer_of_small {n d u : Nat} (hd : 0 < d) (dropped : droppedPlaces n d ≠ 0)
    (hu : u < 2 ^ (23 + droppedPlaces n d)) :
    |(roundedSig n d * (d * 2 ^ droppedPlaces n d : Nat) : Int) - n| < |(u * d : Int) - n| := by
  have place : 2 ^ (23 + droppedPlaces n d) * d = 2 ^ 23 * (d * 2 ^ droppedPlaces n d) := by ring
  have le : 2 ^ 23 * (d * 2 ^ droppedPlaces n d) ≤ n := by
    rw [← place, ← Nat.le_div_iff_mul_le hd]
    exact le_div_of_droppedPlaces dropped
  have lt : u * d < 2 ^ 23 * (d * 2 ^ droppedPlaces n d) := by
    rw [← place]
    exact Nat.mul_lt_mul_of_pos_right hu hd
  have nearest := (roundQuot_nearest .even n (Nat.mul_pos hd (Nat.two_pow_pos (droppedPlaces n d)))
    (2 ^ 23)).1
  refine lt_of_le_of_lt nearest ?_
  zify at le lt
  rw [abs_of_nonpos (by push_cast; omega), abs_of_nonpos (by omega)]
  push_cast
  omega

/-- The field of a finite REAL is small, or its magnitude is a whole number of rounding places. -/
theorem small_or_multiple (k m : Nat) :
    (k ≠ 0 ∧ unitsOfMag m < 2 ^ (23 + k)) ∨ ∃ j, unitsOfMag m = j * 2 ^ k := by
  obtain ⟨i, r, rfl, hr, hi⟩ := exists_significand m
  rw [unitsOfMag_add (by omega) hi]
  by_cases le : k ≤ i
  · refine .inr ⟨r * 2 ^ (i - k), ?_⟩
    rw [Nat.mul_assoc, ← Nat.pow_add, Nat.sub_add_cancel le]
  · refine .inl ⟨by omega, ?_⟩
    calc r * 2 ^ i < 2 ^ 24 * 2 ^ i := Nat.mul_lt_mul_of_pos_right hr (Nat.two_pow_pos i)
      _ = 2 ^ (24 + i) := (Nat.pow_add 2 24 i).symm
      _ ≤ 2 ^ (23 + k) := Nat.pow_le_pow_right (by decide) (by omega)

/-- No finite REAL is nearer than the rounded one, and at a tie the rounded field is even (R11). -/
theorem roundMag_nearest {n d : Nat} (hd : 0 < d) (finite : roundMag n d < infMag) (m : Nat) :
    |(unitsOfMag (roundMag n d) * d : Int) - n| ≤ |(unitsOfMag m * d : Int) - n| ∧
      (|(unitsOfMag (roundMag n d) * d : Int) - n| = |(unitsOfMag m * d : Int) - n| →
        m ≠ roundMag n d → roundMag n d % 2 = 0) := by
  have field : roundMag n d = droppedPlaces n d * 2 ^ 23 + roundedSig n d := by
    rw [roundMag_eq] at finite ⊢
    exact min_eq_left (by omega)
  have units : (unitsOfMag (roundMag n d) * d : Int) =
      roundedSig n d * (d * 2 ^ droppedPlaces n d : Nat) := by
    rw [field, unitsOfMag_rounded]
    push_cast
    ring
  rw [units]
  rcases small_or_multiple (droppedPlaces n d) m with ⟨dropped, small⟩ | ⟨j, multiple⟩
  · have closer := rounded_closer_of_small hd dropped small
    exact ⟨closer.le, fun same => absurd same closer.ne⟩
  · have place : 0 < d * 2 ^ droppedPlaces n d := Nat.mul_pos hd (Nat.two_pow_pos _)
    have other : (unitsOfMag m * d : Int) = j * (d * 2 ^ droppedPlaces n d : Nat) := by
      rw [multiple]
      push_cast
      ring
    obtain ⟨nearest, tie⟩ := roundQuot_nearest .even n place j
    rw [other]
    refine ⟨nearest, fun same ne => ?_⟩
    have sig_ne : j ≠ roundedSig n d := fun e =>
      ne (unitsOfMag_strictMono.injective (by rw [multiple, field, unitsOfMag_rounded, e]))
    have even : roundedSig n d % 2 = 0 := (roundQuot_error .even n place).2 (tie same sig_ne)
    omega

/-- Settles O51: the edge of overflow, and the nearest significand at the rounding place. -/
theorem roundingIsNearestEven : Obligations.RoundingIsNearestEven :=
  fun n _ hd => ⟨roundMag_eq_infMag_iff n hd, fun finite m _ => roundMag_nearest hd finite m⟩

/-- A ratio below the edge of overflow rounds to a finite REAL. -/
theorem roundMag_lt_infMag {n d : Nat} (hd : 0 < d) (h : n < overflowUnits * d) :
    roundMag n d < infMag :=
  lt_of_le_of_ne (roundMag_le n d) fun e =>
    absurd ((roundMag_eq_infMag_iff n hd).1 e) (by omega)

/-- A ratio up to a finite REAL rounds to a field up to that REAL's. -/
theorem roundMag_le_of_le {n d m : Nat} (hd : 0 < d) (hm : m < infMag) (h : n ≤ unitsOfMag m * d) :
    roundMag n d ≤ m := by
  have finite : roundMag n d < infMag :=
    roundMag_lt_infMag hd (Nat.lt_of_le_of_lt h
      (Nat.mul_lt_mul_of_pos_right (unitsOfMag_lt_overflowUnits hm) hd))
  by_contra above
  have farther : unitsOfMag m * d < unitsOfMag (roundMag n d) * d :=
    Nat.mul_lt_mul_of_pos_right (unitsOfMag_strictMono (by omega)) hd
  have nearest := (roundMag_nearest hd finite m).1
  zify at h farther
  rw [abs_of_nonneg (by omega), abs_of_nonneg (by omega)] at nearest
  omega

/-- A value that is a REAL is its own rounding: the nearest REAL is at distance zero, and no other has
its magnitude. -/
theorem roundMag_unitsOfMag {m d : Nat} (hd : 0 < d) (hm : m < infMag) :
    roundMag (unitsOfMag m * d) d = m := by
  have finite : roundMag (unitsOfMag m * d) d < infMag :=
    Nat.lt_of_le_of_lt (roundMag_le_of_le hd hm (Nat.le_refl _)) hm
  have nearest := (roundMag_nearest hd finite m).1
  push_cast at nearest
  rw [sub_self, abs_zero, abs_nonpos_iff, sub_eq_zero] at nearest
  have same : unitsOfMag (roundMag (unitsOfMag m * d) d) = unitsOfMag m :=
    Nat.eq_of_mul_eq_mul_right hd (by exact_mod_cast nearest)
  exact unitsOfMag_strictMono.injective same

/-- Settles O52. -/
theorem roundingKeepsReals : Obligations.RoundingKeepsReals :=
  fun _ _ => roundMag_unitsOfMag

end Sys2Proof.Machine
end

section
/-!
The REALs as exact values: comparisons (R12), the four operations (R11, R18), and `ROUND_INT` (R17).
-/

namespace Sys2Proof.Machine

/-! ### The kinds of REAL, by magnitude field (R10) -/

theorem isFinite_iff {x : Word} : isFinite x = true ↔ magBits x < infMag := by simp [isFinite]

theorem isInf_iff {x : Word} : isInf x = true ↔ magBits x = infMag := by simp [isInf]

theorem isZero_iff {x : Word} : isZero x = true ↔ magBits x = 0 := by simp [isZero]

theorem isNaN_eq_false_iff {x : Word} : isNaN x = false ↔ magBits x ≤ infMag := by simp [isNaN]

theorem isNaN_of_finite {x : Word} (h : isFinite x = true) : isNaN x = false :=
  isNaN_eq_false_iff.2 (isFinite_iff.1 h).le

theorem isNaN_of_inf {x : Word} (h : isInf x = true) : isNaN x = false :=
  isNaN_eq_false_iff.2 (isInf_iff.1 h).le

theorem isInf_of_finite {x : Word} (h : isFinite x = true) : isInf x = false := by
  simpa [isInf] using (isFinite_iff.1 h).ne

theorem isFinite_of_zero {x : Word} (h : isZero x = true) : isFinite x = true :=
  isFinite_iff.2 (by rw [isZero_iff.1 h]; decide)

theorem isZero_of_inf {x : Word} (h : isInf x = true) : isZero x = false := by
  simp [isZero, isInf_iff.1 h, infMag]

/-- A REAL that is no NaN is an infinity or finite. -/
theorem isInf_or_isFinite {x : Word} (h : isNaN x = false) : isInf x = true ∨ isFinite x = true := by
  rw [isInf_iff, isFinite_iff]
  exact (isNaN_eq_false_iff.1 h).eq_or_lt

@[simp] theorem isFinite_fneg (x : Word) : isFinite (fneg x) = isFinite x := by simp [isFinite]

theorem isInf_packReal_infMag (neg : Bool) : isInf (packReal neg infMag) = true :=
  isInf_iff.2 (magBits_packReal neg (by decide))

theorem isZero_packReal_zero (neg : Bool) : isZero (packReal neg 0) = true :=
  isZero_iff.2 (magBits_packReal neg (by decide))

/-! ### Values -/

theorem units_packReal (neg : Bool) {mag : Nat} (h : mag < 2 ^ 31) :
    units (packReal neg mag) = unitsOfMag mag := by
  rw [units, magBits_packReal neg h]

theorem value_packReal (neg : Bool) {mag : Nat} (h : mag < 2 ^ 31) :
    value (packReal neg mag) = if neg then -(unitsOfMag mag : Int) else unitsOfMag mag := by
  rw [value, signBit_packReal neg h, units_packReal neg h]

@[simp] theorem value_fneg (x : Word) : value (fneg x) = -value x := by
  cases h : signBit x <;> simp [value, units, h]

@[simp] theorem natAbs_value (x : Word) : (value x).natAbs = units x := by
  cases h : signBit x <;> simp [value, h]

@[simp] theorem abs_value (x : Word) : |value x| = units x := by
  rw [Int.abs_eq_natAbs, natAbs_value]

theorem value_nonpos {x : Word} (h : signBit x = true) : value x ≤ 0 := by simp [value, h]

theorem value_nonneg {x : Word} (h : signBit x = false) : 0 ≤ value x := by simp [value, h]

/-! ### Comparisons (R12) -/

/-- The order of the keys is that of the values. -/
theorem orderKey_lt_iff (p q : Word) : orderKey p < orderKey q ↔ value p < value q := by
  have lt : units p < units q ↔ magBits p < magBits q := unitsOfMag_strictMono.lt_iff_lt
  have gt : units q < units p ↔ magBits q < magBits p := unitsOfMag_strictMono.lt_iff_lt
  have zero_p : 0 < units p ↔ 0 < magBits p := unitsOfMag_strictMono.lt_iff_lt (a := 0)
  have zero_q : 0 < units q ↔ 0 < magBits q := unitsOfMag_strictMono.lt_iff_lt (a := 0)
  simp only [orderKey, value]
  cases signBit p <;> cases signBit q <;> simp only [if_true, Bool.false_eq_true, if_false] <;> omega

theorem orderKey_le_iff (p q : Word) : orderKey p ≤ orderKey q ↔ value p ≤ value q := by
  rw [← not_lt, ← not_lt, orderKey_lt_iff]

theorem orderKey_eq_iff (p q : Word) : orderKey p = orderKey q ↔ value p = value q := by
  rw [le_antisymm_iff, le_antisymm_iff, orderKey_le_iff, orderKey_le_iff]

theorem orderKey_packReal (neg : Bool) {mag : Nat} (h : mag < 2 ^ 31) :
    orderKey (packReal neg mag) = if neg then -(mag : Int) else mag := by
  rw [orderKey, signBit_packReal neg h, magBits_packReal neg h]

theorem flt_iff {p q : Word} (hp : isNaN p = false) (hq : isNaN q = false) :
    flt p q = true ↔ orderKey p < orderKey q := by simp [flt, hp, hq]

theorem fle_iff {p q : Word} (hp : isNaN p = false) (hq : isNaN q = false) :
    fle p q = true ↔ orderKey p ≤ orderKey q := by simp [fle, hp, hq]

theorem feq_iff {p q : Word} (hp : isNaN p = false) (hq : isNaN q = false) :
    feq p q = true ↔ orderKey p = orderKey q := by simp [feq, hp, hq]

/-- What `<=` says: neither operand is NaN, and the keys are in order. -/
theorem of_fle {p q : Word} (h : fle p q = true) :
    isNaN p = false ∧ isNaN q = false ∧ orderKey p ≤ orderKey q := by
  simpa [fle, and_assoc] using h

/-- Every comparison with a NaN is false. -/
theorem compare_of_nan {p q : Word} (h : isNaN p = true ∨ isNaN q = true) :
    flt p q = false ∧ fle p q = false ∧ fgt p q = false ∧ fge p q = false ∧ feq p q = false := by
  rcases h with h | h <;> simp [flt, fle, fgt, fge, feq, h]

/-- A key's size is the magnitude field. -/
theorem abs_orderKey (x : Word) : |orderKey x| = magBits x := by
  unfold orderKey
  split <;> simp

/-- A finite REAL is between the two infinities. -/
theorem flt_inf_of_finite {p : Word} (h : isFinite p = true) :
    flt p 0x7F800000 = true ∧ flt 0xFF800000 p = true := by
  have bound : |orderKey p| < (infMag : Int) := by
    rw [abs_orderKey]
    exact_mod_cast isFinite_iff.1 h
  obtain ⟨low, high⟩ := abs_lt.1 bound
  exact ⟨(flt_iff (isNaN_of_finite h) (by decide)).2 high,
    (flt_iff (by decide) (isNaN_of_finite h)).2 low⟩

/-- Settles O55: the keys that the model compares are in the order of the values. -/
theorem comparisonsAreTheValues : Obligations.ComparisonsAreTheValues := by
  refine ⟨fun p q hp hq => ?_, fun p => flt_inf_of_finite, fun p q => compare_of_nan, by decide,
    by decide, by decide⟩
  have np := isNaN_of_finite hp
  have nq := isNaN_of_finite hq
  exact ⟨(flt_iff np nq).trans (orderKey_lt_iff p q), (fle_iff np nq).trans (orderKey_le_iff p q),
    (flt_iff nq np).trans (orderKey_lt_iff q p), (fle_iff nq np).trans (orderKey_le_iff q p),
    (feq_iff np nq).trans (orderKey_eq_iff p q)⟩

/-! ### The four operations round once (R11, R18) -/

/-- Magnitudes are no farther apart than the signed numbers. -/
theorem abs_units_sub_le (x : Word) (n : Int) (d : Nat) :
    |(units x * d : Int) - n.natAbs| ≤ |value x * d - n| := by
  have h := abs_abs_sub_abs_le (value x * d) n
  rwa [abs_mul, abs_value, Nat.abs_cast, Int.abs_eq_natAbs n] at h

/-- With the sign of `n`, a magnitude is as far from `n` as from its size. -/
theorem abs_value_packReal_sub {neg : Bool} {n : Int} (hneg : neg = true → n ≤ 0)
    (hpos : neg = false → 0 ≤ n) {mag : Nat} (h : mag < 2 ^ 31) (d : Nat) :
    |value (packReal neg mag) * d - n| = |(unitsOfMag mag * d : Int) - n.natAbs| := by
  rw [value_packReal neg h]
  cases neg with
  | false => rw [Int.natAbs_of_nonneg (hpos rfl), if_neg (by decide)]
  | true =>
    rw [Int.ofNat_natAbs_of_nonpos (hneg rfl), if_pos rfl, ← abs_neg]
    congr 1
    ring

/-- A rounded magnitude with the sign of `n` is `n / d` rounded once. -/
theorem roundsTo_packReal {neg : Bool} {n : Int} {d : Nat} (hd : 0 < d) (hneg : neg = true → n ≤ 0)
    (hpos : neg = false → 0 ≤ n) : RoundsTo (packReal neg (roundMag n.natAbs d)) n d := by
  have small := roundMag_lt n.natAbs d
  by_cases overflow : overflowUnits * d ≤ n.natAbs
  · right
    have field := (roundMag_eq_infMag_iff n.natAbs hd).2 overflow
    have nonzero : 0 < n.natAbs :=
      Nat.lt_of_lt_of_le (Nat.mul_pos (by decide) hd) overflow
    refine ⟨by rw [field]; exact isInf_packReal_infMag neg, ?_, overflow⟩
    rw [signBit_packReal neg small]
    cases neg with
    | false => exact ⟨nofun, fun h => absurd (hpos rfl) (by omega)⟩
    | true => exact ⟨fun _ => lt_of_le_of_ne (hneg rfl) (by omega), fun _ => rfl⟩
  · left
    have finite := roundMag_lt_infMag hd (not_le.1 overflow)
    refine ⟨isFinite_iff.2 (by rwa [magBits_packReal neg small]), not_le.1 overflow, fun x _ => ?_⟩
    rw [magBits_packReal neg small]
    have own := abs_value_packReal_sub hneg hpos small d
    have other := abs_units_sub_le x n d
    obtain ⟨nearest, tie⟩ := roundMag_nearest hd finite (magBits x)
    refine ⟨own ▸ nearest.trans other, fun same differ => ?_⟩
    by_cases field : magBits x = roundMag n.natAbs d
    · have opposite : value x = -value (packReal neg (roundMag n.natAbs d)) := by
        have sizes : |value x| = |value (packReal neg (roundMag n.natAbs d))| := by
          rw [abs_value, abs_value, units_packReal neg small, units, field]
        exact (abs_eq_abs.1 sizes).resolve_left differ
      rw [opposite] at same
      rcases abs_eq_abs.1 same with e | e
      · have zero : value (packReal neg (roundMag n.natAbs d)) * d = 0 := by linarith
        have : value (packReal neg (roundMag n.natAbs d)) = 0 :=
          (mul_eq_zero.1 zero).resolve_right (by omega)
        exact absurd (by rw [opposite, this, neg_zero]) differ
      · obtain rfl : n = 0 := by linarith
        rw [Int.natAbs_zero, roundMag_zero]
    · exact tie (le_antisymm nearest (other.trans (same.symm.trans own).le)) field

theorem roundsTo_fadd {p q : Word} (hp : isFinite p = true) (hq : isFinite q = true) :
    RoundsTo (fadd p q) (value p + value q) 1 := by
  rw [fadd_of_finite hp hq]
  split
  · next zero =>
    have field : roundMag (value p + value q).natAbs 1 = 0 := by rw [zero]; exact roundMag_zero 1
    rw [← field]
    exact roundsTo_packReal Nat.one_pos (fun _ => zero.le) fun _ => zero.ge
  · exact roundsTo_packReal Nat.one_pos (fun h => (of_decide_eq_true h).le)
      fun h => not_lt.1 (of_decide_eq_false h)

theorem roundsTo_fsub {p q : Word} (hp : isFinite p = true) (hq : isFinite q = true) :
    RoundsTo (fsub p q) (value p - value q) 1 := by
  have h := roundsTo_fadd hp (q := fneg q) (by rwa [isFinite_fneg])
  rwa [value_fneg, ← sub_eq_add_neg] at h

/-- The value of `p` with the product of the signs of `p` and `q`. -/
def signedBy (p q : Word) : Int := if signBit q then -value p else value p

theorem natAbs_signedBy (p q : Word) : (signedBy p q).natAbs = units p := by
  unfold signedBy
  split <;> simp

theorem value_mul_value (p q : Word) : value p * value q = signedBy p q * units q := by
  cases h : signBit q <;> simp [signedBy, value, h]

theorem signedBy_nonpos {p q : Word} (h : (signBit p != signBit q) = true) : signedBy p q ≤ 0 := by
  unfold signedBy
  split
  · next hq => exact neg_nonpos.2 (value_nonneg (by simpa [hq] using h))
  · next hq => exact value_nonpos (by simpa [hq] using h)

theorem signedBy_nonneg {p q : Word} (h : (signBit p != signBit q) = false) : 0 ≤ signedBy p q := by
  unfold signedBy
  split
  · next hq => exact neg_nonneg.2 (value_nonpos (by simpa [hq] using h))
  · next hq => exact value_nonneg (by simpa [hq] using h)

/-- A product or quotient of magnitudes with the product of the signs is the exact one rounded once. -/
theorem roundsTo_signedBy (p q : Word) (c : Nat) {d : Nat} (hd : 0 < d) :
    RoundsTo (packReal (signBit p != signBit q) (roundMag (units p * c) d)) (signedBy p q * c) d := by
  have size : (signedBy p q * c).natAbs = units p * c := by
    rw [Int.natAbs_mul, natAbs_signedBy, Int.natAbs_natCast]
  rw [← size]
  exact roundsTo_packReal hd
    (fun h => mul_nonpos_of_nonpos_of_nonneg (signedBy_nonpos h) (Int.natCast_nonneg c))
    (fun h => mul_nonneg (signedBy_nonneg h) (Int.natCast_nonneg c))

theorem roundsTo_fmul {p q : Word} (hp : isFinite p = true) (hq : isFinite q = true) :
    RoundsTo (fmul p q) (value p * value q) (2 ^ 149) := by
  rw [fmul_of_finite hp hq, value_mul_value]
  exact roundsTo_signedBy p q (units q) (Nat.two_pow_pos 149)

theorem units_pos {x : Word} (h : isZero x = false) : 0 < units x :=
  (unitsOfMag_strictMono.lt_iff_lt (a := 0)).2 (Nat.pos_of_ne_zero (by simpa [isZero] using h))

theorem roundsTo_fdiv {p q : Word} (hp : isFinite p = true) (hq : isFinite q = true)
    (h0 : isZero q = false) : RoundsTo (fdiv p q) (signedBy p q * 2 ^ 149) (units q) := by
  rw [fdiv_of_finite hp hq h0]
  exact_mod_cast roundsTo_signedBy p q (2 ^ 149) (units_pos h0)

/-- Settles O53: each operation packs the sign of the exact result with its rounded magnitude. -/
theorem arithmeticRoundsOnce : Obligations.ArithmeticRoundsOnce :=
  fun _ _ hp hq => ⟨roundsTo_fadd hp hq, roundsTo_fsub hp hq, roundsTo_fmul hp hq, roundsTo_fdiv hp hq⟩

/-! ### Special operands and signs (R11) -/

/-- An infinite operand of a valid product makes it the infinity of the product of the signs. -/
theorem fmul_of_inf {p q : Word} (hp : isNaN p = false) (hq : isNaN q = false)
    (inf : isInf p = true ∨ isInf q = true) (zp : isZero p = false) (zq : isZero q = false) :
    fmul p q = packReal (signBit p != signBit q) infMag := by
  rcases inf with h | h <;> simp [fmul, hp, hq, zp, zq, h]

theorem fmul_zero_inf {p q : Word} (hp : isZero p = true) (hq : isInf q = true) :
    fmul p q = Config.nan ∧ fmul q p = Config.nan := by
  have np := isNaN_of_finite (isFinite_of_zero hp)
  have nq := isNaN_of_inf hq
  simp [fmul, np, nq, hp, hq]

/-- Two infinities of one sign are one REAL. -/
theorem eq_of_inf {p q : Word} (hp : isInf p = true) (hq : isInf q = true)
    (hs : signBit p = signBit q) : p = q :=
  real_ext hs (by rw [isInf_iff.1 hp, isInf_iff.1 hq])

/-- An infinity is the sum of itself and anything but a NaN or the infinity of the other sign. -/
theorem fadd_of_inf {p q : Word} (hp : isInf p = true) (hq : isNaN q = false)
    (same : isInf q = true → signBit p = signBit q) : fadd p q = p ∧ fadd q p = p := by
  have np := isNaN_of_inf hp
  cases iq : isInf q with
  | false => simp [fadd, np, hq, hp, iq]
  | true =>
    obtain rfl := eq_of_inf hp iq (same iq)
    simp [fadd, np, hp]

theorem fadd_opposite_inf {p q : Word} (hp : isInf p = true) (hq : isInf q = true)
    (hs : signBit p ≠ signBit q) : fadd p q = Config.nan := by
  simp [fadd, isNaN_of_inf hp, isNaN_of_inf hq, hp, hq, hs]

/-- A finite number that is no zero over a zero is the infinity of the product of the signs. -/
theorem fdiv_by_zero {p q : Word} (hp : isFinite p = true) (zp : isZero p = false)
    (hq : isZero q = true) : fdiv p q = packReal (signBit p != signBit q) infMag := by
  have fq := isFinite_of_zero hq
  simp [fdiv, isNaN_of_finite hp, isNaN_of_finite fq, isInf_of_finite hp, isInf_of_finite fq, hq, zp]

theorem fdiv_zero_zero {p q : Word} (hp : isZero p = true) (hq : isZero q = true) :
    fdiv p q = Config.nan := by
  have fp := isFinite_of_zero hp
  have fq := isFinite_of_zero hq
  simp [fdiv, isNaN_of_finite fp, isNaN_of_finite fq, isInf_of_finite fp, isInf_of_finite fq, hp, hq]

theorem fdiv_inf_inf {p q : Word} (hp : isInf p = true) (hq : isInf q = true) :
    fdiv p q = Config.nan := by
  simp [fdiv, isNaN_of_inf hp, isNaN_of_inf hq, hp, hq]

theorem fdiv_inf_finite {p q : Word} (hp : isInf p = true) (hq : isFinite q = true) :
    fdiv p q = packReal (signBit p != signBit q) infMag := by
  simp [fdiv, isNaN_of_inf hp, isNaN_of_finite hq, hp, isInf_of_finite hq]

theorem fdiv_finite_inf {p q : Word} (hp : isFinite p = true) (hq : isInf q = true) :
    fdiv p q = packReal (signBit p != signBit q) 0 := by
  simp [fdiv, isNaN_of_finite hp, isNaN_of_inf hq, isInf_of_finite hp, hq]

/-- A product that is no NaN has the product of the signs, whatever its magnitude. -/
theorem fmul_eq_nan_or_packReal (p q : Word) :
    fmul p q = Config.nan ∨ ∃ mag ≤ infMag, fmul p q = packReal (signBit p != signBit q) mag := by
  unfold fmul
  repeat' split
  · exact .inl rfl
  · exact .inl rfl
  · exact .inr ⟨_, le_refl _, rfl⟩
  · exact .inr ⟨_, roundMag_le _ _, rfl⟩

theorem fdiv_eq_nan_or_packReal (p q : Word) :
    fdiv p q = Config.nan ∨ ∃ mag ≤ infMag, fdiv p q = packReal (signBit p != signBit q) mag := by
  unfold fdiv
  repeat' split
  · exact .inl rfl
  · exact .inl rfl
  · exact .inr ⟨_, le_refl _, rfl⟩
  · exact .inr ⟨_, Nat.zero_le _, rfl⟩
  · exact .inl rfl
  · exact .inr ⟨_, le_refl _, rfl⟩
  · exact .inr ⟨_, roundMag_le _ _, rfl⟩

/-- A result that is the NaN value or has the sign `neg` has that sign unless it is a NaN. -/
theorem signBit_of_nan_or_packReal {r : Word} {neg : Bool}
    (h : r = Config.nan ∨ ∃ mag ≤ infMag, r = packReal neg mag) (hr : isNaN r = false) :
    signBit r = neg := by
  rcases h with rfl | ⟨mag, le, rfl⟩
  · simp at hr
  · exact signBit_packReal neg (Nat.lt_of_le_of_lt le (by decide))

/-- The sign of a finite sum: of an exact zero, negative only for two negative operands; else that of the
exact sum. -/
theorem fadd_sign {p q : Word} (hp : isFinite p = true) (hq : isFinite q = true) :
    (value p + value q = 0 → isZero (fadd p q) = true ∧
      signBit (fadd p q) = (signBit p && signBit q)) ∧
    (value p + value q ≠ 0 → signBit (fadd p q) = decide (value p + value q < 0)) := by
  rw [fadd_of_finite hp hq]
  refine ⟨fun zero => ?_, fun nonzero => ?_⟩
  · rw [if_pos zero]
    exact ⟨isZero_packReal_zero _, signBit_packReal _ (by decide)⟩
  · rw [if_neg nonzero]
    exact signBit_packReal _ (roundMag_lt _ _)

/-- Settles O54, clause by clause. -/
theorem arithmeticSpecialCases : Obligations.ArithmeticSpecialCases := by
  refine ⟨?nan, ?divZero, ?zeroZero, ?infInf, ?zeroInf, ?infMinusInf, ?addInf, ?mulInf, ?divInf,
    ?mulSign, ?divSign, ?addSign, ?sub, ?neg⟩
  case nan =>
    intro p q h
    rw [fadd_of_nan h, fsub_of_nan h, fmul_of_nan h, fdiv_of_nan h]
    simp only [isNaN_nan, and_self]
  case divZero =>
    intro p q hp zp hq
    rw [fdiv_by_zero hp zp hq]
    exact ⟨isInf_packReal_infMag _, signBit_packReal _ (by decide)⟩
  case zeroZero =>
    intro p q hp hq
    rw [fdiv_zero_zero hp hq, isNaN_nan]
  case infInf =>
    intro p q hp hq
    rw [fdiv_inf_inf hp hq, isNaN_nan]
  case zeroInf =>
    intro p q hp hq
    obtain ⟨left, right⟩ := fmul_zero_inf hp hq
    rw [left, right]
    exact ⟨isNaN_nan, isNaN_nan⟩
  case infMinusInf =>
    intro p q hp hq hs
    rw [fadd_opposite_inf hp hq hs, isNaN_nan]
  case addInf => exact fun p q => fadd_of_inf
  case mulInf =>
    intro p q hp hq zq
    have np := isNaN_of_inf hp
    have zp := isZero_of_inf hp
    rw [fmul_of_inf np hq (.inl hp) zp zq, fmul_of_inf hq np (.inr hp) zq zp]
    exact ⟨isInf_packReal_infMag _, isInf_packReal_infMag _⟩
  case divInf =>
    intro p q hp hq
    rw [fdiv_inf_finite hp hq, fdiv_finite_inf hq hp]
    exact ⟨isInf_packReal_infMag _, isZero_packReal_zero _⟩
  case mulSign => exact fun p q => signBit_of_nan_or_packReal (fmul_eq_nan_or_packReal p q)
  case divSign => exact fun p q => signBit_of_nan_or_packReal (fdiv_eq_nan_or_packReal p q)
  case addSign => exact fun p q => fadd_sign
  case sub => exact fun p q => rfl
  case neg => exact fun p => ⟨signBit_fneg p, magBits_fneg p⟩

/-! ### `ROUND_INT` (R17) -/

/-- `ROUND_INT` of a finite REAL: the nearest number of units of 1, with the sign. -/
theorem roundInt_of_finite (ties : RoundTies) {p : Word} (h : isFinite p = true) :
    roundInt ties p = .int (if signBit p then -(roundQuot ties (units p) (2 ^ 149) : Int)
      else roundQuot ties (units p) (2 ^ 149)) := by
  simp [roundInt, isNaN_of_finite h, isInf_of_finite h]

theorem roundInt_of_nan (ties : RoundTies) {p : Word} (h : isNaN p = true) :
    roundInt ties p = .none := by
  simp [roundInt, h]

/-- A number with the sign of `p` is as far from `p` as its size from the magnitude. -/
theorem abs_signed_sub_value (p : Word) (m : Nat) :
    |(if signBit p then -(m : Int) else m) * 2 ^ 149 - value p| =
      |(m * (2 ^ 149 : Nat) : Int) - units p| := by
  unfold value
  split
  · rw [← abs_neg]
    congr 1
    push_cast
    ring
  · push_cast
    rfl

/-- Settles O56: the error of `roundQuot` at one unit of 1, which is `2^149` units. -/
theorem roundIntIsNearest : Obligations.RoundIntIsNearest := by
  refine ⟨fun ties p finite => ?_, fun ties => ⟨rfl, rfl, fun p => roundInt_of_nan ties⟩⟩
  refine ⟨_, roundInt_of_finite ties finite, ?_⟩
  obtain ⟨half, tie⟩ := roundQuot_error ties (units p) (Nat.two_pow_pos 149)
  rw [abs_signed_sub_value]
  refine ⟨half, fun exact_half => ?_⟩
  have decided := tie exact_half
  cases ties with
  | even =>
    have even : roundQuot .even (units p) (2 ^ 149) % 2 = 0 := decided
    show (if signBit p then _ else _ : Int) % 2 = 0
    split <;> omega
  | away =>
    have farther : units p < roundQuot .away (units p) (2 ^ 149) * 2 ^ 149 := decided
    show |value p| < |(if signBit p then _ else _ : Int) * 2 ^ 149|
    have size : ∀ m : Nat, |(if signBit p then -(m : Int) else m)| = m := fun m => by
      split <;> simp
    rw [abs_value, abs_mul, size]
    exact_mod_cast farther

end Sys2Proof.Machine
end

section
/-!
The model's formulas over an exponential, a sine, a power function and a logarithm with the named
properties (R14 to R16): the comb's coefficients (R115), the LFO at depth zero (R135), and the pitch
conversion (R138, R139).
-/

namespace Sys2Proof.Machine

/-! ### The comb's coefficients (R115) -/

/-- The argument of the exponential is no positive REAL for a cutoff of at least zero. -/
theorem fle_negTwoPi_mul {c : Word} (h : fge c zero = true) : fle (fmul negTwoPi c) zero = true := by
  obtain ⟨-, nc, key⟩ := of_fle h
  have nonneg : 0 ≤ orderKey c := key
  have sign_or_zero : signBit c = false ∨ magBits c = 0 := by
    cases hs : signBit c with
    | false => exact .inl rfl
    | true =>
      rw [orderKey, hs, if_pos rfl] at nonneg
      exact .inr (by omega)
  have product : ∃ neg mag, mag ≤ infMag ∧ fmul negTwoPi c = packReal neg mag ∧
      (neg = true ∨ mag = 0) := by
    rcases isInf_or_isFinite nc with inf | finite
    · have zc := isZero_of_inf inf
      refine ⟨_, _, le_refl _, fmul_of_inf (by decide) nc (.inr inf) (by decide) zc, .inl ?_⟩
      have pos := sign_or_zero.resolve_right (by simpa [isZero] using zc)
      rw [pos]
      rfl
    · refine ⟨_, _, roundMag_le _ _, fmul_of_finite (by decide) finite, ?_⟩
      rcases sign_or_zero with pos | zero
      · left
        rw [pos]
        rfl
      · right
        rw [units, units, zero, unitsOfMag_zero, Nat.mul_zero, roundMag_zero]
  obtain ⟨neg, mag, le, e, nonpos⟩ := product
  rw [e, fle_iff (isNaN_packReal neg le) (by decide),
    orderKey_packReal neg (Nat.lt_of_le_of_lt le (by decide))]
  show _ ≤ (0 : Int)
  rcases nonpos with rfl | rfl <;> simp

/-- A REAL no larger than one in size is finite. -/
theorem isFinite_of_abs_orderKey_le {x : Word} (h : |orderKey x| ≤ orderKey one) :
    isFinite x = true := by
  rw [abs_orderKey] at h
  have one_finite : orderKey one < (infMag : Int) := by decide
  exact isFinite_iff.2 (by omega)

/-- A REAL between zero and one, as a value. -/
theorem unit_interval {b : Word} (low : fle zero b = true) (high : fle b one = true) :
    isFinite b = true ∧ 0 ≤ value b ∧ value b ≤ value one := by
  obtain ⟨-, -, low⟩ := of_fle low
  obtain ⟨-, -, high⟩ := of_fle high
  have nonneg : 0 ≤ orderKey b := low
  exact ⟨isFinite_of_abs_orderKey_le (by rwa [abs_of_nonneg nonneg]),
    (orderKey_le_iff zero b).1 low, (orderKey_le_iff b one).1 high⟩

/-- One minus a REAL between zero and one is between zero and one: the exact difference is, and one is a
REAL. -/
theorem one_sub_in_unit_interval {b : Word} (low : fle zero b = true) (high : fle b one = true) :
    fle zero (fsub one b) = true ∧ fle (fsub one b) one = true := by
  obtain ⟨finite, nonneg, le_one⟩ := unit_interval low high
  have finite' : isFinite (fneg b) = true := by rwa [isFinite_fneg]
  have exact_difference : value one + value (fneg b) = value one - value b := by
    rw [value_fneg, sub_eq_add_neg]
  have packed : ∃ mag ≤ magBits one, fsub one b = packReal false mag := by
    rw [fsub, fadd_of_finite (by decide) finite', exact_difference]
    split
    · exact ⟨0, Nat.zero_le _, rfl⟩
    · rw [decide_eq_false (by omega)]
      refine ⟨_, roundMag_le_of_le Nat.one_pos (by decide) ?_, rfl⟩
      have : value one = units one := rfl
      rw [Nat.mul_one]
      show _ ≤ units one
      omega
  obtain ⟨mag, le, e⟩ := packed
  have le_inf : mag ≤ infMag := le.trans (by decide)
  have key : orderKey (packReal false mag) = mag :=
    orderKey_packReal false (Nat.lt_of_le_of_lt le_inf (by decide))
  rw [e, fle_iff (by decide) (isNaN_packReal false le_inf),
    fle_iff (isNaN_packReal false le_inf) (by decide), key]
  exact ⟨Int.natCast_nonneg mag, Int.ofNat_le.2 le⟩

/-- Settles O20: `-2π·c` is no positive REAL, so the exponential is between 0 and 1, and so is its
complement. -/
theorem combCoefficientsAreBounded : Obligations.CombCoefficientsAreBounded := by
  intro exp g c range unit hc
  have argument := fle_negTwoPi_mul hc
  have low : fle zero (combFeedbackWith exp c) = true := range _ (of_fle argument).1
  have high : fle (combFeedbackWith exp c) one = true := unit _ argument
  exact ⟨low, high, one_sub_in_unit_interval low high⟩

/-! ### The LFO at depth zero (R135) -/

/-- A REAL between -1 and 1 is finite. -/
theorem isFinite_of_bounded {x : Word} (low : fle negOne x = true) (high : fle x one = true) :
    isFinite x = true := by
  obtain ⟨-, -, low⟩ := of_fle low
  obtain ⟨-, -, high⟩ := of_fle high
  exact isFinite_of_abs_orderKey_le (abs_le.2 ⟨low, high⟩)

/-- A zero times a finite REAL is a zero. -/
theorem isZero_fmul {p q : Word} (hp : isZero p = true) (hq : isFinite q = true) :
    isZero (fmul p q) = true := by
  rw [fmul_of_finite (isFinite_of_zero hp) hq, units, isZero_iff.1 hp, unitsOfMag_zero, Nat.zero_mul,
    roundMag_zero]
  exact isZero_packReal_zero _

/-- Settles O27: the sine is bounded, hence finite, and the depth is a zero. -/
theorem zeroDepthIsSilent : Obligations.ZeroDepthIsSilent := by
  intro sin amount phase bounded hamount hargument
  obtain ⟨low, high⟩ := bounded _ hargument
  exact isZero_fmul hamount (isFinite_of_bounded low high)

/-! ### The pitch conversion (R138, R139) -/

/-- One is the unit of the product, bit for bit. -/
theorem fmul_one {p : Word} (h : isNaN p = false) : fmul p one = p := by
  have sign : (signBit p != signBit one) = signBit p := by
    rw [show signBit one = false from rfl, Bool.bne_false]
  rcases isInf_or_isFinite h with inf | finite
  · rw [fmul_of_inf h (by decide) (.inl inf) (isZero_of_inf inf) (by decide), sign,
      ← isInf_iff.1 inf, packReal_eq]
  · have units_one : units one = 2 ^ 149 := by decide
    rw [fmul_of_finite finite (by decide), sign, units_one, units,
      roundMag_unitsOfMag (Nat.two_pow_pos 149) (isFinite_iff.1 finite), packReal_eq]

/-- Settles O33: a zero note is zero octaves, a factor of one. -/
theorem zeroNoteIsTheBase : Obligations.ZeroNoteIsTheBase := by
  rintro pow2 base ⟨pos, neg⟩ hbase
  have octave_pos : fdiv zero twelve = zero := by decide
  have octave_neg : fdiv (fneg zero) twelve = fneg zero := by decide
  simp only [noteToFreqWith, octave_pos, octave_neg, pos, neg, fmul_one hbase, and_self]

/-- Settles O34, at the exponent 1. -/
theorem octaveConversion : Obligations.OctaveConversion := by
  intro pow2 log2 hpow hlog
  have octave : fdiv twelve twelve = realOfInt 1 := by decide
  have ratio : fdiv 0x445C0000 0x43DC0000 = realPowTwo 1 := by decide
  have doubled : fmul 0x43DC0000 (realPowTwo 1) = 0x445C0000 := by decide
  have note : fmul twelve (realOfInt 1) = twelve := by decide
  rw [noteToFreqWith, octave, hpow 1 (by decide) (by decide), freqToNoteWith, ratio,
    hlog 1 (by decide) (by decide)]
  exact ⟨doubled, note⟩

end Sys2Proof.Machine
end

section
/-!
What each command does, as one state: a V-format command acts on its voice and on that voice's flag, and
reads nothing else but the counter of the free values. `exec_eq_storing` ties these terms to `exec`; the
facts about every command are proved of them.
-/

namespace Sys2Proof.Machine

/-- What a command makes of the voice it names: the voice after it, whether the library failed on a
setting, and the word answered. -/
structure VoiceEffect where
  after : Voice
  failed : Bool
  answer : Word

/-- The effect of a V-format command on its voice `c`, the counter of the free values being `n`. -/
def voiceEffect (n : Nat) (c : Voice) : Instr → VoiceEffect
  | .dpush _ x => ⟨c.push (real x), false, 0⟩
  | .dpop _ => ⟨c.pop.1, false, shownReal n c.tap⟩
  | .dsetf v f rate => ⟨c.setf (Config.unspecAmt n v.val) f rate, false, 0⟩
  | .ftick _ x =>
    ⟨{ c with filter := (c.filter.tick x).1 }, false, shownReal n (c.filter.tick x).2⟩
  | .fsetc _ x =>
    ⟨{ c with filter := (c.filter.setCutoff (real x)).1 }, (c.filter.setCutoff (real x)).2, 0⟩
  | .fsetq _ q => ⟨{ c with filter := (c.filter.setQ (real q)).1 }, (c.filter.setQ (real q)).2, 0⟩
  | .vproc _ x => ⟨(c.process x).1, false, shownReal n c.tap⟩
  | .lnext | .lsetf _ | .lseta _ | .eframe | .esamp _ | .pwr _ _ | .prd _ => ⟨c, false, 0⟩

/-- The state in which a command on voice `v` with the effect `e` has answered. -/
def State.storeEffect (s : State) (v : Fin Config.nv) (e : VoiceEffect) : State :=
  State.finish { s.setVoice v e.after with status := recordCoefErr e.failed v s.status } e.answer

/-- The state in which the command has answered, if every word that it pushes exists. -/
def State.after (s : State) : Instr → State
  | i@(.dpush v _) | i@(.dpop v) | i@(.dsetf v _ _) | i@(.ftick v _) | i@(.fsetc v _)
  | i@(.fsetq v _) | i@(.vproc v _) => s.storeEffect v (voiceEffect s.serial (s.voice v) i)
  | .lnext => s.lnext.1.finishReal s.lnext.2
  | .lsetf f => (s.lsetf (real f)).finish 0
  | .lseta m => (s.lseta (real m)).finish 0
  | .eframe => s.frame.finish 0
  | .esamp x => (s.sample x).1.finishReal (clip (s.sample x).2)
  | .pwr reg x => ((s.writeParam reg x).map (·.finish 0)).getD s.reject
  | .prd reg => s.finish (s.readReg reg)

/-- The voices whose buffers the command writes. -/
def pushedVoices : Instr → List (Fin Config.nv)
  | .dpush v _ | .vproc v _ => [v]
  | .esamp _ => voiceIndices
  | .dpop _ | .dsetf _ _ _ | .ftick _ _ | .fsetc _ _ | .fsetq _ _ => []
  | .lnext | .lsetf _ | .lseta _ | .eframe | .pwr _ _ | .prd _ => []

theorem State.after_of_voiceOf (s : State) {i : Instr} {v : Fin Config.nv} (h : voiceOf i = some v) :
    s.after i = s.storeEffect v (voiceEffect s.serial (s.voice v) i) := by
  cases i <;> cases h <;> rfl

@[simp] theorem State.after_lnext (s : State) : s.after .lnext = s.lnext.1.finishReal s.lnext.2 := rfl
@[simp] theorem State.after_lsetf (s : State) (f : Word) :
    s.after (.lsetf f) = (s.lsetf (real f)).finish 0 := rfl
@[simp] theorem State.after_lseta (s : State) (m : Word) :
    s.after (.lseta m) = (s.lseta (real m)).finish 0 := rfl
@[simp] theorem State.after_eframe (s : State) : s.after .eframe = s.frame.finish 0 := rfl
@[simp] theorem State.after_esamp (s : State) (x : Word) :
    s.after (.esamp x) = (s.sample x).1.finishReal (clip (s.sample x).2) := rfl
@[simp] theorem State.after_prd (s : State) (reg : Reg) :
    s.after (.prd reg) = s.finish (s.readReg reg) := rfl

theorem State.after_pwr_some {s t : State} {reg : Reg} {x : Word} (h : s.writeParam reg x = some t) :
    s.after (.pwr reg x) = t.finish 0 := by simp [State.after, h]

theorem State.after_pwr_none {s : State} {reg : Reg} {x : Word} (h : s.writeParam reg x = none) :
    s.after (.pwr reg x) = s.reject := by simp [State.after, h]

/-- Every command is its state, unless a word that it pushes does not exist. -/
theorem exec_eq_storing (i : Instr) (s : State) :
    exec i s = storing s (pushedVoices i) (s.after i) := by
  cases i with
  | pwr reg x =>
    show Host.Outcome.next _ = Host.Outcome.next _
    cases h : s.writeParam reg x with
    | none => rw [State.after_pwr_none h]
    | some t => rw [State.after_pwr_some h]
  | _ => rfl

theorem exec_eq_next_iff {i : Instr} {s t : State} :
    exec i s = .next t ↔
      (∀ v ∈ pushedVoices i, (s.voice v).wp.toNat < Config.cap) ∧ t = s.after i := by
  rw [exec_eq_storing, storing_eq_next]

theorem eq_after_of_exec {i : Instr} {s t : State} (e : exec i s = .next t) : t = s.after i :=
  (exec_eq_next_iff.1 e).2

/-! ### The fields after a command on a voice -/

@[simp] theorem State.storeEffect_voice_same (s : State) (v : Fin Config.nv) (e : VoiceEffect) :
    (s.storeEffect v e).voice v = e.after := s.setVoice_voice_same v e.after

@[simp] theorem State.storeEffect_voice_of_ne (s : State) {v u : Fin Config.nv} (e : VoiceEffect)
    (h : u ≠ v) : (s.storeEffect v e).voice u = s.voice u := s.setVoice_voice_of_ne e.after h

@[simp] theorem State.storeEffect_status (s : State) (v : Fin Config.nv) (e : VoiceEffect) :
    (s.storeEffect v e).status = recordCoefErr e.failed v s.status := rfl

/-- A property of every voice that the effect keeps is one of every voice after the command. -/
theorem State.storeEffect_forall_voice {s : State} {v : Fin Config.nv} {e : VoiceEffect}
    {P : Fin Config.nv → Voice → Prop} (here : P v e.after) (others : ∀ u, P u (s.voice u))
    (u : Fin Config.nv) : P u ((s.storeEffect v e).voice u) := by
  by_cases hu : u = v
  · subst hu
    rwa [State.storeEffect_voice_same]
  · rw [State.storeEffect_voice_of_ne s e hu]
    exact others u

/-! ### A step -/

/-- What a step that answers a next state can be, with the packet it ran: idle, a refused packet, or the
state after the decoded command (R80, R81, R175). -/
theorem step_eq_after {s t : State} (e : step s = .next t) :
    t = s ∨ t = s.takePacket.reject ∨
      ∃ p i, s.cmdIn.head? = some p ∧ decode p = .ok i ∧ t = s.takePacket.after i := by
  unfold step at e
  split at e
  · cases e; exact .inl rfl
  · next p hp =>
    split at e
    · cases e; exact .inr (.inl rfl)
    · next i hi => exact .inr (.inr ⟨p, i, hp, hi, eq_after_of_exec e⟩)

end Sys2Proof.Machine
end

section
/-!
The parameter registers (R48 to R50), as a part of the state that can be exchanged: writing one is
exchanging it, no command but EFRAME, PRD and PWR reads one, and PWR alone writes one.
-/

namespace Sys2Proof.Machine

/-- The voice `c` with the parameter registers of `p`. -/
def Voice.withParams (c p : Voice) : Voice :=
  { c with pVgain := p.pVgain, pVcut := p.pVcut, pVq := p.pVq, pVoff := p.pVoff }

/-- The state `s` with the parameter registers of `p`. -/
def State.withParams (s p : State) : State :=
  { s with
    pDry := p.pDry
    pWet := p.pWet
    pLrate := p.pLrate
    pLdepth := p.pLdepth
    pBase := p.pBase
    voices := Vector.ofFn fun v => (s.voice v).withParams (p.voice v) }

@[simp] theorem State.withParams_voice (s p : State) (v : Fin Config.nv) :
    (s.withParams p).voice v = (s.voice v).withParams (p.voice v) := by
  simp [State.withParams, State.voice]

@[simp] theorem State.withParams_status (s p : State) : (s.withParams p).status = s.status := rfl
@[simp] theorem State.withParams_lfoPhase (s p : State) : (s.withParams p).lfoPhase = s.lfoPhase := rfl
@[simp] theorem State.withParams_lfoRate (s p : State) : (s.withParams p).lfoRate = s.lfoRate := rfl
@[simp] theorem State.withParams_lfoAmt (s p : State) : (s.withParams p).lfoAmt = s.lfoAmt := rfl
@[simp] theorem State.withParams_eDry (s p : State) : (s.withParams p).eDry = s.eDry := rfl
@[simp] theorem State.withParams_cmdIn (s p : State) : (s.withParams p).cmdIn = s.cmdIn := rfl
@[simp] theorem State.withParams_resp (s p : State) : (s.withParams p).resp = s.resp := rfl
@[simp] theorem State.withParams_serial (s p : State) : (s.withParams p).serial = s.serial := rfl

theorem SameParams.refl (s : State) : SameParams s s :=
  ⟨rfl, rfl, rfl, rfl, rfl, fun _ => ⟨rfl, rfl, rfl, rfl⟩⟩

/-- A voice that has the parameters of `p` already is `p`'s with its own. -/
theorem Voice.withParams_eq_self {c p : Voice}
    (h : p.pVgain = c.pVgain ∧ p.pVcut = c.pVcut ∧ p.pVq = c.pVq ∧ p.pVoff = c.pVoff) :
    c.withParams p = c := by
  obtain ⟨hgain, hcut, hq, hoff⟩ := h
  simp only [Voice.withParams, hgain, hcut, hq, hoff]

/-- A write of a voice's parameter is the same exchange in every voice with the same parameters. -/
theorem Voice.writeParam_withParams {c d p : Voice} {k : VoiceReg} {x : Word}
    (same : d.pVgain = c.pVgain ∧ d.pVcut = c.pVcut ∧ d.pVq = c.pVq ∧ d.pVoff = c.pVoff)
    (h : c.writeParam k x = some p) : d.writeParam k x = some (d.withParams p) := by
  obtain ⟨hgain, hcut, hq, hoff⟩ := same
  cases k <;> cases h <;>
    simp only [Voice.writeParam, Voice.withParams, ← hgain, ← hcut, ← hq, ← hoff]

/-- Where all voices have the parameters of `p` already, the global ones are exchanged. -/
theorem State.withParams_of_voices {s p : State} (h : ∀ v, (s.voice v).withParams (p.voice v) = s.voice v) :
    s.withParams p = { s with
      pDry := p.pDry, pWet := p.pWet, pLrate := p.pLrate, pLdepth := p.pLdepth, pBase := p.pBase } :=
  State.ext_of_voices rfl rfl rfl rfl rfl rfl rfl rfl rfl rfl
    (fun v => (s.withParams_voice p v).trans (h v)) rfl rfl rfl

/-- A write of a parameter register is the same exchange in every state with the same parameters. -/
theorem State.writeParam_withParams {s t p : State} {reg : Reg} {x : Word} (same : SameParams s t)
    (h : s.writeParam reg x = some p) : t.writeParam reg x = some (t.withParams p) := by
  obtain ⟨hdry, hwet, hrate, hdepth, hbase, hvoices⟩ := same
  have kept : ∀ u, (t.voice u).withParams (s.voice u) = t.voice u := fun u =>
    Voice.withParams_eq_self (by simp [hvoices u])
  cases reg with
  | voice v k =>
    obtain ⟨d, hd, rfl⟩ := Option.map_eq_some_iff.1 h
    refine Option.map_eq_some_iff.2 ⟨_, Voice.writeParam_withParams (hvoices v) hd, ?_⟩
    refine State.ext_of_voices hdry hwet hrate hdepth hbase rfl rfl rfl rfl rfl (fun u => ?_) rfl rfl rfl
    by_cases hu : u = v
    · subst hu
      simp
    · simp [hu, kept]
  | pDry | pWet | pLrate | pLdepth | pBase =>
    cases h
    rw [State.withParams_of_voices (by exact kept)]
    simp only [State.writeParam, hdry, hwet, hrate, hdepth, hbase]
  | _ => cases h

/-- A write of a parameter register changes that register at most. -/
theorem State.eq_withParams {s p : State} {reg : Reg} {x : Word} (h : s.writeParam reg x = some p) :
    p = s.withParams p :=
  Option.some.inj (h.symm.trans (State.writeParam_withParams (SameParams.refl s) h))

/-- What PWR does: it is refused, or exchanges parameter registers. -/
theorem State.after_pwr_cases (s : State) (reg : Reg) (x : Word) :
    s.after (.pwr reg x) = s.reject ∨
      ∃ p, s.writeParam reg x = some p ∧ s.after (.pwr reg x) = (s.withParams p).finish 0 := by
  cases h : s.writeParam reg x with
  | none => exact .inl (State.after_pwr_none h)
  | some p =>
    refine .inr ⟨p, rfl, ?_⟩
    rw [State.after_pwr_some h, ← State.eq_withParams h]

end Sys2Proof.Machine
end

section
/-!
The library's failures: which command hands it a setting, and what that setting is (R114, R116, R142).
-/

namespace Sys2Proof.Machine

theorem SvfFilter.recompute_failed (f : SvfFilter) :
    f.recompute.2 = true ↔ svfCoef f.type f.srate f.cut f.q f.gain = none := by
  obtain ⟨k, hk, e⟩ | ⟨hk, e⟩ := f.recompute_cases <;> simp [hk, e]

/-- The library fails on the setting that the command hands it for a voice with parameters as `c` has
them and the SVF `g`. -/
def SettingFails (c : Voice) (g : SvfFilter) : Instr → Prop
  | .fsetc _ x => svfCoef g.type g.srate x g.q g.gain = none
  | .fsetq _ q => svfCoef g.type g.srate g.cut q g.gain = none
  | .eframe => svfCoef g.type g.srate c.pVcut g.q g.gain = none ∨
      svfCoef g.type g.srate c.pVcut c.pVq g.gain = none
  | _ => False

theorem Filter.setCutoff_failed {f : Filter} {x : Word} (h : (f.setCutoff x).2 = true) :
    ∃ g, f = .svf g ∧ svfCoef g.type g.srate x g.q g.gain = none := by
  cases f with
  | comb g => cases h
  | svf g => exact ⟨g, rfl, (SvfFilter.recompute_failed _).1 h⟩

theorem Filter.setQ_failed {f : Filter} {q : Word} (h : (f.setQ q).2 = true) :
    ∃ g, f = .svf g ∧ svfCoef g.type g.srate g.cut q g.gain = none := by
  cases f with
  | comb g => cases h
  | svf g => exact ⟨g, rfl, (SvfFilter.recompute_failed _).1 h⟩

/-- A command on a voice fails only for an SVF, on the setting of that command. -/
theorem settingFails_of_failed {n : Nat} {c : Voice} {i : Instr}
    (h : (voiceEffect n c i).failed = true) : ∃ g, c.filter = .svf g ∧ SettingFails c g i := by
  cases i with
  | fsetc v x =>
    obtain ⟨g, hg, fails⟩ := Filter.setCutoff_failed h
    exact ⟨g, hg, by rwa [svfCoef_real_cut] at fails⟩
  | fsetq v q =>
    obtain ⟨g, hg, fails⟩ := Filter.setQ_failed h
    exact ⟨g, hg, by rwa [svfCoef_real_q] at fails⟩
  | _ => cases h

/-- EFRAME fails for a voice only if its filter is an SVF, on the new cutoff with the old or the new Q. -/
theorem settingFails_of_frameFails {c : Voice} (h : c.frameFails = true) :
    ∃ g, c.filter = .svf g ∧ SettingFails c g .eframe := by
  rcases Bool.or_eq_true_iff.1 h with h | h
  · obtain ⟨g, hg, fails⟩ := Filter.setCutoff_failed h
    exact ⟨g, hg, .inl (by rwa [svfCoef_real_cut] at fails)⟩
  · obtain ⟨k, hk, fails⟩ := Filter.setQ_failed h
    cases hc : c.filter with
    | comb g => simp [hc, Filter.setCutoff] at hk
    | svf g =>
      obtain ⟨htype, hrate, hcut, -, hgain, -⟩ :=
        ({ g with cut := real c.pVcut } : SvfFilter).recompute_setting
      obtain rfl : ({ g with cut := real c.pVcut } : SvfFilter).recompute.1 = k := by
        simpa [hc, Filter.setCutoff] using hk
      refine ⟨g, rfl, .inr ?_⟩
      simpa [htype, hrate, hcut, hgain] using fails

/-- A coefficient computation fails for voice `v` in the command. -/
def FailsFor (s : State) (i : Instr) (v : Fin Config.nv) : Prop :=
  (voiceOf i = some v ∧ (voiceEffect s.serial (s.voice v) i).failed = true) ∨
    (i = .eframe ∧ (s.voice v).frameFails = true)

theorem FailsFor.settingFails {s : State} {i : Instr} {v : Fin Config.nv} (h : FailsFor s i v) :
    ∃ g, (s.voice v).filter = .svf g ∧ SettingFails (s.voice v) g i := by
  obtain ⟨-, failed⟩ | ⟨rfl, failed⟩ := h
  · exact settingFails_of_failed failed
  · exact settingFails_of_frameFails failed

/-- A command that names a voice fails for that voice alone. -/
theorem FailsFor.eq_voice {s : State} {i : Instr} {u v : Fin Config.nv} (h : FailsFor s i v)
    (hu : voiceOf i = some u) : u = v := by
  obtain ⟨hv, -⟩ | ⟨rfl, -⟩ := h
  · exact Option.some.inj (hu.symm.trans hv)
  · cases hu

theorem not_failsFor {s : State} {i : Instr} {v : Fin Config.nv} (hv : voiceOf i = none)
    (he : i ≠ .eframe) : ¬ FailsFor s i v := by simp [FailsFor, hv, he]

/-- A command that computes no coefficients leaves `STATUS` (R47). -/
theorem State.after_status_eq (s : State) {i : Instr} (hv : voiceOf i = none) (he : i ≠ .eframe) :
    (s.after i).status = s.status := by
  cases i with
  | esamp x =>
    obtain ⟨-, same, -⟩ := s.sample_spec x
    rw [State.after_esamp, State.finishReal_status, same]
  | pwr reg x => obtain e | ⟨p, -, e⟩ := s.after_pwr_cases reg x <;> simp [e]
  | lnext | lsetf | lseta | prd => simp
  | eframe => exact absurd rfl he
  | _ => cases hv

/-- Every flag after a command: set before, or by a failed computation of this command (R47). -/
theorem State.after_status (s : State) (i : Instr) (b : Nat) :
    (s.after i).status.getLsbD b = true ↔
      s.status.getLsbD b = true ∨ ∃ v : Fin Config.nv, v.val = b ∧ FailsFor s i v := by
  cases hi : voiceOf i with
  | some u =>
    have named : (∃ v : Fin Config.nv, v.val = b ∧ FailsFor s i v) ↔
        (voiceEffect s.serial (s.voice u) i).failed = true ∧ b = u.val := by
      constructor
      · rintro ⟨v, hv, ⟨e, failed⟩ | ⟨rfl, -⟩⟩
        · obtain rfl := Option.some.inj (hi.symm.trans e)
          exact ⟨failed, hv.symm⟩
        · cases hi
      · exact fun ⟨failed, hu⟩ => ⟨u, hu.symm, .inl ⟨hi, failed⟩⟩
    rw [s.after_of_voiceOf hi, State.storeEffect_status, getLsbD_recordCoefErr, named,
      Bool.or_eq_true, Bool.and_eq_true, decide_eq_true_iff]
  | none =>
    by_cases he : i = .eframe
    · subst he
      have fails : ∀ v, FailsFor s .eframe v ↔ (s.voice v).frameFails = true := fun v => by
        simp [FailsFor, voiceOf]
      simp only [fails, State.after_eframe, State.finish_status, s.frame_status b]
    · simp only [s.after_status_eq hi he, not_failsFor hi he, and_false, exists_false, or_false]

/-- Settles O45: a flag after a command is set before it or by a computation that the command fails. -/
theorem statusIsSticky : Obligations.StatusIsSticky := by
  intro s t v e
  obtain rfl | rfl | ⟨p, i, hp, hi, rfl⟩ := step_eq_after e
  · exact ⟨id, fun clear set => by simp [clear] at set⟩
  · exact ⟨id, fun clear set => by simp_all⟩
  · refine ⟨fun set => (State.after_status _ i _).2 (.inl set), fun clear set => ?_⟩
    obtain set | ⟨u, hu, fails⟩ := (State.after_status _ i _).1 set
    · exact absurd set (by simpa [coefErr] using clear)
    · obtain rfl := Fin.ext hu
      obtain ⟨g, hg, setting⟩ := fails.settingFails
      refine ⟨p, i, g, hp, hi, hg, ?_⟩
      cases i with
      | fsetc | fsetq => exact ⟨fails.eq_voice rfl, setting⟩
      | _ => exact setting

end Sys2Proof.Machine
end

section
/-!
The invariant (R35, R36, R38, R47): it holds after every reset and every step keeps it, so it holds of
every reachable state.
-/

namespace Sys2Proof.Machine

/-! ### One voice -/

theorem Voice.Inv.effect {v : Fin Config.nv} {c : Voice} (h : c.Inv v) (n : Nat) (i : Instr) :
    (voiceEffect n c i).after.Inv v := by
  cases i with
  | dpush u x => exact Voice.push_inv _ h
  | dpop u => exact Voice.pop_inv h
  | dsetf u f rate => exact Voice.setf_inv f rate (unspecAmt_lt _ _) h
  | ftick u x => exact Voice.filter_inv (Filter.tick_fits x h.fits) h
  | fsetc u x => exact Voice.filter_inv (Filter.setCutoff_fits _ h.fits).1 h
  | fsetq u q => exact Voice.filter_inv (Filter.setQ_fits _ h.fits).1 h
  | vproc u x => exact Voice.process_inv x h
  | _ => exact h

theorem Voice.Inv.framed {v : Fin Config.nv} {c : Voice} (h : c.Inv v) (wet base : Word) :
    (notedVoice base (framedVoice wet c)).Inv v :=
  ⟨h.wp_lt, h.amt_lt, h.buf_wf,
    (Filter.setQ_fits _ (Filter.setCutoff_fits _ h.fits).1).1⟩

theorem Voice.Inv.sampled {v : Fin Config.nv} {c : Voice} (h : c.Inv v) (n : Nat) (x lv : Word) :
    (sampledVoice n x lv v c).Inv v :=
  Voice.process_inv x (Voice.setf_inv _ _ (unspecAmt_lt n v.val) h)

theorem Voice.Inv.withParams {v : Fin Config.nv} {c : Voice} (h : c.Inv v) (p : Voice) :
    (c.withParams p).Inv v :=
  ⟨h.wp_lt, h.amt_lt, h.buf_wf, h.fits⟩

theorem resetVoice_inv (w : Fin Config.nv → VoiceParam → Word) (v : Fin Config.nv) :
    (resetVoice w v).Inv v := by
  refine ⟨show 0 < Config.cap by decide, show 0 < Config.cap by decide, Memory.wf_nil, ?_⟩
  show (resetFilter v).Fits v
  unfold resetFilter
  split
  · next h => exact h
  · next h => exact ⟨h, rfl, rfl, rfl⟩

/-! ### Every command and every step -/

/-- Every voice after a command has the invariant of that voice. -/
theorem State.Inv.voice_after {s : State} (h : s.Inv) (i : Instr) (v : Fin Config.nv) :
    ((s.after i).voice v).Inv v := by
  cases i with
  | lnext | lsetf | lseta | prd => exact h.voice v
  | eframe =>
    obtain ⟨-, voices⟩ := s.frame_spec
    rw [State.after_eframe, State.finish_voice, voices v]
    exact (h.voice v).framed _ _
  | esamp x =>
    obtain ⟨-, -, voices, -⟩ := s.sample_spec x
    rw [State.after_esamp, State.finishReal_voice, voices v]
    exact (h.voice v).sampled _ _ _
  | pwr reg x =>
    obtain e | ⟨p, -, e⟩ := s.after_pwr_cases reg x
    · rw [e]
      exact h.voice v
    · rw [e, State.finish_voice, State.withParams_voice]
      exact (h.voice v).withParams _
  | _ =>
    rw [State.after_of_voiceOf s rfl]
    exact State.storeEffect_forall_voice ((h.voice _).effect _ _) h.voice v

/-- Only an SVF voice has a failing computation (R119). -/
theorem FailsFor.variant {s : State} {i : Instr} {v : Fin Config.nv} (h : FailsFor s i v)
    (hs : s.Inv) : Config.filterVariant v = .svf := by
  obtain ⟨g, hg, -⟩ := h.settingFails
  have fits := (hs.voice v).fits
  rw [hg] at fits
  exact fits.1

theorem State.Inv.after {s : State} (h : s.Inv) (i : Instr) : (s.after i).Inv := by
  refine ⟨h.voice_after i, fun b set => ?_⟩
  obtain set | ⟨v, hv, fails⟩ := (s.after_status i b).1 set
  · exact h.status b set
  · exact ⟨v, hv, fails.variant h⟩

theorem State.Inv.takePacket {s : State} (h : s.Inv) : s.takePacket.Inv := ⟨h.voice, h.status⟩

theorem State.Inv.reject {s : State} (h : s.Inv) : s.reject.Inv := ⟨h.voice, h.status⟩

/-- Settles O41: a step is idle, refuses its packet, or runs a command, and each keeps the invariant. -/
theorem everyStepKeepsTheInvariant : Obligations.EveryStepKeepsTheInvariant := by
  intro s t h e
  obtain rfl | rfl | ⟨-, i, -, -, rfl⟩ := step_eq_after e
  · exact h
  · exact h.takePacket.reject
  · exact h.takePacket.after i

/-! ### Reset -/

theorem resetWith_inv (g : GlobalParam → Word) (w : Fin Config.nv → VoiceParam → Word) :
    (State.resetWith g w).Inv := by
  refine ⟨fun v => ?_, fun i set => ?_⟩
  · rw [State.resetWith_voice]
    exact resetVoice_inv w v
  · simp [State.resetWith] at set

theorem assertReset_inv (g : GlobalParam → Word) (w : Fin Config.nv → VoiceParam → Word) (s : State) :
    (s.assertReset g w).Inv :=
  ⟨(resetWith_inv g w).voice, (resetWith_inv g w).status⟩

theorem resetDuring_inv (g : GlobalParam → Word) (w : Fin Config.nv → VoiceParam → Word)
    (r : Option Response) (s : State) : (s.resetDuring g w r).Inv :=
  ⟨(resetWith_inv g w).voice, (resetWith_inv g w).status⟩

/-- Settles O40: every reset leaves the voices and the `STATUS` of `State.resetWith`. -/
theorem resetSatisfiesTheInvariant : Obligations.ResetSatisfiesTheInvariant :=
  ⟨resetWith_inv _ _, fun g w s => ⟨assertReset_inv g w s, fun r => resetDuring_inv g w r s⟩⟩

/-! ### Reachable states -/

theorem Reachable.inv {s : State} (h : Reachable s) : s.Inv := by
  induction h with
  | reset => exact resetWith_inv _ _
  | step _ e ih => exact everyStepKeepsTheInvariant _ _ ih e
  | enqueue _ p ih => exact ⟨ih.voice, ih.status⟩
  | assertReset s g w => exact assertReset_inv g w s
  | resetDuring s g w r _ => exact resetDuring_inv g w r s

/-- Settles O42, from the invariant of reachable states. -/
theorem indicesStayInRange : Obligations.IndicesStayInRange :=
  fun _ h v => ⟨(h.inv.voice v).wp_lt, Nat.le_sub_one_of_lt (h.inv.voice v).amt_lt⟩

/-- A filter that fits its voice is of the voice's variant. -/
theorem Filter.Fits.variant {v : Fin Config.nv} {f : Filter} (h : f.Fits v) :
    f.variant = Config.filterVariant v := by
  cases f with
  | comb g => exact h.symm
  | svf g => exact h.1.symm

/-- Settles O44, from the invariant of reachable states. -/
theorem filterVariantNeverChanges : Obligations.FilterVariantNeverChanges := by
  intro s h v
  have fits := (h.inv.voice v).fits
  refine ⟨fits.variant, fun g hg => ?_⟩
  rw [hg] at fits
  exact fits.2

end Sys2Proof.Machine
end

section
/-!
Which command writes which register (R31 to R34, R37 to R41, R43, R44, R47 to R49), field by field: each
operation adds the fields it writes, and a command is its operations.
-/

namespace Sys2Proof.Machine

/-! ### One filter -/

/-- A command with the opcode `o` may take the first filter to the second: the variant and the fixed
settings stay, and every field that changes has the opcode among its writers. -/
def Filter.WrittenBy (o : Opcode) : Filter → Filter → Prop
  | .comb g, .comb h =>
    (h.y = g.y ∨ o ∈ [.ftick, .vproc, .esamp]) ∧ (h.b = g.b ∧ h.a = g.a ∨ o ∈ [.fsetc, .eframe])
  | .svf g, .svf h =>
    h.type = g.type ∧ h.srate = g.srate ∧ h.gain = g.gain ∧
      (h.cut = g.cut ∨ o ∈ [.fsetc, .eframe]) ∧ (h.q = g.q ∨ o ∈ [.fsetq, .eframe]) ∧
      (h.co = g.co ∨ o ∈ [.fsetc, .fsetq, .eframe]) ∧ (h.st = g.st ∨ o ∈ [.ftick, .vproc, .esamp])
  | .comb _, .svf _ | .svf _, .comb _ => False

section
variable {o : Opcode} {f f' : Filter}

theorem Filter.WrittenBy.refl (o : Opcode) (f : Filter) : f.WrittenBy o f := by
  cases f <;> simp [Filter.WrittenBy]

theorem Filter.WrittenBy.variant (h : f.WrittenBy o f') : f'.variant = f.variant := by
  cases f <;> cases f'
  case comb.comb | svf.svf => rfl
  all_goals exact h.elim

theorem Filter.WrittenBy.tick (h : f.WrittenBy o f') (ho : o ∈ [.ftick, .vproc, .esamp]) (x : Word) :
    f.WrittenBy o (f'.tick x).1 := by
  cases f' <;> cases f
  case comb.comb => exact ⟨.inr ho, h.2⟩
  case svf.svf =>
    obtain ⟨htype, hrate, hgain, hcut, hq, hco, -⟩ := h
    exact ⟨htype, hrate, hgain, hcut, hq, hco, .inr ho⟩
  all_goals exact h

theorem Filter.WrittenBy.recompute {g : SvfFilter} (h : f.WrittenBy o (.svf g))
    (ho : o ∈ [.fsetc, .fsetq, .eframe]) : f.WrittenBy o (.svf g.recompute.1) := by
  obtain ⟨k, -, e⟩ | ⟨-, e⟩ := g.recompute_cases
  · rw [e]
    cases f with
    | comb _ => exact h
    | svf _ =>
      obtain ⟨htype, hrate, hgain, hcut, hq, -, hst⟩ := h
      exact ⟨htype, hrate, hgain, hcut, hq, .inr ho, hst⟩
  · rwa [e]

theorem Filter.WrittenBy.setCutoff (h : f.WrittenBy o f') (ho : o ∈ [.fsetc, .eframe]) (x : Word) :
    f.WrittenBy o (f'.setCutoff x).1 := by
  have writers : [Opcode.fsetc, .eframe] ⊆ [.fsetc, .fsetq, .eframe] := by decide
  cases f' <;> cases f
  case comb.comb => exact ⟨h.1, .inr ho⟩
  case svf.svf =>
    obtain ⟨htype, hrate, hgain, -, hq, hco, hst⟩ := h
    exact Filter.WrittenBy.recompute (f := .svf _) ⟨htype, hrate, hgain, .inr ho, hq, hco, hst⟩
      (writers ho)
  all_goals exact h

theorem Filter.WrittenBy.setQ (h : f.WrittenBy o f') (ho : o ∈ [.fsetq, .eframe]) (q : Word) :
    f.WrittenBy o (f'.setQ q).1 := by
  cases f' <;> cases f
  case svf.svf =>
    obtain ⟨htype, hrate, hgain, hcut, -, hco, hst⟩ := h
    exact Filter.WrittenBy.recompute (f := .svf _) ⟨htype, hrate, hgain, hcut, .inr ho, hco, hst⟩
      (List.mem_cons_of_mem _ ho)
  all_goals exact h

end

/-! ### One voice -/

/-- A command with the opcode `o` may take the first voice to the second. -/
structure Voice.WrittenBy (o : Opcode) (c d : Voice) : Prop where
  params : (d.pVgain = c.pVgain ∧ d.pVcut = c.pVcut ∧ d.pVq = c.pVq ∧ d.pVoff = c.pVoff) ∨ o = .pwr
  latches : (d.eVgain = c.eVgain ∧ d.eNote = c.eNote) ∨ o = .eframe
  ring : (∀ a, d.buf.readByte a = c.buf.readByte a) ∧ d.wp = c.wp ∨ o ∈ [.dpush, .vproc, .esamp]
  amt : d.amt = c.amt ∨ o ∈ [.dsetf, .esamp]
  last : d.last = c.last ∨ o ∈ [.dpop, .vproc, .esamp]
  filter : d.filter = c.filter ∨ o ∈ [.ftick, .fsetc, .fsetq, .vproc, .eframe, .esamp]
  fields : c.filter.WrittenBy o d.filter

section
variable {o : Opcode} {c d : Voice}

theorem Voice.WrittenBy.refl (o : Opcode) (c : Voice) : c.WrittenBy o c where
  params := .inl ⟨rfl, rfl, rfl, rfl⟩
  latches := .inl ⟨rfl, rfl⟩
  ring := .inl ⟨fun _ => rfl, rfl⟩
  amt := .inl rfl
  last := .inl rfl
  filter := .inl rfl
  fields := .refl o c.filter

theorem Voice.WrittenBy.push (h : c.WrittenBy o d) (ho : o ∈ [.dpush, .vproc, .esamp]) (x : Word) :
    c.WrittenBy o (d.push x) :=
  { h with ring := .inr ho }

theorem Voice.WrittenBy.pop (h : c.WrittenBy o d) (ho : o ∈ [.dpop, .vproc, .esamp]) :
    c.WrittenBy o d.pop.1 :=
  { h with last := .inr ho }

theorem Voice.WrittenBy.setf (h : c.WrittenBy o d) (ho : o ∈ [.dsetf, .esamp]) (u : BitVec Config.idxw)
    (f rate : Word) : c.WrittenBy o (d.setf u f rate) :=
  { h with amt := .inr ho }

theorem Voice.WrittenBy.setFilter (h : c.WrittenBy o d)
    (ho : o ∈ [.ftick, .fsetc, .fsetq, .vproc, .eframe, .esamp]) {f : Filter}
    (hf : c.filter.WrittenBy o f) : c.WrittenBy o { d with filter := f } :=
  { h with filter := .inr ho, fields := hf }

/-- One feedback step pops, ticks the filter and pushes (R126). -/
theorem Voice.WrittenBy.process (h : c.WrittenBy o d) (ho : o ∈ [.vproc, .esamp]) (x : Word) :
    c.WrittenBy o (d.process x).1 := by
  have writers : [Opcode.vproc, .esamp] ⊆ [.ftick, .fsetc, .fsetq, .vproc, .eframe, .esamp] := by decide
  have popped := h.pop (List.mem_cons_of_mem _ ho)
  have ticked := popped.setFilter (writers ho) (popped.fields.tick (List.mem_cons_of_mem _ ho) d.tap)
  exact ticked.push (List.mem_cons_of_mem _ ho) _

theorem Voice.writtenBy_framed (c : Voice) (wet base : Word) :
    c.WrittenBy .eframe (notedVoice base (framedVoice wet c)) where
  params := .inl ⟨rfl, rfl, rfl, rfl⟩
  latches := .inr rfl
  ring := .inl ⟨fun _ => rfl, rfl⟩
  amt := .inl rfl
  last := .inl rfl
  filter := .inr (by simp)
  fields := ((Filter.WrittenBy.refl _ _).setCutoff (by simp) _).setQ (by simp) _

theorem Voice.writtenBy_withParams (c p : Voice) : c.WrittenBy .pwr (c.withParams p) :=
  { Voice.WrittenBy.refl .pwr c with params := .inr rfl }

theorem Voice.writtenBy_effect (n : Nat) (c : Voice) (i : Instr) :
    c.WrittenBy i.opcode (voiceEffect n c i).after := by
  have start : ∀ o, c.WrittenBy o c := fun o => .refl o c
  cases i with
  | dpush u x => exact (start .dpush).push (by decide) _
  | dpop u => exact (start .dpop).pop (by decide)
  | dsetf u f rate => exact (start .dsetf).setf (by decide) _ f rate
  | ftick u x => exact (start .ftick).setFilter (by decide) ((start .ftick).fields.tick (by decide) x)
  | fsetc u x => exact (start .fsetc).setFilter (by decide) ((start .fsetc).fields.setCutoff (by decide) _)
  | fsetq u q => exact (start .fsetq).setFilter (by decide) ((start .fsetq).fields.setQ (by decide) _)
  | vproc u x => exact (start .vproc).process (by decide) x
  | _ => exact start _

end

/-! ### The machine -/

/-- Every voice after a command. -/
theorem State.writtenBy_voice (s : State) (i : Instr) (v : Fin Config.nv) :
    (s.voice v).WrittenBy i.opcode ((s.after i).voice v) := by
  cases i with
  | lnext | lsetf | lseta | prd => exact .refl _ _
  | eframe =>
    obtain ⟨-, voices⟩ := s.frame_spec
    rw [State.after_eframe, State.finish_voice, voices v]
    exact Voice.writtenBy_framed _ _ _
  | esamp x =>
    obtain ⟨-, -, voices, -⟩ := s.sample_spec x
    rw [State.after_esamp, State.finishReal_voice, voices v]
    exact ((Voice.WrittenBy.refl .esamp _).setf (by decide) _ _ _).process (by decide) x
  | pwr reg x =>
    obtain e | ⟨p, -, e⟩ := s.after_pwr_cases reg x
    · rw [e]
      exact .refl _ _
    · rw [e, State.finish_voice, State.withParams_voice]
      exact Voice.writtenBy_withParams _ _
  | _ =>
    rw [State.after_of_voiceOf s rfl]
    exact State.storeEffect_forall_voice (P := fun u d => (s.voice u).WrittenBy _ d)
      (Voice.writtenBy_effect _ _ _) (fun u => .refl _ _) v

/-- A command with the opcode `o` may take what the first state holds outside the voices to what the
second holds. -/
structure GlobalsWrittenBy (o : Opcode) (s t : State) : Prop where
  params : (t.pDry = s.pDry ∧ t.pWet = s.pWet ∧ t.pLrate = s.pLrate ∧ t.pLdepth = s.pLdepth ∧
    t.pBase = s.pBase) ∨ o = .pwr
  eDry : t.eDry = s.eDry ∨ o = .eframe
  status : t.status = s.status ∨ o ∈ [.fsetc, .fsetq, .eframe]
  lfoPhase : t.lfoPhase = s.lfoPhase ∨ o ∈ [.lnext, .esamp]
  lfoRate : t.lfoRate = s.lfoRate ∨ o ∈ [.lsetf, .eframe]
  lfoAmt : t.lfoAmt = s.lfoAmt ∨ o ∈ [.lseta, .eframe]
  cmdIn : t.cmdIn = s.cmdIn

theorem GlobalsWrittenBy.refl (o : Opcode) (s : State) : GlobalsWrittenBy o s s where
  params := .inl ⟨rfl, rfl, rfl, rfl, rfl⟩
  eDry := .inl rfl
  status := .inl rfl
  lfoPhase := .inl rfl
  lfoRate := .inl rfl
  lfoAmt := .inl rfl
  cmdIn := rfl

theorem GlobalsWrittenBy.finish {o : Opcode} {s t : State} (h : GlobalsWrittenBy o s t) (r : Word) :
    GlobalsWrittenBy o s (t.finish r) := { h with }

theorem GlobalsWrittenBy.finishReal {o : Opcode} {s t : State} (h : GlobalsWrittenBy o s t) (x : Word) :
    GlobalsWrittenBy o s (t.finishReal x) := { h with }

theorem globalsWrittenBy_frame (s : State) : GlobalsWrittenBy .eframe s s.frame := by
  obtain ⟨⟨hdry, hwet, hlrate, hldepth, hbase, hphase, -, -, -, hport, -⟩, -⟩ := s.frame_spec
  exact {
    params := .inl ⟨hdry, hwet, hlrate, hldepth, hbase⟩
    eDry := .inr rfl
    status := .inr (by decide)
    lfoPhase := .inl hphase
    lfoRate := .inr (by decide)
    lfoAmt := .inr (by decide)
    cmdIn := hport }

theorem globalsWrittenBy_sample (s : State) (x : Word) : GlobalsWrittenBy .esamp s (s.sample x).1 := by
  obtain ⟨⟨hdry, hwet, hlrate, hldepth, hbase, -, hrate, hamt, hlatch, hport, -⟩, hstatus, -⟩ :=
    s.sample_spec x
  exact {
    params := .inl ⟨hdry, hwet, hlrate, hldepth, hbase⟩
    eDry := .inl hlatch
    status := .inl hstatus
    lfoPhase := .inr (by decide)
    lfoRate := .inl hrate
    lfoAmt := .inl hamt
    cmdIn := hport }

theorem globalsWrittenBy_after (s : State) (i : Instr) : GlobalsWrittenBy i.opcode s (s.after i) := by
  have start : ∀ o, GlobalsWrittenBy o s s := fun o => .refl o s
  cases i with
  | lnext => exact { start .lnext with lfoPhase := .inr (by decide) }
  | lsetf f => exact { start .lsetf with lfoRate := .inr (by simp [Instr.opcode]) }
  | lseta m => exact { start .lseta with lfoAmt := .inr (by simp [Instr.opcode]) }
  | fsetc u x => exact { start .fsetc with status := .inr (by simp [Instr.opcode]) }
  | fsetq u q => exact { start .fsetq with status := .inr (by simp [Instr.opcode]) }
  | eframe => exact (globalsWrittenBy_frame s).finish 0
  | esamp x => exact (globalsWrittenBy_sample s x).finishReal _
  | pwr reg x =>
    obtain e | ⟨p, -, e⟩ := s.after_pwr_cases reg x
    · rw [e]
      exact { start .pwr with }
    · rw [e]
      exact { start .pwr with params := .inr rfl }
  | _ => exact { start _ with }

/-- A command that is not PWR leaves every parameter register (R50). -/
theorem sameParams_after (s : State) {i : Instr} (hi : i.opcode ≠ .pwr) : SameParams s (s.after i) := by
  obtain ⟨hdry, hwet, hrate, hdepth, hbase⟩ := (globalsWrittenBy_after s i).params.resolve_right hi
  exact ⟨hdry, hwet, hrate, hdepth, hbase, fun v => (s.writtenBy_voice i v).params.resolve_right hi⟩

/-- A command that is not EFRAME leaves every latch (R44). -/
theorem sameLatches_after (s : State) {i : Instr} (hi : i.opcode ≠ .eframe) :
    SameLatches s (s.after i) :=
  ⟨(globalsWrittenBy_after s i).eDry.resolve_right hi,
    fun v => (s.writtenBy_voice i v).latches.resolve_right hi⟩

/-- Settles O46, from the writers of the voices' fields and of the other registers. -/
theorem everyRegisterHasItsWriters : Obligations.EveryRegisterHasItsWriters := by
  intro i s t e
  obtain rfl := eq_after_of_exec e
  have globals := globalsWrittenBy_after s i
  refine ⟨or_iff_not_imp_right.2 (sameParams_after s), or_iff_not_imp_right.2 (sameLatches_after s),
    globals.status, globals.lfoPhase, globals.lfoRate, globals.lfoAmt, globals.cmdIn, fun v => ?_⟩
  have voice := s.writtenBy_voice i v
  refine ⟨voice.ring, voice.amt, voice.last, voice.filter, voice.fields.variant, fun g h hg hh => ?_,
    fun g h hg hh => ?_⟩
  · have fields := voice.fields
    rwa [hg, hh] at fields
  · have fields := voice.fields
    rwa [hg, hh] at fields

end Sys2Proof.Machine
end

section
/-!
What a command does not depend on: a V-format command on the other voices (R30), and every command but
EFRAME, PRD and PWR on the parameter registers (R50).
-/

namespace Sys2Proof.Machine

/-- Settles O47: the command is its effect on voice `v`, a function of that voice and the counter. -/
theorem voicesAreIsolated : Obligations.VoicesAreIsolated := by
  intro i v s1 s2 t1 t2 hv e1 e2
  obtain rfl := eq_after_of_exec e1
  obtain rfl := eq_after_of_exec e2
  rw [s1.after_of_voiceOf hv, s2.after_of_voiceOf hv]
  refine ⟨fun u hu => s1.storeEffect_voice_of_ne _ hu, fun voice serial => ?_⟩
  rw [voice, serial]
  exact ⟨by simp only [State.storeEffect_voice_same], rfl⟩

/-! ### Other parameters, the same operations -/

theorem State.setVoice_withParams (s p : State) (v : Fin Config.nv) (c : Voice) :
    (s.withParams p).setVoice v (c.withParams (p.voice v)) = (s.setVoice v c).withParams p := by
  refine State.ext_of_voices rfl rfl rfl rfl rfl rfl rfl rfl rfl rfl (fun u => ?_) rfl rfl rfl
  by_cases hu : u = v
  · subst hu
    simp
  · simp [hu]

/-- A command on a voice reads none of its parameters. -/
theorem voiceEffect_withParams (n : Nat) (c p : Voice) (i : Instr) :
    voiceEffect n (c.withParams p) i =
      { voiceEffect n c i with after := (voiceEffect n c i).after.withParams p } := by
  cases i <;> rfl

theorem State.storeEffect_withParams (s p : State) (v : Fin Config.nv) (e : VoiceEffect) :
    (s.withParams p).storeEffect v { e with after := e.after.withParams (p.voice v) } =
      (s.storeEffect v e).withParams p := by
  simp only [State.storeEffect, State.setVoice_withParams]
  rfl

/-- A pass of the loop of ESAMP, as one write of the voice (R144). -/
theorem sampleVoice_eq (x lv : Word) (acc : State × Word) (v : Fin Config.nv) :
    sampleVoice x lv acc v =
      (acc.1.setVoice v (sampledVoice acc.1.serial x lv v (acc.1.voice v)),
        fadd acc.2 (sampledTerm acc.1.serial lv v (acc.1.voice v))) := by
  simp [sampleVoice, State.vproc, State.setf, sampledVoice, sampledTerm]

theorem sampleVoice_withParams (p : State) (x lv : Word) (acc : State × Word) (v : Fin Config.nv) :
    sampleVoice x lv (acc.1.withParams p, acc.2) v =
      ((sampleVoice x lv acc v).1.withParams p, (sampleVoice x lv acc v).2) := by
  simp only [sampleVoice_eq, ← State.setVoice_withParams, State.withParams_voice]
  rfl

/-- ESAMP reads no parameter: it uses the latches (R144). -/
theorem State.sample_withParams (s p : State) (x : Word) :
    (s.withParams p).sample x = ((s.sample x).1.withParams p, (s.sample x).2) := by
  have start : (s.withParams p).lnext = (s.lnext.1.withParams p, s.lnext.2) := rfl
  simp only [State.sample, start, State.withParams_eDry]
  generalize voiceIndices = vs
  exact List.foldl_hom (fun acc : State × Word => (acc.1.withParams p, acc.2))
    (init := (s.lnext.1, fmul s.eDry x)) (fun acc v => sampleVoice_withParams p x s.lnext.2 acc v)

theorem State.finishReal_withParams (s p : State) (x : Word) :
    (s.withParams p).finishReal x = (s.finishReal x).withParams p := rfl

/-- A command that reads parameters: EFRAME loads them, PRD answers one, PWR writes one and keeps the
others (R50). -/
def UsesParams (i : Instr) : Prop := i.opcode ∈ [.eframe, .prd, .pwr]

theorem State.after_withParams (s p : State) {i : Instr} (hi : ¬ UsesParams i) :
    (s.withParams p).after i = (s.after i).withParams p := by
  cases i with
  | lnext | lsetf | lseta => rfl
  | esamp x =>
    rw [State.after_esamp, State.after_esamp, State.sample_withParams, State.finishReal_withParams]
  | eframe | prd | pwr => exact absurd (by simp [UsesParams, Instr.opcode]) hi
  | _ =>
    rw [State.after_of_voiceOf s rfl, State.after_of_voiceOf _ rfl, State.withParams_voice,
      State.withParams_serial, voiceEffect_withParams, State.storeEffect_withParams]

theorem exec_withParams {s t p : State} {i : Instr} (hi : ¬ UsesParams i) (e : exec i s = .next t) :
    exec i (s.withParams p) = .next (t.withParams p) := by
  obtain ⟨stores, rfl⟩ := exec_eq_next_iff.1 e
  refine exec_eq_next_iff.2 ⟨fun v hv => ?_, (s.after_withParams p hi).symm⟩
  rw [State.withParams_voice]
  exact stores v hv

/-- Settles O38: exchanging a parameter commutes with every command that uses none. -/
theorem parametersAreStaged : Obligations.ParametersAreStaged := by
  intro s s1 t reg x i write notEframe notPrd notPwr e
  have hi : ¬ UsesParams i := by
    cases i <;> simp_all [UsesParams, Instr.opcode]
  have same : SameParams s t := by
    obtain rfl := eq_after_of_exec e
    exact sameParams_after s fun h => hi (by simp [UsesParams, h])
  refine ⟨t.withParams s1, State.writeParam_withParams same write, ?_⟩
  rw [State.eq_withParams write]
  exact exec_withParams hi e

end Sys2Proof.Machine
end

section
/-!
Register access: what a read of each register answers (R51, R152), that a write of a parameter is seen in
that register alone (R151), and the registers after reset (R54).
-/

namespace Sys2Proof.Machine

/-! ### Writes -/

theorem voiceReg_writable_iff (k : VoiceReg) : k.writable = true ↔ k.offset ≤ 3 := by
  cases k <;> decide

theorem voiceReg_offset_le (k : VoiceReg) : k.offset ≤ 13 := by
  cases k <;> decide

/-- The read-write registers are those of R151's list. -/
theorem reg_writable_iff (reg : Reg) :
    reg.writable = true ↔ isWritableNumber reg.number.toNat := by
  cases reg with
  | voice v k =>
    have hk := voiceReg_offset_le k
    have hv : v.val < 4 := v.isLt
    have number : (Reg.voice v k).number.toNat = 0x0100 + 0x10 * v.val + k.offset := by
      simp only [Reg.number, BitVec.toNat_ofNat]
      omega
    rw [number, Reg.writable, voiceReg_writable_iff]
    constructor
    · exact fun h => .inr ⟨v.val, k.offset, hv, h, rfl⟩
    · rintro (h | ⟨u, j, -, hj, e⟩) <;> omega
  | pDry | pWet | pLrate | pLdepth | pBase => exact ⟨fun _ => .inl (by decide), fun _ => rfl⟩
  | _ =>
    refine ⟨fun h => (by cases h), fun h => ?_⟩
    simp [isWritableNumber, Reg.number] at h
    omega

theorem State.isSome_writeParam (s : State) (reg : Reg) (x : Word) :
    (s.writeParam reg x).isSome = reg.writable := by
  cases reg with
  | voice v k => cases k <;> rfl
  | _ => rfl

theorem Voice.view_writeParam_same {c d : Voice} {k : VoiceReg} {x : Word}
    (h : c.writeParam k x = some d) : d.view k = .word x := by
  cases k <;> cases h <;> rfl

theorem Voice.view_writeParam_of_ne {c d : Voice} {k j : VoiceReg} {x : Word}
    (h : c.writeParam k x = some d) (hj : j ≠ k) : d.view j = c.view j := by
  cases k <;> cases h <;> cases j <;> trivial

theorem State.view_writeParam_same {s t : State} {reg : Reg} {x : Word}
    (h : s.writeParam reg x = some t) : t.view reg = .word x := by
  cases reg with
  | voice v k =>
    obtain ⟨d, hd, rfl⟩ := Option.map_eq_some_iff.1 h
    rw [State.view, State.setVoice_voice_same, Voice.view_writeParam_same hd]
  | _ => cases h <;> rfl

theorem State.view_writeParam_of_ne {s t : State} {reg r : Reg} {x : Word}
    (h : s.writeParam reg x = some t) (hr : r ≠ reg) : t.view r = s.view r := by
  cases reg with
  | voice v k =>
    obtain ⟨d, hd, rfl⟩ := Option.map_eq_some_iff.1 h
    cases r with
    | voice u j =>
      by_cases hu : u = v
      · subst hu
        rw [State.view, State.view, State.setVoice_voice_same]
        exact Voice.view_writeParam_of_ne hd fun e => hr (by rw [e])
      · rw [State.view, State.view, State.setVoice_voice_of_ne _ _ hu]
    | _ => rfl
  | _ => cases h <;> cases r <;> trivial

theorem State.finish_view (s : State) (w : Word) (r : Reg) : (s.finish w).view r = s.view r := rfl

/-- Settles O36: a write exchanges the one register, and the registers it leaves show what they showed. -/
theorem pwrWritesOneParameter : Obligations.PwrWritesOneParameter := by
  intro s reg x
  refine ⟨reg_writable_iff reg, fun hw => ?_, fun hw => ?_⟩
  · obtain ⟨p, hp⟩ := Option.isSome_iff_exists.1 ((s.isSome_writeParam reg x).trans hw)
    have e := State.eq_withParams hp
    refine ⟨p.finish 0, ?_, ⟨rfl, ?_⟩, (p.finish_view 0 _).trans (State.view_writeParam_same hp),
      fun _ hr => (p.finish_view 0 _).trans (State.view_writeParam_of_ne hp hr), ?_⟩
    · rw [exec_eq_storing, State.after_pwr_some hp]
      rfl
    · rw [e]; rfl
    · rw [e]
      simp [SameLatches, SameLfo, SameDelayLine, Voice.withParams]
  · have hp : s.writeParam reg x = none := by
      rw [← Option.not_isSome_iff_eq_none, s.isSome_writeParam, hw]
      decide
    rw [exec_eq_storing, State.after_pwr_none hp]
    rfl

end Sys2Proof.Machine
end

section
/-!
What a read answers (R39, R47, R51, R152), and the registers after reset (R54).
-/

namespace Sys2Proof.Machine

/-! ### Reads -/

theorem State.readReg_of_word {s : State} {reg : Reg} {w : Word} (h : s.view reg = .word w) :
    s.readReg reg = w := by rw [State.readReg, h]

theorem State.readReg_of_real {s : State} {reg : Reg} {x : Word} (h : s.view reg = .real x) :
    s.readReg reg = shownReal s.serial x := by rw [State.readReg, h]

theorem State.showsReal_readReg {s : State} {reg : Reg} {x : Word} (h : s.view reg = .real x) :
    ShowsReal (s.readReg reg) x := by
  rw [State.readReg_of_real h]
  exact showsReal_shownReal _ _

theorem State.readReg_of_not_nan {s : State} {reg : Reg} {x : Word} (h : s.view reg = .real x)
    (hx : isNaN x = false) : s.readReg reg = x := by
  rw [State.readReg_of_real h, shownReal_of_not_nan _ hx]

theorem isNaN_of_isPosFinite {x : Word} (h : isPosFinite x = true) : isNaN x = false := by
  obtain ⟨-, hx⟩ : 0 < x.toNat ∧ x.toNat < infMag := by simpa [isPosFinite] using h
  exact isNaN_eq_false_iff.2 (Nat.le_of_lt (Nat.lt_of_le_of_lt (Nat.mod_le _ _) hx))

/-- A read of `STATUS` shows bits `NV-1..0` (R47). -/
theorem getLsbD_statusView (status : Word) (i : Nat) :
    (statusView status).getLsbD i = (status.getLsbD i && decide (i < Config.nv)) := by
  have mask : statusMask.getLsbD i = decide (i < Config.nv) := by
    rw [statusMask, BitVec.getLsbD_ofNat, Nat.testBit_two_pow_sub_one]
    by_cases h : i < 4
    · simp [h, Nat.lt_trans h (by decide : 4 < 32)]
    · simp [h]
  rw [statusView, BitVec.getLsbD_and, mask]

/-- The word that collects the bits of the SVF voices of a list. -/
theorem getLsbD_foldl_variant (variant : Fin Config.nv → Variant) (vs : List (Fin Config.nv)) (i : Nat) :
    ∀ w : Word, (vs.foldl (fun w v => if variant v = .svf then w ||| coefErrBit v else w) w).getLsbD i =
        true ↔ w.getLsbD i = true ∨ ∃ v ∈ vs, v.val = i ∧ variant v = .svf := by
  induction vs with
  | nil => simp
  | cons v rest ih =>
    intro w
    rw [List.foldl_cons, ih]
    by_cases h : variant v = .svf <;>
      simp [h, coefErrBit_getLsbD, or_assoc, eq_comm (a := i)]

/-- `CFG_VARIANT` shows the voices that are of variant SVF (R51). -/
theorem getLsbD_variantView (variant : Fin Config.nv → Variant) (i : Nat) :
    (variantView variant).getLsbD i = true ↔ ∃ v : Fin Config.nv, v.val = i ∧ variant v = .svf := by
  rw [variantView, getLsbD_foldl_variant]
  simp

/-! A filter of the other variant has no such register, and a read of it shows zero (R36, R152). -/

section
variable {s : State} {reg : Reg} {f : Filter}

theorem State.readReg_comb {field : CombFilter → Word} {g : CombFilter}
    (hv : s.view reg = f.combView field) (h : f = .comb g) : ShowsReal (s.readReg reg) (field g) :=
  State.showsReal_readReg (by rw [hv, h, Filter.combView])

theorem State.readReg_comb_absent {field : CombFilter → Word} {g : SvfFilter}
    (hv : s.view reg = f.combView field) (h : f = .svf g) : s.readReg reg = 0 :=
  State.readReg_of_word (by rw [hv, h, Filter.combView])

theorem State.readReg_svf {field : SvfFilter → Word} {g : SvfFilter}
    (hv : s.view reg = f.svfView field) (h : f = .svf g) : ShowsReal (s.readReg reg) (field g) :=
  State.showsReal_readReg (by rw [hv, h, Filter.svfView])

theorem State.readReg_svf_absent {field : SvfFilter → Word} {g : CombFilter}
    (hv : s.view reg = f.svfView field) (h : f = .comb g) : s.readReg reg = 0 :=
  State.readReg_of_word (by rw [hv, h, Filter.svfView])

end

/-- An index is shown zero-extended. -/
theorem toNat_indexView (x : BitVec Config.idxw) : (x.setWidth 32).toNat = x.toNat :=
  BitVec.toNat_setWidth_of_le (by decide)

/-- Settles O37: the answer is the word of the register's view. -/
theorem prdShowsTheRegister : Obligations.PrdShowsTheRegister := by
  intro s reg
  refine ⟨s.readReg reg, s.serial + 1, rfl, ?_⟩
  cases reg with
  | status => exact getLsbD_statusView s.status
  | lfoPhase | lfoRate | lfoAmt | eDry | cfgSvfGain => exact State.showsReal_readReg rfl
  | cfgFs => exact State.readReg_of_not_nan rfl (isNaN_of_isPosFinite isPosFinite_fs)
  | cfgBaseHz => exact State.readReg_of_not_nan rfl (isNaN_of_isPosFinite isPosFinite_baseHz)
  | cfgDecay | cfgPeriod => exact State.readReg_of_not_nan rfl (by decide)
  | cfgVariant => exact getLsbD_variantView Config.filterVariant
  | cfgSvfType =>
    show (filterTypeNumber Config.svfType).toNat = _
    cases Config.svfType <;> rfl
  | voice v k =>
    cases k with
    | dlWp | dlAmt => exact toNat_indexView _
    | dlLast | eVgain | eNote => exact State.showsReal_readReg rfl
    | cfB | cfA | cfY =>
      dsimp only
      cases h : (s.voice v).filter with
      | comb g => exact State.readReg_comb rfl h
      | svf g => exact State.readReg_comb_absent rfl h
    | fsCut | fsQ =>
      dsimp only
      cases h : (s.voice v).filter with
      | comb g => exact State.readReg_svf_absent rfl h
      | svf g => exact State.readReg_svf rfl h
    | _ => rfl
  | _ => rfl

/-! ### Reset -/

/-- Every reset leaves the words of `State.resetWith` in the SRC: what the host has to present, the answer
held and the model's counter are all that can differ (R54, R180, R185). -/
theorem exists_resetWith {s : State} (h : s = State.reset ∨ ∃ s0 g w, s = State.assertReset g w s0 ∨
    ∃ r, s = State.resetDuring g w r s0) :
    ∃ g w port r n, s = { State.resetWith g w with cmdIn := port, resp := r, serial := n } := by
  obtain rfl | ⟨s0, g, w, rfl | ⟨r, rfl⟩⟩ := h
  · exact ⟨_, _, _, _, _, rfl⟩
  · exact ⟨g, w, _, _, _, rfl⟩
  · exact ⟨g, w, _, _, _, rfl⟩

/-- `COMB_A_RESET` is one of its two values (R37). -/
theorem combAReset_cases : Config.combAReset = zero ∨ Config.combAReset = one := by
  unfold Config.combAReset
  split
  · exact .inr rfl
  · exact .inl rfl

/-- The filter types in the order of their numbers (R39). -/
theorem filterType_of_number (k : FilterType) :
    [FilterType.lowpass, .highpass, .bandpass, .notch, .peaking, .allpass][(filterTypeNumber k).toNat]? =
      some k := by cases k <;> rfl

theorem resetFilter_of_comb {v : Fin Config.nv} (h : Config.filterVariant v = .comb) :
    resetFilter v = .comb ⟨0, Config.combAReset, 0⟩ := by simp [resetFilter, h]

theorem resetFilter_of_svf {v : Fin Config.nv} (h : Config.filterVariant v = .svf) :
    resetFilter v = .svf ⟨Config.svfType, Config.fs, 0, 0, Config.svfGain, Config.svfCoefReset,
      Config.svfStateReset⟩ := by simp [resetFilter, h]

/-- Settles O39: the table of R54, row by row. -/
theorem resetValues : Obligations.ResetValues := by
  intro s h
  obtain ⟨g, w, port, r, n, rfl⟩ := exists_resetWith h
  have voice : ∀ v, State.voice { State.resetWith g w with cmdIn := port, resp := r, serial := n } v =
      resetVoice w v := State.resetWith_voice g w
  refine ⟨rfl, rfl, rfl, rfl, rfl, rfl, rfl, ?_, ?_, ?_, ?_, ?_, ?_, ?_, fun v => ?_⟩
  · exact State.readReg_of_not_nan rfl (isNaN_of_isPosFinite isPosFinite_fs)
  · exact State.readReg_of_not_nan rfl (isNaN_of_isPosFinite isPosFinite_baseHz)
  · exact State.readReg_of_not_nan rfl (by decide)
  · exact State.readReg_of_not_nan rfl (by decide)
  · exact filterType_of_number Config.svfType
  · exact State.showsReal_readReg rfl
  · exact getLsbD_variantView Config.filterVariant
  · rw [voice v]
    refine ⟨Memory.readWord_nil, rfl, rfl, rfl, rfl, rfl, ?_⟩
    cases hv : Config.filterVariant v with
    | comb => exact ⟨_, resetFilter_of_comb hv, rfl, combAReset_cases⟩
    | svf => exact resetFilter_of_svf hv

end Sys2Proof.Machine
end

section
/-!
The serialised forms of a packet and of a response (R64, R86).
-/

namespace Sys2Proof.Machine

/-! ### Little-endian numbers (R64) -/

/-- Bytes that follow others count in units above those bytes. -/
theorem littleEndian_append (xs ys : List Byte) :
    littleEndian (xs ++ ys) = littleEndian xs + 2 ^ (8 * xs.length) * littleEndian ys := by
  induction xs with
  | nil => simp [littleEndian]
  | cons x xs ih =>
    rw [List.cons_append, littleEndian, littleEndian, ih, List.length_cons]
    ring

/-- The bytes of a word are least significant first. -/
theorem littleEndian_wordBytes (w : Word) : littleEndian (wordBytes w) = w.toNat := by
  have hw := w.isLt
  simp only [wordBytes, littleEndian, BitVec.extractLsb'_toNat, Nat.shiftRight_eq_div_pow]
  omega

@[simp] theorem length_wordBytes (w : Word) : (wordBytes w).length = 4 := rfl

/-! ### Packets and responses (R86) -/

theorem length_toBytes (p : Packet) : p.toBytes.length = 12 := rfl

theorem packetOfBytes_toBytes (p : Packet) : packetOfBytes p.toBytes = some p := by
  simp only [Packet.toBytes, wordBytes, List.cons_append, List.nil_append, packetOfBytes,
    wordOfBytes_extract]

/-- `cmd` is in bits 31..0 of the number that the bytes of a packet stand for, `a` in bits 63..32 and `b`
in bits 95..64. -/
theorem littleEndian_toBytes (p : Packet) :
    littleEndian p.toBytes = p.cmd.toNat + 2 ^ 32 * p.a.toNat + 2 ^ 64 * p.b.toNat := by
  simp only [Packet.toBytes, littleEndian_append, littleEndian_wordBytes, List.length_append,
    length_wordBytes]

/-- The first byte of a response has `err` in bit 0 and zeros above it. -/
theorem getLsbD_errByte (err : Bool) (i : Nat) :
    (if err then 1 else 0 : Byte).getLsbD i = (err && decide (i = 0)) := by
  cases err with
  | false => exact BitVec.getLsbD_zero
  | true => simp

/-- Settles O7: a packet is three words' bytes in a row, a response its `err` byte and one word's bytes. -/
theorem packetBytesRoundTrip : Obligations.PacketBytesRoundTrip :=
  ⟨fun p => ⟨length_toBytes p, packetOfBytes_toBytes p, littleEndian_toBytes p⟩,
    fun r => ⟨_, _, rfl, length_wordBytes r.r, getLsbD_errByte r.err, littleEndian_wordBytes r.r⟩⟩

end Sys2Proof.Machine
end

section
/-!
The encoder and the decoder undo each other (R77, R79, R81, R87).
-/

namespace Sys2Proof

/-! ### Decoding what was encoded -/

/-- The packet of a well-formed instruction decodes to it: the operands that the row uses are the ones
that the encoder wrote. -/
theorem decode_encode {i : Instr} (h : i.wf = true) : decode (encode i) = .ok i := by
  cases i with
  | dpush v x => exact (decode_voiceCommand .dpush v x 0).trans (map_voiceOperand _ v _)
  | dpop v => exact (decode_voiceCommand .dpop v 0 0).trans (map_voiceOperand _ v _)
  | dsetf v f rate => exact (decode_voiceCommand .dsetf v f rate).trans (map_voiceOperand _ v _)
  | ftick v x => exact (decode_voiceCommand .ftick v x 0).trans (map_voiceOperand _ v _)
  | fsetc v c => exact (decode_voiceCommand .fsetc v c 0).trans (map_voiceOperand _ v _)
  | fsetq v q => exact (decode_voiceCommand .fsetq v q 0).trans (map_voiceOperand _ v _)
  | vproc v x => exact (decode_voiceCommand .vproc v x 0).trans (map_voiceOperand _ v _)
  | lnext => exact (decode_globalCommand .lnext 0 0).trans (noOperand_globalCommand _ _)
  | lsetf f => exact (decode_globalCommand .lsetf f 0).trans (noOperand_globalCommand _ _)
  | lseta m => exact (decode_globalCommand .lseta m 0).trans (noOperand_globalCommand _ _)
  | eframe => exact (decode_globalCommand .eframe 0 0).trans (noOperand_globalCommand _ _)
  | esamp x => exact (decode_globalCommand .esamp x 0).trans (noOperand_globalCommand _ _)
  | pwr r x =>
    refine (decode_registerCommand .pwr r x 0).trans ?_
    simp only [decodeAs, writableOperand_registerCommand _ h, Except.map]
  | prd r =>
    refine (decode_registerCommand .prd r 0 0).trans ?_
    simp only [decodeAs, registerOperand_registerCommand, Except.map]

/-- The twelve bytes of a packet are decoded as the packet (R86). -/
theorem decodeBytes_toBytes (p : Packet) : decodeBytes p.toBytes = decode p := by
  simp only [decodeBytes, Machine.packetOfBytes_toBytes]

/-- Settles O1. -/
theorem decodeOfEncodeIsTheInstruction : Obligations.DecodeOfEncodeIsTheInstruction :=
  fun i h => ⟨decode_encode h, (decodeBytes_toBytes (encode i)).trans (decode_encode h)⟩

/-- A packet that is the encoder's for a well-formed instruction decodes to it. -/
theorem decode_of_encode_eq {p : Packet} {i : Instr} (h : i.wf = true) (e : encode i = p) :
    decode p = .ok i :=
  e ▸ decode_encode h

/-- Settles O5: each packet is the encoder's, and the twelve bytes are those of one. -/
theorem writtenWordsDecode : Obligations.WrittenWordsDecode :=
  ⟨(decodeBytes_toBytes ⟨0x12020000, 0x43DC0000, 0x472C4400⟩).trans
      (decode_of_encode_eq rfl (by decide)),
    decode_of_encode_eq rfl (by decide), decode_of_encode_eq rfl (by decide),
    decode_of_encode_eq rfl (by decide), decode_of_encode_eq rfl (by decide)⟩

/-! ### Encoding what was decoded -/

/-- What a row makes of its operand field is an instruction just when the field is accepted. -/
theorem except_map_eq_ok {α β ε : Type} {x : Except ε α} {f : α → β} {b : β} :
    x.map f = .ok b ↔ ∃ a, x = .ok a ∧ f a = b := by
  cases x with
  | error e => exact ⟨nofun, nofun⟩
  | ok a => simp [Except.map]

theorem voiceCommand_of_operand {w : Word} {v : Fin Config.nv} (op : Opcode)
    (h : voiceOperand w = .ok v) : voiceCommand op v = commandWord op.toByte (vField w) (nField w) := by
  obtain ⟨hn, hv⟩ := voiceOperand_eq_ok.1 h
  rw [voiceCommand, hn, ← hv, BitVec.ofNat_toNat, BitVec.setWidth_eq]

theorem globalCommand_of_operand {w : Word} {i j : Instr} (op : Opcode) (h : noOperand w i = .ok j) :
    globalCommand op = commandWord op.toByte (vField w) (nField w) := by
  obtain ⟨hv, hn, -⟩ := noOperand_eq_ok.1 h
  rw [globalCommand, hv, hn]

theorem registerCommand_of_fields {w : Word} {r : Reg} (op : Opcode) (hv : vField w = 0)
    (hr : regOfNumber (nField w) = some r) :
    registerCommand op r = commandWord op.toByte (vField w) (nField w) := by
  rw [registerCommand, hv, number_of_regOfNumber hr]

/-- What a row accepts is a well-formed instruction of its opcode, and the encoder writes that opcode and
the fields that the row read. -/
theorem of_decodeAs {p : Packet} {op : Opcode} {i : Instr} (h : decodeAs p op = .ok i) :
    i.opcode = op ∧ i.wf = true ∧
      (encode i).cmd = commandWord op.toByte (vField p.cmd) (nField p.cmd) := by
  cases op with
  | dpush | dpop | dsetf | ftick | fsetc | fsetq | vproc =>
    obtain ⟨v, hv, rfl⟩ := except_map_eq_ok.1 h
    exact ⟨rfl, rfl, voiceCommand_of_operand _ hv⟩
  | lnext | lsetf | lseta | eframe | esamp =>
    obtain ⟨-, -, rfl⟩ := noOperand_eq_ok.1 h
    exact ⟨rfl, rfl, globalCommand_of_operand _ h⟩
  | pwr =>
    obtain ⟨r, hr, rfl⟩ := except_map_eq_ok.1 h
    obtain ⟨hv, hn, hw⟩ := writableOperand_eq_ok.1 hr
    exact ⟨rfl, hw, registerCommand_of_fields _ hv hn⟩
  | prd =>
    obtain ⟨r, hr, rfl⟩ := except_map_eq_ok.1 h
    obtain ⟨hv, hn⟩ := registerOperand_eq_ok.1 hr
    exact ⟨rfl, rfl, registerCommand_of_fields _ hv hn⟩

/-- The decoder accepts a packet by the row of the opcode that its `op` field names (R80). -/
theorem decode_eq_ok {p : Packet} {i : Instr} :
    decode p = .ok i ↔ ∃ op : Opcode, op.toByte = opField p.cmd ∧ decodeAs p op = .ok i := by
  unfold decode
  split
  · next unknown =>
    refine ⟨nofun, fun ⟨op, e, _⟩ => ?_⟩
    rw [← e, opcodeOf_toByte] at unknown
    cases unknown
  · next op known =>
    refine ⟨fun h => ⟨op, toByte_of_opcodeOf known, h⟩, fun ⟨op', e, h⟩ => ?_⟩
    rw [← e, opcodeOf_toByte] at known
    cases known
    exact h

/-- Settles O2: the encoder writes the three fields that the decoder read, which are the whole word. -/
theorem decodedWordIsTheEncodersWord : Obligations.DecodedWordIsTheEncodersWord := by
  intro p i h
  obtain ⟨op, hop, hrow⟩ := decode_eq_ok.1 h
  obtain ⟨-, hwf, hcmd⟩ := of_decodeAs hrow
  exact ⟨hwf, by rw [hcmd, hop, commandWord_fields]⟩

end Sys2Proof
end

section
/-!
Every command word is one row of the opcode map or illegal (R79, R80, R81): the decoder, the match and
mask table and the cases (a) to (f) are compared through the fields of the word.
-/

namespace Sys2Proof

/-! ### The fields that a format wants zero (R77) -/

/-- The three formats of a command word (R77). -/
inductive Format
  | voice | global | register

/-- The format of an opcode's row (R79). -/
def Opcode.format : Opcode → Format
  | .dpush | .dpop | .dsetf | .ftick | .fsetc | .fsetq | .vproc => .voice
  | .lnext | .lsetf | .lseta | .eframe | .esamp => .global
  | .pwr | .prd => .register

/-- The fields that the format leaves no meaning are zero (R77). -/
def Format.MustBeZero (w : Word) : Format → Prop
  | .voice => nField w = 0
  | .global => vField w = 0 ∧ nField w = 0
  | .register => vField w = 0

/-- The word is legal as a command of the opcode: its `op` value, the fields that must be zero, and the
extra condition of the opcode's row (R79). -/
def Opcode.Accepts (op : Opcode) (w : Word) : Prop :=
  op.toByte = opField w ∧ op.format.MustBeZero w ∧ op.condition w = true

theorem toByte_injective : Function.Injective Opcode.toByte := fun o o' h =>
  Option.some.inj (by rw [← opcodeOf_toByte o, h, opcodeOf_toByte])

/-! ### The decoder (R80) -/

theorem exists_except_map_eq_ok {α β ε : Type} {x : Except ε α} {f : α → β} :
    (∃ b, x.map f = .ok b) ↔ ∃ a, x = .ok a := by
  simp only [except_map_eq_ok, exists_comm (α := β), exists_and_left, exists_eq', and_true]

theorem exists_voiceOperand {w : Word} :
    (∃ v, voiceOperand w = .ok v) ↔ nField w = 0 ∧ (vField w).toNat < Config.nv := by
  simp only [voiceOperand_eq_ok, exists_and_left]
  exact and_congr_right fun _ => ⟨fun ⟨v, e⟩ => e ▸ v.isLt, fun h => ⟨⟨_, h⟩, rfl⟩⟩

theorem exists_noOperand {w : Word} {i : Instr} :
    (∃ j, noOperand w i = .ok j) ↔ vField w = 0 ∧ nField w = 0 := by
  simp only [noOperand_eq_ok, exists_and_left, exists_eq', and_true]

theorem exists_registerOperand {w : Word} :
    (∃ r, registerOperand w = .ok r) ↔ vField w = 0 ∧ (regOfNumber (nField w)).isSome = true := by
  simp only [registerOperand_eq_ok, exists_and_left, Option.isSome_iff_exists]

theorem exists_writableOperand {w : Word} :
    (∃ r, writableOperand w = .ok r) ↔
      vField w = 0 ∧ (regOfNumber (nField w)).any Reg.writable = true := by
  simp only [writableOperand_eq_ok, exists_and_left, Option.any_eq_true]

/-- A row accepts the words with its zero fields and its condition. -/
theorem exists_decodeAs {p : Packet} {op : Opcode} :
    (∃ i, decodeAs p op = .ok i) ↔
      op.format.MustBeZero p.cmd ∧ op.condition p.cmd = true := by
  cases op with
  | dpush | dpop | dsetf | ftick | fsetc | fsetq | vproc =>
    exact exists_except_map_eq_ok.trans
      (exists_voiceOperand.trans (and_congr_right fun _ => decide_eq_true_iff.symm))
  | lnext | lsetf | lseta | eframe | esamp => exact exists_noOperand.trans (and_iff_left rfl).symm
  | pwr => exact exists_except_map_eq_ok.trans exists_writableOperand
  | prd => exact exists_except_map_eq_ok.trans exists_registerOperand

theorem exists_decode {p : Packet} : (∃ i, decode p = .ok i) ↔ ∃ op : Opcode, op.Accepts p.cmd := by
  simp only [decode_eq_ok, exists_comm (α := Instr), exists_and_left, exists_decodeAs, Opcode.Accepts]

theorem exists_decode_error {p : Packet} :
    (∃ e, decode p = .error e) ↔ ∀ op : Opcode, ¬ op.Accepts p.cmd := by
  rw [← not_exists, ← exists_decode]
  cases decode p with
  | error e => exact ⟨fun _ => nofun, fun _ => ⟨e, rfl⟩⟩
  | ok i => exact ⟨nofun, fun h => absurd ⟨i, rfl⟩ h⟩

/-! ### The match and mask table (R79) -/

/-- The mask of a format: ones in `op` and in the fields that must be zero. -/
def Format.mask : Format → Word
  | .voice => commandWord (.allOnes 8) 0 (.allOnes 16)
  | .global => commandWord (.allOnes 8) (.allOnes 8) (.allOnes 16)
  | .register => commandWord (.allOnes 8) (.allOnes 8) 0

/-- A row of the table is the `op` value of its opcode under the mask of its format. -/
theorem pattern_mask_of_mem {row : OpcodeRow} (h : row ∈ opcodeRows) :
    row.pattern = commandWord row.op.toByte 0 0 ∧ row.mask = row.op.format.mask := by
  have table : ∀ row ∈ opcodeRows,
      row.pattern = commandWord row.op.toByte 0 0 ∧ row.mask = row.op.format.mask := by decide
  exact table row h

/-- There is one row for each opcode. -/
theorem exists_row (op : Opcode) : ∃ row ∈ opcodeRows, row.op = op := by
  cases op <;> decide

theorem row_eq_of_op_eq {row row' : OpcodeRow} (h : row ∈ opcodeRows) (h' : row' ∈ opcodeRows)
    (e : row.op = row'.op) : row = row' := by
  obtain ⟨hp, hm⟩ := pattern_mask_of_mem h
  obtain ⟨hp', hm'⟩ := pattern_mask_of_mem h'
  cases row
  cases row'
  simp_all

/-- A command word under a mask has its fields under the mask's fields. -/
theorem and_commandWord (w : Word) (op v : BitVec 8) (n : BitVec 16) :
    w &&& commandWord op v n = commandWord (opField w &&& op) (vField w &&& v) (nField w &&& n) := by
  have fields : ∀ a b : Word, opField (a &&& b) = opField a &&& opField b ∧
      vField (a &&& b) = vField a &&& vField b ∧ nField (a &&& b) = nField a &&& nField b := by
    simp [opField, vField, nField, BitVec.extractLsb'_and]
  obtain ⟨ho, hv, hn⟩ := fields w (commandWord op v n)
  rw [← commandWord_fields (w &&& commandWord op v n), ho, hv, hn, opField_commandWord,
    vField_commandWord, nField_commandWord]

theorem commandWord_inj {op op' v v' : BitVec 8} {n n' : BitVec 16} :
    commandWord op v n = commandWord op' v' n' ↔ op = op' ∧ v = v' ∧ n = n' := by
  refine ⟨fun h => ⟨?_, ?_, ?_⟩, fun ⟨ho, hv, hn⟩ => by rw [ho, hv, hn]⟩
  · simpa only [opField_commandWord] using congrArg opField h
  · simpa only [vField_commandWord] using congrArg vField h
  · simpa only [nField_commandWord] using congrArg nField h

/-- A row selects the words with its `op` value and zeros in the fields that must be zero. -/
theorem selects_iff {row : OpcodeRow} (h : row ∈ opcodeRows) (w : Word) :
    row.selects w = true ↔ row.op.toByte = opField w ∧ row.op.format.MustBeZero w := by
  obtain ⟨pattern, mask⟩ := pattern_mask_of_mem h
  rw [OpcodeRow.selects, beq_iff_eq, pattern, mask, eq_comm (a := row.op.toByte)]
  cases row.op.format <;>
    simp only [Format.mask, Format.MustBeZero, and_commandWord, commandWord_inj, BitVec.and_allOnes,
      BitVec.and_zero, BitVec.ofNat_eq_ofNat, true_and, and_true]

theorem selects_and_condition_iff {row : OpcodeRow} (h : row ∈ opcodeRows) (w : Word) :
    row.selects w = true ∧ row.op.condition w = true ↔ row.op.Accepts w := by
  rw [selects_iff h, and_assoc, Opcode.Accepts]

/-- Settles O3: the row of the opcode that accepts the word, if one does; two rows that select one word
have one `op` value. -/
theorem everyWordIsOneRowOrIllegal : Obligations.EveryWordIsOneRowOrIllegal := by
  intro p
  cases hd : decode p with
  | ok i =>
    left
    obtain ⟨op, hop, hrow⟩ := decode_eq_ok.1 hd
    obtain ⟨row, mem, rfl⟩ := exists_row op
    obtain ⟨zero, condition⟩ := exists_decodeAs.1 ⟨i, hrow⟩
    refine ⟨row, mem, (selects_iff mem _).2 ⟨hop, zero⟩, condition, fun row' mem' selected => ?_, i,
      rfl, (of_decodeAs hrow).1⟩
    obtain ⟨hop', -⟩ := (selects_iff mem' _).1 selected
    exact row_eq_of_op_eq mem' mem (toByte_injective (hop'.trans hop.symm))
  | error e =>
    right
    refine ⟨fun row mem h => ?_, e, rfl⟩
    exact exists_decode_error.1 ⟨e, hd⟩ row.op ((selects_and_condition_iff mem _).1 h)

end Sys2Proof
end

section
/-!
The illegal words of R81 (a) to (f) are those that no opcode accepts, and the answer to one (R81, R162).
-/

namespace Sys2Proof.Machine

/-! ### The register map in numbers (R52) -/

theorem isRegisterNumber_number (r : Reg) : isRegisterNumber r.number.toNat := by
  cases r with
  | voice v k =>
    have hk := voiceReg_offset_le k
    have hv : v.val < 4 := v.isLt
    refine .inr (.inr (.inr ⟨v.val, k.offset, hv, hk, ?_⟩))
    simp only [Reg.number, BitVec.toNat_ofNat]
    omega
  | pDry | pWet | pLrate | pLdepth | pBase => exact .inl (by decide)
  | status | lfoPhase | lfoRate | lfoAmt | eDry => exact .inr (.inl (by decide))
  | _ => exact .inr (.inr (.inl (by decide)))

theorem exists_reg_of_isRegisterNumber {n : Nat} (h : isRegisterNumber n) :
    ∃ r : Reg, r.number.toNat = n := by
  have globals : ∀ n < 0x0029, (n ≤ 0x0004 ∨ (0x0010 ≤ n ∧ n ≤ 0x0014) ∨ 0x0020 ≤ n) →
      ∃ p ∈ globalRegs, p.2.number.toNat = n := by decide
  have voices : ∀ v : Fin Config.nv, ∀ k < 14, ∃ p ∈ voiceRegs,
      (Reg.voice v p.2).number.toNat = 0x0100 + 0x10 * v.val + k := by decide
  by_cases page : 0x0100 ≤ n
  · obtain ⟨v, k, hv, hk, rfl⟩ : ∃ v k, v < Config.nv ∧ k ≤ 13 ∧ n = 0x0100 + 0x10 * v + k := by
      rcases h with h | h | h | h
      · omega
      · omega
      · omega
      · exact h
    obtain ⟨p, -, e⟩ := voices ⟨v, hv⟩ k (by omega)
    exact ⟨_, e⟩
  · have h' : n < 0x0029 ∧ (n ≤ 0x0004 ∨ (0x0010 ≤ n ∧ n ≤ 0x0014) ∨ 0x0020 ≤ n) := by
      rcases h with h | h | h | ⟨v, k, -, -, h⟩ <;> omega
    obtain ⟨p, -, e⟩ := globals n h'.1 h'.2
    exact ⟨_, e⟩

/-- The map names a register for the numbers of R52 and no other. -/
theorem isSome_regOfNumber_iff (n : BitVec 16) :
    (regOfNumber n).isSome = true ↔ isRegisterNumber n.toNat := by
  rw [Option.isSome_iff_exists]
  constructor
  · rintro ⟨r, hr⟩
    rw [← number_of_regOfNumber hr]
    exact isRegisterNumber_number r
  · intro h
    obtain ⟨r, hr⟩ := exists_reg_of_isRegisterNumber h
    exact ⟨r, by rw [← BitVec.eq_of_toNat_eq hr, regOfNumber_number]⟩

theorem isRegisterNumber_of_isWritableNumber {n : Nat} (h : isWritableNumber n) :
    isRegisterNumber n := by
  rcases h with h | ⟨v, k, hv, hk, e⟩
  · exact .inl h
  · exact .inr (.inr (.inr ⟨v, k, hv, by omega, e⟩))

/-- The map names a read-write register for the numbers of R151 and no other. -/
theorem any_writable_regOfNumber_iff (n : BitVec 16) :
    (regOfNumber n).any Reg.writable = true ↔ isWritableNumber n.toNat := by
  rw [Option.any_eq_true]
  constructor
  · rintro ⟨r, hr, writable⟩
    rw [← number_of_regOfNumber hr]
    exact (reg_writable_iff r).1 writable
  · intro h
    obtain ⟨r, hr⟩ := exists_reg_of_isRegisterNumber (isRegisterNumber_of_isWritableNumber h)
    rw [← hr] at h
    exact ⟨r, by rw [← BitVec.eq_of_toNat_eq hr, regOfNumber_number], (reg_writable_iff r).2 h⟩

/-! ### The `op` values (R79, R81) -/

theorem not_isUnassignedOp_toByte (o : Opcode) : ¬isUnassignedOp o.toByte.toNat := by
  unfold isUnassignedOp
  cases o <;> decide

/-- R81 (a) lists every `op` value that is no opcode's. -/
theorem isUnassignedOp_of_forall_ne {op : BitVec 8} (h : ∀ o : Opcode, o.toByte ≠ op) :
    isUnassignedOp op.toNat := by
  have missed : ∀ o ∈ Opcode.all, o.toByte.toNat ≠ op.toNat :=
    fun o _ e => h o (BitVec.eq_of_toNat_eq e)
  have bound : op.toNat < 256 := op.isLt
  simp only [Opcode.all, List.forall_mem_cons, Opcode.toByte, BitVec.reduceToNat] at missed
  unfold isUnassignedOp
  omega

theorem toByte_mem_voiceOps (o : Opcode) : o.toByte.toNat ∈ voiceOps ↔ o.format = .voice := by
  cases o <;> simp [voiceOps, Opcode.toByte, Opcode.format]

theorem toByte_mem_globalOps (o : Opcode) : o.toByte.toNat ∈ globalOps ↔ o.format = .global := by
  cases o <;> simp [globalOps, Opcode.toByte, Opcode.format]

theorem toByte_eq_pwr (o : Opcode) : o.toByte.toNat = 0x60 ↔ o = .pwr := by
  cases o <;> decide

theorem toByte_eq_prd (o : Opcode) : o.toByte.toNat = 0x61 ↔ o = .prd := by
  cases o <;> decide

theorem toNat_eq_zero_iff {n : Nat} (x : BitVec n) : x.toNat = 0 ↔ x = 0 :=
  (BitVec.toNat_eq.trans (by simp)).symm

/-- A word with the `op` value of an opcode is illegal by the cases (b) to (f) of that opcode's row. -/
theorem illegalWord_iff_of_op {w : Word} {o : Opcode} (h : o.toByte = opField w) :
    IllegalWord w ↔ ¬(o.format.MustBeZero w ∧ o.condition w = true) := by
  unfold IllegalWord
  rw [← toNat_opField, ← toNat_vField, ← toNat_nField, ← h, not_and_or]
  simp only [not_isUnassignedOp_toByte, false_or, toByte_mem_voiceOps, toByte_mem_globalOps,
    toByte_eq_pwr, toByte_eq_prd, ne_eq, toNat_eq_zero_iff, ← any_writable_regOfNumber_iff,
    ← isSome_regOfNumber_iff]
  cases o with
  | dpush | dpop | dsetf | ftick | fsetc | fsetq | vproc =>
    simp [Opcode.format, Format.MustBeZero, Opcode.condition]
  | lnext | lsetf | lseta | eframe | esamp =>
    simp [Opcode.format, Format.MustBeZero, Opcode.condition, imp_iff_not_or]
  | pwr | prd => simp [Opcode.format, Format.MustBeZero, Opcode.condition]

/-- A word is illegal when no opcode accepts it. -/
theorem illegalWord_iff (w : Word) : IllegalWord w ↔ ∀ o : Opcode, ¬o.Accepts w := by
  by_cases known : ∃ o : Opcode, o.toByte = opField w
  · obtain ⟨o, ho⟩ := known
    rw [illegalWord_iff_of_op ho]
    constructor
    · rintro refused o' ⟨ho', legal⟩
      obtain rfl := toByte_injective (ho'.trans ho.symm)
      exact refused legal
    · exact fun refused legal => refused o ⟨ho, legal⟩
  · have unassigned := isUnassignedOp_of_forall_ne (not_exists.1 known)
    rw [toNat_opField] at unassigned
    exact ⟨fun _ o h => known ⟨o, h.1⟩, fun _ => .inl unassigned⟩

theorem illegalWord_iff_decode (p : Packet) : IllegalWord p.cmd ↔ ∃ e, decode p = .error e :=
  (illegalWord_iff p.cmd).trans exists_decode_error.symm

/-- A step with a packet at the port that the decoder refuses answers `err = 1` and takes the packet. -/
theorem step_of_decode_error {s : State} {p : Packet} {rest : List Packet} {e : DecodeError}
    (hport : s.cmdIn = p :: rest) (hdecode : decode p = .error e) :
    step s = .next { s with cmdIn := rest, resp := some ⟨true, 0x00000000⟩ } := by
  have next : s.nextPacket = some p := by simp [State.nextPacket, hport]
  have taken : s.takePacket = { s with cmdIn := rest } := by simp [State.takePacket, hport]
  simp only [step, next, hdecode, taken, State.reject, State.respond, BitVec.ofNat_eq_ofNat]

/-- Settles O4: the decoder refuses the words that no opcode accepts, and a refusal is the answer alone. -/
theorem illegalCommandChangesNothing : Obligations.IllegalCommandChangesNothing := by
  refine ⟨illegalWord_iff_decode, fun s p rest hport illegal => ?_⟩
  obtain ⟨e, he⟩ := (illegalWord_iff_decode p).1 illegal
  exact step_of_decode_error hport he

end Sys2Proof.Machine
end

section
/-!
`DSETN v, k` (R88): the REAL of `k` is `k` exactly, so is its quotient by 1.0, and that rounds to `k`.
-/

namespace Sys2Proof.Machine

/-- Every positive integer below `2^24` is a REAL. -/
theorem exists_unitsOfMag_eq {k : Nat} (pos : 0 < k) (small : k < 2 ^ 24) :
    ∃ mag < infMag, unitsOfMag mag = k * 2 ^ 149 := by
  have top : Nat.log2 k ≤ 23 := by
    have := (Nat.log2_lt (by omega)).2 small
    omega
  have low : 2 ^ Nat.log2 k ≤ k := Nat.log2_self_le (by omega)
  have high : k < 2 ^ (Nat.log2 k + 1) := Nat.lt_log2_self
  generalize Nat.log2 k = e at *
  have sig_le : k * 2 ^ (23 - e) < 2 ^ 24 := by
    calc k * 2 ^ (23 - e) < 2 ^ (e + 1) * 2 ^ (23 - e) :=
          Nat.mul_lt_mul_of_pos_right high (Nat.two_pow_pos _)
      _ = 2 ^ 24 := by rw [← Nat.pow_add]; congr 1; omega
  have le_sig : 2 ^ 23 ≤ k * 2 ^ (23 - e) := by
    calc 2 ^ 23 = 2 ^ e * 2 ^ (23 - e) := by rw [← Nat.pow_add]; congr 1; omega
      _ ≤ k * 2 ^ (23 - e) := Nat.mul_le_mul_right _ low
  refine ⟨(126 + e) * 2 ^ 23 + k * 2 ^ (23 - e), ?_, ?_⟩
  · unfold infMag
    omega
  · rw [unitsOfMag_add sig_le.le (.inr le_sig), Nat.mul_assoc, ← Nat.pow_add]
    congr 2
    omega

/-- What `float(k)` is for an index (R88): a finite positive REAL of `k` units of 1. -/
theorem realOfNat_spec {k : Nat} (pos : 0 < k) (small : k < 2 ^ 24) :
    isFinite (realOfNat k) = true ∧ signBit (realOfNat k) = false ∧
      units (realOfNat k) = k * 2 ^ 149 := by
  obtain ⟨mag, finite, exact_units⟩ := exists_unitsOfMag_eq pos small
  have lt : mag < 2 ^ 31 := Nat.lt_trans finite (by decide)
  have field : realOfNat k = packReal false mag := by
    have rounded := roundMag_unitsOfMag Nat.one_pos finite
    rw [Nat.mul_one] at rounded
    rw [realOfNat, realOfRatio, ← exact_units, rounded]
  rw [field]
  exact ⟨isFinite_iff.2 (by rwa [magBits_packReal false lt]), signBit_packReal false lt,
    by rw [units_packReal false lt, exact_units]⟩

/-- A quotient by one is the dividend, bit for bit. -/
theorem fdiv_one {p : Word} (h : isFinite p = true) : fdiv p one = p := by
  have units_one : units one = 2 ^ 149 := by decide
  have sign : (signBit p != signBit one) = signBit p := by
    rw [show signBit one = false from rfl, Bool.bne_false]
  rw [fdiv_of_finite h (by decide) (by decide), sign, units_one, units,
    roundMag_unitsOfMag (Nat.two_pow_pos 149) (isFinite_iff.1 h), packReal_eq]

/-- A whole quotient is its own rounding. -/
theorem roundQuot_mul (ties : RoundTies) (k : Nat) {d : Nat} (hd : 0 < d) :
    roundQuot ties (k * d) d = k := by
  have div : k * d / d = k := Nat.mul_div_cancel k hd
  have mod : k * d % d = 0 := Nat.mul_mod_left k d
  rcases roundQuot_cases ties (k * d) d with ⟨e, -⟩ | ⟨-, half, -⟩
  · rw [e, div]
  · omega

/-- At the target 1.0 the lag is the sample rate, when that is a positive index (R104). -/
theorem tunedAmount_one_realOfNat (ties : RoundTies) (u : BitVec Config.idxw) {k : Nat} (pos : 0 < k)
    (hk : k < Config.cap) : tunedAmount ties u one (realOfNat k) = BitVec.ofNat Config.idxw k := by
  obtain ⟨finite, sign, units_eq⟩ := realOfNat_spec pos (Nat.lt_trans hk (by decide))
  have noNaN := isNaN_of_finite finite
  have positive : fgt (realOfNat k) zero = true := by
    have value_zero : value zero = 0 := by decide
    rw [fgt, flt_iff (by decide) noNaN, orderKey_lt_iff, value_zero, value, sign, units_eq,
      if_neg (by decide)]
    exact_mod_cast Nat.mul_pos pos (Nat.two_pow_pos 149)
  have target : (isNaN one || isNaN (realOfNat k) || !fgt (realOfNat k) zero) = false := by
    rw [noNaN, positive]
    rfl
  have rounded : roundInt ties (fdiv (realOfNat k) one) = .int k := by
    rw [fdiv_one finite, roundInt_of_finite ties finite, sign, units_eq,
      roundQuot_mul ties k (Nat.two_pow_pos 149), if_neg (by decide)]
  have below : ¬((Config.cap : Int) ≤ k) := by omega
  rw [tunedAmount, target, rounded, clampAmount, if_neg below, Int.toNat_natCast]
  rfl

/-- At the target +Inf the lag is zero (R104). -/
theorem tunedAmount_inf_one (u : BitVec Config.idxw) :
    tunedAmount Config.roundTies u 0x7F800000 one = 0 := by
  have rounded : roundInt Config.roundTies (fdiv one 0x7F800000) = .int 0 := by decide
  rw [tunedAmount, rounded]
  rfl

theorem exec_dsetf_amt (s : State) (v : Fin Config.nv) (f rate : Word) :
    ∃ t, exec (.dsetf v f rate) s = .next t ∧
      (t.voice v).amt = tunedAmount Config.roundTies (Config.unspecAmt s.serial v.val) f rate :=
  ⟨_, rfl, by rw [State.finish_voice, State.setf, State.setVoice_voice_same, Voice.setf_amt]⟩

/-- Settles O14: the lag of +Inf for `k = 0`, and that of 1.0 at the sample rate `k` for the others. -/
theorem dsetnSetsTheLagExactly : Obligations.DsetnSetsTheLagExactly := by
  intro s v k hk
  by_cases zero : k = 0
  · subst zero
    obtain ⟨t, e, amt⟩ := exec_dsetf_amt s v 0x7F800000 one
    exact ⟨t, e, by rw [amt, tunedAmount_inf_one]; rfl⟩
  · obtain ⟨t, e, amt⟩ := exec_dsetf_amt s v one (realOfNat k)
    refine ⟨t, by rw [dsetn, if_neg zero, e], ?_⟩
    rw [amt, tunedAmount_one_realOfNat _ _ (Nat.pos_of_ne_zero zero) hk, toNat_index hk]

end Sys2Proof.Machine
end

section
/-!
The delay-line commands DPUSH and DPOP (R101, R102): the voice after each, and what a delay-line command
leaves unchanged. The frame is read off the writers of every register (`globalsWrittenBy_after`,
`State.writtenBy_voice`).
-/

namespace Sys2Proof.Machine

/-! ### The voices after a delay-line command -/

/-- A command on a voice leaves the other voices alone (R30). -/
theorem State.after_voice_of_ne (s : State) {i : Instr} {u v : Fin Config.nv} (hv : voiceOf i = some v)
    (hu : u ≠ v) : (s.after i).voice u = s.voice u := by
  rw [s.after_of_voiceOf hv, State.storeEffect_voice_of_ne _ _ hu]

@[simp] theorem State.after_dpush_voice_same (s : State) (v : Fin Config.nv) (x : Word) :
    (s.after (.dpush v x)).voice v = (s.voice v).push (real x) :=
  s.storeEffect_voice_same v _

@[simp] theorem State.after_dpop_voice_same (s : State) (v : Fin Config.nv) :
    (s.after (.dpop v)).voice v = (s.voice v).pop.1 :=
  s.storeEffect_voice_same v _

@[simp] theorem State.after_dsetf_voice_same (s : State) (v : Fin Config.nv) (f rate : Word) :
    (s.after (.dsetf v f rate)).voice v =
      (s.voice v).setf (Config.unspecAmt s.serial v.val) f rate :=
  s.storeEffect_voice_same v _

/-! ### What a delay-line command leaves unchanged -/

theorem opcode_mem_of_isDelayLine {i : Instr} (h : isDelayLine i = true) :
    i.opcode ∈ [.dpush, .dpop, .dsetf] := by
  cases i with
  | dpush | dpop | dsetf => simp [Instr.opcode]
  | _ => cases h

/-- A delay-line command writes nothing but delay lines (R100). -/
theorem sameOutsideVoices_after (s : State) {i : Instr} (h : isDelayLine i = true) :
    SameOutsideVoices s (s.after i) := by
  have mem := opcode_mem_of_isDelayLine h
  have globals := globalsWrittenBy_after s i
  have notWriter : ∀ writers : List Opcode, (∀ o ∈ [Opcode.dpush, .dpop, .dsetf], o ∉ writers) →
      i.opcode ∉ writers := fun _ disjoint => disjoint _ mem
  exact ⟨sameParams_after s (ne_of_mem_of_not_mem mem (by decide)),
    sameLatches_after s (ne_of_mem_of_not_mem mem (by decide)),
    ⟨globals.lfoPhase.resolve_right (notWriter _ (by decide)),
      globals.lfoRate.resolve_right (notWriter _ (by decide)),
      globals.lfoAmt.resolve_right (notWriter _ (by decide))⟩,
    globals.status.resolve_right (notWriter _ (by decide))⟩

/-- DPOP and DSETF write no buffer, of any voice (R102, R104). -/
theorem State.after_readByte (s : State) {i : Instr} (h : i.opcode ∈ [.dpop, .dsetf])
    (u : Fin Config.nv) (a : Nat) :
    ((s.after i).voice u).buf.readByte a = (s.voice u).buf.readByte a := by
  have disjoint : ∀ o ∈ [Opcode.dpop, .dsetf], o ∉ [Opcode.dpush, .vproc, .esamp] := by decide
  exact ((s.writtenBy_voice i u).ring.resolve_right (disjoint _ h)).1 a

/-- Settles O10: the word written is read back, and the write leaves every byte outside it. -/
theorem dpushWritesThenAdvances : Obligations.DpushWritesThenAdvances := by
  intro s v x inRange canonical
  have runs : exec (.dpush v x) s = .next (s.after (.dpush v x)) :=
    exec_eq_next_iff.2 ⟨by simpa [pushedVoices] using inRange, rfl⟩
  refine ⟨_, runs, ?_⟩
  rw [State.after_dpush_voice_same]
  exact ⟨Memory.readWord_writeWord_same (real x) canonical inRange, toNat_advance _,
    fun a => Memory.readByte_writeWord_outside _ (real x), rfl, rfl, rfl,
    fun u => s.after_voice_of_ne rfl, sameOutsideVoices_after s rfl, rfl, rfl⟩

/-- Settles O11: the answer and `DL_LAST` are the lagged word, and DPOP writes nothing else. -/
theorem dpopAnswersTheLaggedWord : Obligations.DpopAnswersTheLaggedWord := by
  intro s v
  refine ⟨s.after (.dpop v), shownReal s.serial (s.voice v).tap, rfl, ⟨rfl, rfl⟩,
    showsReal_shownReal _ _, ?_⟩
  rw [State.after_dpop_voice_same]
  exact ⟨rfl, s.after_readByte (by simp [Instr.opcode]), rfl, rfl, rfl,
    fun u => s.after_voice_of_ne rfl, sameOutsideVoices_after s rfl⟩

end Sys2Proof.Machine
end

section
/-!
The lag that DSETF stores (R104, R105): the arms of `tunedAmount`, and what `ROUND_INT` can be of the
quotient of two positive REALs.
-/

namespace Sys2Proof.Machine

/-! ### Positive REALs -/

/-- What `x > 0` says: `x` is no NaN, and its key is positive. -/
theorem fgt_zero_iff {x : Word} : fgt x zero = true ↔ isNaN x = false ∧ 0 < orderKey x := by
  have zeroNumber : isNaN zero = false := by decide
  have zeroKey : orderKey zero = 0 := by decide
  simp [fgt, flt, zeroNumber, zeroKey]

/-- A number is positive or at most zero. -/
theorem fle_zero_eq_not_fgt {x : Word} (hx : isNaN x = false) : fle x zero = !fgt x zero := by
  have zeroNumber : isNaN zero = false := by decide
  rw [Bool.eq_not, Ne, Bool.eq_iff_iff, fle_iff hx zeroNumber, fgt, flt_iff zeroNumber hx]
  omega

theorem signBit_of_fgt_zero {x : Word} (h : fgt x zero = true) : signBit x = false := by
  obtain ⟨-, pos⟩ := fgt_zero_iff.1 h
  cases sign : signBit x with
  | false => rfl
  | true =>
    rw [orderKey, if_pos sign] at pos
    omega

/-- A quotient of positive REALs is a NaN or has no sign. -/
theorem signBit_fdiv_of_pos {p q : Word} (hp : fgt p zero = true) (hq : fgt q zero = true)
    (h : isNaN (fdiv p q) = false) : signBit (fdiv p q) = false := by
  rw [signBit_of_nan_or_packReal (fdiv_eq_nan_or_packReal p q) h, signBit_of_fgt_zero hp,
    signBit_of_fgt_zero hq]
  rfl

/-- `ROUND_INT` of a NaN or of a REAL without a sign: none, the positive infinity, or a natural number. -/
theorem roundInt_cases (ties : RoundTies) {p : Word} (h : isNaN p = false → signBit p = false) :
    roundInt ties p = .none ∨ roundInt ties p = .posInf ∨ ∃ m : Nat, roundInt ties p = .int m := by
  cases hn : isNaN p with
  | true => exact .inl (roundInt_of_nan ties hn)
  | false =>
    have sign := h hn
    rcases isInf_or_isFinite hn with inf | finite
    · exact .inr (.inl (by simp [roundInt, hn, inf, sign]))
    · exact .inr (.inr ⟨_, by rw [roundInt_of_finite ties finite, sign, if_neg (by decide)]⟩)

/-! ### The arms of R104 -/

section
variable (ties : RoundTies) (u : BitVec Config.idxw) {f rate : Word}

/-- Without a target or a positive sample rate the lag is the draw. -/
theorem tunedAmount_of_unspecified (h : isNaN f = true ∨ isNaN rate = true ∨ fgt rate zero = false) :
    tunedAmount ties u f rate = u := by
  rcases h with h | h | h <;> simp [tunedAmount, h]

/-- At a target that is not positive the lag is the longest. -/
theorem tunedAmount_of_fle_zero (hr : fgt rate zero = true) (hf : fle f zero = true) :
    tunedAmount ties u f rate = BitVec.ofNat Config.idxw (Config.cap - 1) := by
  obtain ⟨number, -⟩ := of_fle hf
  simp [tunedAmount, number, (fgt_zero_iff.1 hr).1, hr, hf]

/-- At a positive target the lag is the rounded quotient, clamped. -/
theorem tunedAmount_of_fgt_zero (hr : fgt rate zero = true) (hf : fgt f zero = true) :
    tunedAmount ties u f rate = clampAmount u (roundInt ties (fdiv rate f)) := by
  obtain ⟨number, -⟩ := fgt_zero_iff.1 hf
  simp [tunedAmount, number, (fgt_zero_iff.1 hr).1, hr, hf, fle_zero_eq_not_fgt number]

/-- The clamp of a natural number. -/
theorem clampAmount_natCast (m : Nat) :
    clampAmount u (.int m) = BitVec.ofNat Config.idxw (min m (Config.cap - 1)) := by
  rw [clampAmount]
  split <;> congr 1 <;> omega

/-- A quotient of positive REALs that rounds to a number gives that number, clamped. -/
theorem tunedAmount_of_roundInt_eq {m : Nat} (hr : fgt rate zero = true) (hf : fgt f zero = true)
    (rounds : roundInt ties (fdiv rate f) = .int m) :
    tunedAmount ties u f rate = BitVec.ofNat Config.idxw (min m (Config.cap - 1)) := by
  rw [tunedAmount_of_fgt_zero ties u hr hf, rounds, clampAmount_natCast]

/-- A quotient of positive REALs that is too large for a REAL gives the longest lag. -/
theorem tunedAmount_of_overflow (hr : fgt rate zero = true) (hf : fgt f zero = true)
    (overflows : roundInt ties (fdiv rate f) = .posInf) :
    tunedAmount ties u f rate = BitVec.ofNat Config.idxw (Config.cap - 1) := by
  rw [tunedAmount_of_fgt_zero ties u hr hf, overflows, clampAmount]

end

/-- Settles O12: the arms of R104, and the frame of DSETF. -/
theorem dsetfStoresTheClampedQuotient : Obligations.DsetfStoresTheClampedQuotient := by
  intro s v f rate
  have draw := unspecAmt_lt s.serial v.val
  refine ⟨s.after (.dsetf v f rate), rfl, ?_⟩
  rw [State.after_dsetf_voice_same, Voice.setf_amt]
  refine ⟨fun _ => tunedAmount_lt _ draw f rate, ?low, ?quotient,
    s.after_readByte (by simp [Instr.opcode]), rfl, rfl, rfl, fun u => s.after_voice_of_ne rfl,
    sameOutsideVoices_after s rfl, rfl, rfl⟩
  case low =>
    intro _ _ hr hf
    rw [tunedAmount_of_fle_zero _ _ hr hf, toNat_index (by decide)]
  case quotient =>
    intro number _ hr notLow
    have hf : fgt f zero = true := by simpa [fle_zero_eq_not_fgt number] using notLow
    rcases roundInt_cases Config.roundTies (signBit_fdiv_of_pos hr hf) with e | e | ⟨m, e⟩
    · rw [e]
      exact tunedAmount_lt _ draw f rate
    · rw [tunedAmount_of_overflow _ _ hr hf e, e]
      exact toNat_index (by decide)
    · rw [tunedAmount_of_roundInt_eq _ _ hr hf e, e, toNat_index (by omega)]
      exact ⟨Int.natCast_nonneg m, by omega⟩

/-- A quotient whose exponent alone passes the largest is infinite (R11). -/
theorem roundMag_of_large {n d : Nat} (h : infMag ≤ (Nat.log2 (n / d) - 23) * 2 ^ 23) :
    roundMag n d = infMag :=
  min_eq_right (Nat.le_trans h (Nat.le_add_right _ _))

/-- The smallest positive REAL divides 44100.0 to more than the largest REAL. -/
theorem roundInt_fdiv_smallest (ties : RoundTies) :
    roundInt ties (fdiv 0x472C4400 0x00000001) = .posInf := by
  have field : roundMag (units 0x472C4400 * 2 ^ 149) (units 0x00000001) = infMag :=
    roundMag_of_large (by decide)
  rw [fdiv_of_finite (by decide) (by decide) (by decide), field]
  rfl

/-- Settles O13: each row falls in the arm named, and its quotient rounds to the number named. The rows
of 4999 are an index that stands, a quotient clamped, a target at most zero and an overflow. -/
theorem dsetfCornerCases : Obligations.DsetfCornerCases := by
  intro u
  refine ⟨tunedAmount_of_roundInt_eq _ u (m := 100) ?_ ?_ ?_,
    tunedAmount_of_roundInt_eq _ u (m := 101) ?_ ?_ ?_,
    tunedAmount_of_roundInt_eq _ u (m := 102) ?_ ?_ ?_,
    tunedAmount_of_roundInt_eq _ u (m := 102) ?_ ?_ ?_,
    tunedAmount_of_roundInt_eq _ u (m := 0) ?_ ?_ ?_,
    tunedAmount_of_roundInt_eq _ u (m := 1) ?_ ?_ ?_,
    tunedAmount_of_roundInt_eq _ u (m := 4999) ?_ ?_ ?_,
    tunedAmount_of_roundInt_eq _ u (m := 5000) ?_ ?_ ?_,
    tunedAmount_of_roundInt_eq _ u (m := 5000) ?_ ?_ ?_,
    tunedAmount_of_fle_zero _ u ?_ ?_,
    tunedAmount_of_overflow _ u ?_ ?_ (roundInt_fdiv_smallest _),
    tunedAmount_of_roundInt_eq _ u (m := 0) ?_ ?_ ?_,
    tunedAmount_of_unspecified _ u ?_,
    tunedAmount_of_unspecified _ u ?_⟩
  all_goals decide

end Sys2Proof.Machine
end

section
/-!
The delay law (R107), by induction over the commands: a delay line that has taken pushes, the last first,
holds the last `CAP` of them, and zeros where there were fewer.
-/

namespace Sys2Proof.Machine

/-! ### Pushes and runs -/

theorem pushedOn_cons (v : Fin Config.nv) (i : Instr) (l : List Instr) :
    pushedOn v (i :: l) = pushedOn v [i] ++ pushedOn v l := by
  cases i with
  | dpush u x =>
    by_cases h : u = v <;> simp [pushedOn, h]
  | _ => rfl

/-- A command on another voice pushes nothing on this one. -/
theorem pushedOn_of_ne {i : Instr} {u v : Fin Config.nv} (hi : voiceOf i = some u) (h : u ≠ v) :
    pushedOn v [i] = [] := by
  cases i with
  | dpush w x =>
    obtain rfl := Option.some.inj hi
    simp [pushedOn, h]
  | _ => rfl

theorem exists_voiceOf_of_isDelayLine {i : Instr} (h : isDelayLine i = true) :
    ∃ v, voiceOf i = some v := by
  cases i with
  | dpush v | dpop v | dsetf v => exact ⟨v, rfl⟩
  | _ => cases h

/-- A run of commands that answers a next state ran the first command and then the others. -/
theorem execAll_cons {i : Instr} {l : List Instr} {s t : State} (h : execAll (i :: l) s = .next t) :
    execAll l (s.after i) = .next t := by
  unfold execAll at h
  split at h
  · next u e =>
    rwa [← eq_after_of_exec e]
  · cases h
  · cases h

/-! ### Indices (R107) -/

/-- The index of the sample pushed `k` pushes before the last of `m`. -/
def slot (m k : Nat) : Nat := (m + (Config.cap - 1 - k)) % Config.cap

/-- The last push stands where the write index was before it. -/
theorem slot_last (m : Nat) : slot (m + 1) 0 = m % Config.cap := by
  simp only [slot, Config.cap]
  omega

theorem slot_succ_succ {m k : Nat} (h : k + 1 < Config.cap) : slot (m + 1) (k + 1) = slot m k := by
  simp only [slot]
  congr 1
  omega

/-- Only the oldest sample stands at the write index. -/
theorem slot_ne {m k : Nat} (h : k + 1 < Config.cap) : slot m k ≠ m % Config.cap := by
  simp only [slot, Config.cap] at *
  omega

/-- The read index of the lag `k + 1`, where `CAP` counts as 0 (R102). -/
theorem readIndex_eq_slot {wp amt : BitVec Config.idxw} {m k : Nat} (hwp : wp.toNat = m % Config.cap)
    (hk : k < Config.cap) (hamt : amt.toNat = (k + 1) % Config.cap) : readIndex wp amt = slot m k := by
  simp only [readIndex, slot, hwp, hamt, Config.cap] at *
  omega

/-- The push numbered `j`, if among the last `CAP` of `m`. -/
theorem slot_sub {m j : Nat} (pos : 1 ≤ j) (le : j ≤ m) (recent : m < j + Config.cap) :
    slot m (m - j) = (j - 1) % Config.cap := by
  simp only [slot, Config.cap] at *
  omega

/-! ### A delay line after its pushes -/

/-- The delay line has taken these pushes, the last first, from empty: it holds the last `CAP` of them,
and zeros where there were fewer. -/
structure Voice.Holds (c : Voice) (past : List Word) : Prop where
  canonical : c.buf.wf = true
  wp : c.wp.toNat = past.length % Config.cap
  word : ∀ k < Config.cap, c.buf.readWord (slot past.length k) = real (past.getD k zero)

theorem Voice.holds_nil {c : Voice} (buf : c.buf = []) (wp : c.wp = 0) : c.Holds [] where
  canonical := by rw [buf, Memory.wf_nil]
  wp := by rw [wp]; rfl
  word k _ := by
    rw [buf, Memory.readWord_nil, List.getD_nil]
    decide

theorem Voice.Holds.wp_lt {c : Voice} {past : List Word} (h : c.Holds past) :
    c.wp.toNat < Config.cap := by
  rw [h.wp]
  exact Nat.mod_lt _ (by decide)

/-- A push makes every sample one push older, and overwrites the oldest (R101). -/
theorem Voice.Holds.push {c : Voice} {past : List Word} (h : c.Holds past) (x : Word) :
    (c.push (real x)).Holds (x :: past) where
  canonical := Memory.wf_writeWord _ h.canonical h.wp_lt
  wp := by rw [Voice.push_wp, toNat_advance, h.wp, Nat.mod_add_mod, List.length_cons]
  word k hk := by
    rw [Voice.push_buf, List.length_cons]
    cases k with
    | zero =>
      rw [slot_last, ← h.wp, Memory.readWord_writeWord_same _ h.canonical h.wp_lt, List.getD_cons_zero]
    | succ k =>
      have elsewhere : slot past.length k ≠ c.wp.toNat := h.wp ▸ slot_ne hk
      rw [slot_succ_succ hk, Memory.readWord_writeWord_of_ne _ _ elsewhere, List.getD_cons_succ]
      exact h.word k (Nat.lt_of_succ_lt hk)

/-- What a delay-line command makes of its voice: the samples it pushed are the last ones. -/
theorem Voice.Holds.effect {c : Voice} {past : List Word} (h : c.Holds past) (n : Nat) {i : Instr}
    {v : Fin Config.nv} (hi : isDelayLine i = true) (hv : voiceOf i = some v) :
    (voiceEffect n c i).after.Holds ((pushedOn v [i]).reverse ++ past) := by
  cases i with
  | dpush u x =>
    obtain rfl := Option.some.inj hv
    simpa [pushedOn, voiceEffect] using h.push x
  | dpop u => exact ⟨h.canonical, h.wp, h.word⟩
  | dsetf u f rate => exact ⟨h.canonical, h.wp, h.word⟩
  | _ => cases hi

theorem Voice.Holds.after {s : State} {v : Fin Config.nv} {past : List Word}
    (h : (s.voice v).Holds past) {i : Instr} (hi : isDelayLine i = true) :
    ((s.after i).voice v).Holds ((pushedOn v [i]).reverse ++ past) := by
  obtain ⟨u, hu⟩ := exists_voiceOf_of_isDelayLine hi
  by_cases same : u = v
  · subst same
    rw [s.after_of_voiceOf hu, State.storeEffect_voice_same]
    exact h.effect s.serial hi hu
  · rw [s.after_voice_of_ne hu (Ne.symm same), pushedOn_of_ne hu same]
    exact h

/-- A run of delay-line commands pushes its samples, the last on top. -/
theorem Voice.Holds.execAll {l : List Instr} {v : Fin Config.nv}
    (hl : ∀ i ∈ l, isDelayLine i = true) {s t : State} {past : List Word}
    (h : (s.voice v).Holds past) (run : execAll l s = .next t) :
    (t.voice v).Holds ((pushedOn v l).reverse ++ past) := by
  induction l generalizing s past with
  | nil =>
    obtain rfl := Host.Outcome.next.inj run
    exact h
  | cons i l ih =>
    rw [pushedOn_cons, List.reverse_append, List.append_assoc]
    exact ih (fun j hj => hl j (List.mem_cons_of_mem _ hj)) (h.after (hl i List.mem_cons_self))
      (execAll_cons run)

/-! ### Reading it -/

/-- The lag `k + 1`, where `CAP` counts as 0, reads the sample pushed `k` pushes before the last. -/
theorem Voice.Holds.tap {c : Voice} {past : List Word} (h : c.Holds past) {k : Nat}
    (hk : k < Config.cap) (lag : c.amt.toNat = (k + 1) % Config.cap) :
    c.tap = real (past.getD k zero) := by
  rw [Voice.tap, readIndex_eq_slot h.wp hk lag, h.word k hk]

theorem Voice.Holds.dpop {s : State} {v : Fin Config.nv} {past : List Word}
    (h : (s.voice v).Holds past) {k : Nat} (hk : k < Config.cap)
    (lag : (s.voice v).amt.toNat = (k + 1) % Config.cap) :
    ∃ t r, exec (.dpop v) s = .next t ∧ t.resp = some ⟨false, r⟩ ∧
      ShowsReal r (past.getD k zero) := by
  refine ⟨s.after (.dpop v), shownReal s.serial (s.voice v).tap, rfl, rfl, ?_⟩
  rw [h.tap hk lag, shownReal_real]
  exact showsReal_shownReal _ _

/-- The sample `k` pushes before the last, in the order of the pushes. -/
theorem getD_reverse_eq_ite (p : List Word) (k : Nat) :
    p.reverse.getD k zero = if k + 1 ≤ p.length then p.getD (p.length - (k + 1)) zero else zero := by
  split
  · next h =>
    rw [List.getD_reverse k h]
    congr 1
    omega
  · next h => exact List.getD_eq_default _ _ (by simpa using h)

/-- Settles O15: after the run the voice holds the pushes of the run. -/
theorem delayLaw : Obligations.DelayLaw := by
  intro l s t v hl buf wp run p m k
  have holds : (t.voice v).Holds p.reverse := by
    simpa using (Voice.holds_nil buf wp).execAll hl run
  have length : p.reverse.length = m := List.length_reverse
  refine ⟨by rw [holds.wp, length], ?word, ?lag, ?longest⟩
  case word =>
    intro j pos le recent
    have word := holds.word (m - j) (by omega)
    rw [length, slot_sub pos le recent, getD_reverse_eq_ite, if_pos (by omega)] at word
    rw [word]
    congr 2
    omega
  case lag =>
    intro pos lt
    have age : k - 1 + 1 = k := Nat.sub_add_cancel pos
    have answer := holds.dpop (k := k - 1) (by omega) (by rw [age, Nat.mod_eq_of_lt lt])
    rwa [getD_reverse_eq_ite, age] at answer
  case longest =>
    intro isZero
    have answer := holds.dpop (k := Config.cap - 1) (by decide) (isZero.trans (by decide))
    rwa [getD_reverse_eq_ite] at answer

end Sys2Proof.Machine
end

section
/-!
The filter commands FTICK, FSETC and FSETQ (R113, R114, R116): the filter of the voice after each, by
variant and by the library's outcome, and what a filter command leaves unchanged.
-/

namespace Sys2Proof.Machine

/-! ### Setting a filter (R112) -/

/-- A new cutoff that the library accepts: the REAL it stands for is stored, and the library's
coefficients are taken (R114). -/
theorem Filter.setCutoff_of_some {g : SvfFilter} {c : Word} {k : SvfCoef}
    (h : svfCoef g.type g.srate c g.q g.gain = some k) :
    Filter.setCutoff (.svf g) (real c) = (.svf { g with cut := real c, co := k }, false) := by
  simp only [Filter.setCutoff, SvfFilter.recompute, svfCoef_real_cut, h]

/-- A new cutoff that the library refuses is stored, and the coefficients stay (R114). -/
theorem Filter.setCutoff_of_none {g : SvfFilter} {c : Word}
    (h : svfCoef g.type g.srate c g.q g.gain = none) :
    Filter.setCutoff (.svf g) (real c) = (.svf { g with cut := real c }, true) := by
  simp only [Filter.setCutoff, SvfFilter.recompute, svfCoef_real_cut, h]

/-- A new Q that the library accepts: the REAL it stands for is stored, and the library's coefficients
are taken (R116). -/
theorem Filter.setQ_of_some {g : SvfFilter} {q : Word} {k : SvfCoef}
    (h : svfCoef g.type g.srate g.cut q g.gain = some k) :
    Filter.setQ (.svf g) (real q) = (.svf { g with q := real q, co := k }, false) := by
  simp only [Filter.setQ, SvfFilter.recompute, svfCoef_real_q, h]

/-- A new Q that the library refuses is stored, and the coefficients stay (R116). -/
theorem Filter.setQ_of_none {g : SvfFilter} {q : Word}
    (h : svfCoef g.type g.srate g.cut q g.gain = none) :
    Filter.setQ (.svf g) (real q) = (.svf { g with q := real q }, true) := by
  simp only [Filter.setQ, SvfFilter.recompute, svfCoef_real_q, h]

/-- The comb's new coefficients are those of the REAL that the cutoff stands for (R19, R114). -/
theorem Filter.setCutoff_comb (g : CombFilter) (c : Word) :
    Filter.setCutoff (.comb g) (real c) = (.comb (g.setCutoffWith realExp c), false) := by
  simp only [Filter.setCutoff, CombFilter.setCutoffWith, combFeedbackWith, fmul_real_right]

theorem Filter.setQ_comb (g : CombFilter) (q : Word) :
    Filter.setQ (.comb g) q = (.comb g, false) := rfl

/-! ### The voice and the flags after a filter command -/

theorem State.after_ftick_filter (s : State) (v : Fin Config.nv) (x : Word) :
    ((s.after (.ftick v x)).voice v).filter = ((s.voice v).filter.tick x).1 :=
  congrArg Voice.filter (s.storeEffect_voice_same v _)

theorem State.after_fsetc_filter (s : State) (v : Fin Config.nv) (c : Word) :
    ((s.after (.fsetc v c)).voice v).filter = ((s.voice v).filter.setCutoff (real c)).1 :=
  congrArg Voice.filter (s.storeEffect_voice_same v _)

theorem State.after_fsetc_status (s : State) (v : Fin Config.nv) (c : Word) :
    (s.after (.fsetc v c)).status =
      recordCoefErr ((s.voice v).filter.setCutoff (real c)).2 v s.status := rfl

theorem State.after_fsetq_filter (s : State) (v : Fin Config.nv) (q : Word) :
    ((s.after (.fsetq v q)).voice v).filter = ((s.voice v).filter.setQ (real q)).1 :=
  congrArg Voice.filter (s.storeEffect_voice_same v _)

theorem State.after_fsetq_status (s : State) (v : Fin Config.nv) (q : Word) :
    (s.after (.fsetq v q)).status =
      recordCoefErr ((s.voice v).filter.setQ (real q)).2 v s.status := rfl

/-- A computation that succeeds leaves every flag (R47). -/
theorem recordCoefErr_false (v : Fin Config.nv) (status : Word) :
    recordCoefErr false v status = status := rfl

/-- A computation that fails sets the voice's flag and no other (R47). -/
theorem getLsbD_recordCoefErr_true (v : Fin Config.nv) (status : Word) (i : Nat) :
    (recordCoefErr true v status).getLsbD i = (status.getLsbD i || decide (i = v.val)) := by
  rw [getLsbD_recordCoefErr, Bool.true_and]

/-! ### What a filter command leaves unchanged -/

theorem notWriter_of_filterCommand {i : Instr} (h : i.opcode ∈ [.ftick, .fsetc, .fsetq])
    {writers : List Opcode} (disjoint : ∀ o ∈ [Opcode.ftick, .fsetc, .fsetq], o ∉ writers) :
    i.opcode ∉ writers := disjoint _ h

/-- A filter command writes no delay line, of any voice. -/
theorem sameDelayLine_of_filterCommand (s : State) {i : Instr} (h : i.opcode ∈ [.ftick, .fsetc, .fsetq])
    (u : Fin Config.nv) : SameDelayLine u s (s.after i) := by
  have voice := s.writtenBy_voice i u
  obtain ⟨bytes, wp⟩ := voice.ring.resolve_right (notWriter_of_filterCommand h (by decide))
  exact ⟨bytes, wp, voice.amt.resolve_right (notWriter_of_filterCommand h (by decide)),
    voice.last.resolve_right (notWriter_of_filterCommand h (by decide))⟩

/-- A filter command leaves the LFO. -/
theorem sameLfo_of_filterCommand (s : State) {i : Instr} (h : i.opcode ∈ [.ftick, .fsetc, .fsetq]) :
    SameLfo s (s.after i) := by
  have globals := globalsWrittenBy_after s i
  exact ⟨globals.lfoPhase.resolve_right (notWriter_of_filterCommand h (by decide)),
    globals.lfoRate.resolve_right (notWriter_of_filterCommand h (by decide)),
    globals.lfoAmt.resolve_right (notWriter_of_filterCommand h (by decide))⟩

/-- What a filter command on voice `v` leaves: the delay lines, the other voices, the parameters, the
latches and the LFO. -/
theorem filterCommand_frame (s : State) {i : Instr} {v : Fin Config.nv} (hv : voiceOf i = some v)
    (h : i.opcode ∈ [.ftick, .fsetc, .fsetq]) :
    (∀ u, SameDelayLine u s (s.after i)) ∧ (∀ u, u ≠ v → (s.after i).voice u = s.voice u) ∧
      SameParams s (s.after i) ∧ SameLatches s (s.after i) ∧ SameLfo s (s.after i) :=
  ⟨sameDelayLine_of_filterCommand s h, fun _ => s.after_voice_of_ne hv,
    sameParams_after s (ne_of_mem_of_not_mem h (by decide)),
    sameLatches_after s (ne_of_mem_of_not_mem h (by decide)), sameLfo_of_filterCommand s h⟩

/-- Settles O16: FTICK is the tick of the voice's filter, and computes no coefficients. -/
theorem ftickFiltersTheSample : Obligations.FtickFiltersTheSample := by
  intro s v x
  obtain ⟨lines, others, params, latches, lfo⟩ :=
    filterCommand_frame s (i := .ftick v x) rfl (by simp [Instr.opcode])
  refine ⟨s.after (.ftick v x), shownReal s.serial ((s.voice v).filter.tick x).2, rfl, ⟨rfl, rfl⟩,
    ?_, lines, others, params, latches, lfo, rfl⟩
  rw [State.after_ftick_filter]
  cases (s.voice v).filter with
  | comb g => exact ⟨showsReal_shownReal _ _, rfl⟩
  | svf g => exact ⟨showsReal_shownReal _ _, rfl⟩

/-- Settles O17: the comb takes its two coefficients; the SVF stores the cutoff, and then the library
succeeds or fails. -/
theorem fsetcSetsTheCutoff : Obligations.FsetcSetsTheCutoff := by
  intro s v c
  obtain ⟨lines, others, params, latches, lfo⟩ :=
    filterCommand_frame s (i := .fsetc v c) rfl (by simp [Instr.opcode])
  refine ⟨s.after (.fsetc v c), rfl, ?_, lines, others, params, latches, lfo, rfl, rfl⟩
  rw [State.after_fsetc_filter, State.after_fsetc_status]
  cases (s.voice v).filter with
  | comb g =>
    rw [Filter.setCutoff_comb]
    exact ⟨rfl, recordCoefErr_false v s.status⟩
  | svf g =>
    dsimp only
    cases library : svfCoef g.type g.srate c g.q g.gain with
    | some k =>
      rw [Filter.setCutoff_of_some library]
      exact ⟨rfl, recordCoefErr_false v s.status⟩
    | none =>
      rw [Filter.setCutoff_of_none library]
      exact ⟨rfl, getLsbD_recordCoefErr_true v s.status⟩

/-- Settles O18: the comb is left alone; the SVF stores the Q, and then the library succeeds or
fails. -/
theorem fsetqSetsTheQ : Obligations.FsetqSetsTheQ := by
  intro s v q
  obtain ⟨lines, others, params, latches, lfo⟩ :=
    filterCommand_frame s (i := .fsetq v q) rfl (by simp [Instr.opcode])
  refine ⟨s.after (.fsetq v q), rfl, ?_, lines, others, params, latches, lfo, rfl, rfl⟩
  rw [State.after_fsetq_filter, State.after_fsetq_status]
  cases (s.voice v).filter with
  | comb g =>
    rw [Filter.setQ_comb]
    exact ⟨rfl, recordCoefErr_false v s.status⟩
  | svf g =>
    dsimp only
    cases library : svfCoef g.type g.srate g.cut q g.gain with
    | some k =>
      rw [Filter.setQ_of_some library]
      exact ⟨rfl, recordCoefErr_false v s.status⟩
    | none =>
      rw [Filter.setQ_of_none library]
      exact ⟨rfl, getLsbD_recordCoefErr_true v s.status⟩

end Sys2Proof.Machine
end

section
/-!
The comb at the ends of its range (R113): a zero product adds nothing, and a coefficient of one keeps the
other product.
-/

namespace Sys2Proof.Machine

/-- A product does not depend on the order of its factors (R11). -/
theorem fmul_comm (p q : Word) : fmul p q = fmul q p := by
  simp only [fmul, Bool.or_comm, Nat.mul_comm, bne_comm]

theorem one_fmul {p : Word} (h : isNaN p = false) : fmul one p = p := by
  rw [fmul_comm, fmul_one h]

theorem value_of_zero {x : Word} (h : isZero x = true) : value x = 0 := by
  simp [value, units, isZero_iff.1 h]

theorem orderKey_of_zero {x : Word} (h : isZero x = true) : orderKey x = 0 := by
  simp [orderKey, isZero_iff.1 h]

theorem value_ne_zero {x : Word} (h : isZero x = false) : value x ≠ 0 := by
  rw [← Int.natAbs_pos, natAbs_value]
  exact units_pos h

/-- The only zero that is not `-0.0` is `+0.0`. -/
theorem eq_zero_of_isZero {x : Word} (h : isZero x = true) (hx : x ≠ fneg zero) : x = zero := by
  have field : magBits x = 0 := isZero_iff.1 h
  cases sign : signBit x with
  | false => exact real_ext sign field
  | true => exact absurd (real_ext sign field) hx

/-- A sum of two finite REALs does not depend on their order (R11). -/
theorem fadd_comm_of_finite {p q : Word} (hp : isFinite p = true) (hq : isFinite q = true) :
    fadd p q = fadd q p := by
  rw [fadd_of_finite hp hq, fadd_of_finite hq hp, Int.add_comm, Bool.and_comm]

/-- The sum with a zero of a finite REAL that is no zero is that REAL: its magnitude is its own
rounding. -/
theorem fadd_zero_of_finite {p z : Word} (hp : isFinite p = true) (nonzero : isZero p = false)
    (hz : isZero z = true) : fadd p z = p := by
  have sign : decide (value p < 0) = signBit p := by
    cases h : signBit p with
    | false => exact decide_eq_false (value_nonneg h).not_gt
    | true => exact decide_eq_true (lt_of_le_of_ne (value_nonpos h) (value_ne_zero nonzero))
  have field : roundMag (units p) 1 = magBits p := by
    rw [units, ← Nat.mul_one (unitsOfMag _), roundMag_unitsOfMag Nat.one_pos (isFinite_iff.1 hp)]
  rw [fadd_of_finite hp (isFinite_of_zero hz), value_of_zero hz, Int.add_zero,
    if_neg (value_ne_zero nonzero), sign, natAbs_value, field, packReal_eq]

/-- The sum with a zero, of either side, of a REAL that is no zero. -/
theorem fadd_of_zero {p z : Word} (hp : isNaN p = false) (nonzero : isZero p = false)
    (hz : isZero z = true) : fadd p z = p ∧ fadd z p = p := by
  have finite_z := isFinite_of_zero hz
  rcases isInf_or_isFinite hp with inf | finite
  · exact fadd_of_inf inf (isNaN_of_finite finite_z)
      fun h => by rw [isInf_of_finite finite_z] at h; cases h
  · have right := fadd_zero_of_finite finite nonzero hz
    exact ⟨right, (fadd_comm_of_finite finite_z finite).trans right⟩

/-- The sum of two zeros is a zero, negative only if both are (R11). -/
theorem fadd_of_zeros {p z : Word} (hp : isZero p = true) (hz : isZero z = true) :
    isZero (fadd p z) = true ∧ signBit (fadd p z) = (signBit p && signBit z) :=
  (fadd_sign (isFinite_of_zero hp) (isFinite_of_zero hz)).1
    (by rw [value_of_zero hp, value_of_zero hz, Int.add_zero])

/-- A zero before a REAL other than `-0.0` adds nothing, bit for bit. -/
theorem zero_fadd {z x : Word} (hz : isZero z = true) (nx : isNaN x = false) (hx : x ≠ fneg zero) :
    fadd z x = x := by
  cases zx : isZero x with
  | false => exact (fadd_of_zero nx zx hz).2
  | true =>
    obtain rfl := eq_zero_of_isZero zx hx
    obtain ⟨sum, sign⟩ := fadd_of_zeros hz zx
    exact real_ext (sign.trans (Bool.and_false _)) (isZero_iff.1 sum)

/-- A zero after a REAL keeps its value; of a zero it may change the sign. -/
theorem feq_fadd_zero {p z : Word} (np : isNaN p = false) (hz : isZero z = true) :
    feq (fadd p z) p = true := by
  cases zp : isZero p with
  | false =>
    rw [(fadd_of_zero np zp hz).1]
    exact (feq_iff np np).2 rfl
  | true =>
    obtain ⟨sum, -⟩ := fadd_of_zeros zp hz
    rw [feq_iff (isNaN_of_finite (isFinite_of_zero sum)) np, orderKey_of_zero sum, orderKey_of_zero zp]

/-- Settles O19: one of the two products is a zero, and the other is its own second factor. -/
theorem combPassesThroughOrHolds : Obligations.CombPassesThroughOrHolds := by
  refine ⟨fun g x hb ha hy nx hx => ?passes, fun g x hb ha ny hx => ?holds⟩
  case passes =>
    rw [CombFilter.output, hb, ha, one_fmul nx]
    exact zero_fadd (isZero_fmul (by decide) hy) nx hx
  case holds =>
    rw [CombFilter.output, hb, ha, one_fmul ny]
    exact feq_fadd_zero ny (isZero_fmul (by decide) hx)

end Sys2Proof.Machine
end

section
/-!
The voice command VPROC (R125 to R127): one feedback step as a pop, a tick and a push, and the delay line
that brings a pushed word back when the lag has passed.
-/

namespace Sys2Proof.Machine

/-! ### One feedback step (R126) -/

@[simp] theorem State.after_vproc_voice_same (s : State) (v : Fin Config.nv) (x : Word) :
    (s.after (.vproc v x)).voice v = ((s.voice v).process x).1 :=
  s.storeEffect_voice_same v _

@[simp] theorem State.after_ftick_voice_same (s : State) (v : Fin Config.nv) (x : Word) :
    (s.after (.ftick v x)).voice v = { s.voice v with filter := ((s.voice v).filter.tick x).1 } :=
  s.storeEffect_voice_same v _

/-- VPROC answers a next state exactly when its voice's write pointer names a word (R65). -/
theorem exec_vproc_eq_next_iff {s t : State} {v : Fin Config.nv} {x : Word} :
    exec (.vproc v x) s = .next t ↔
      (s.voice v).wp.toNat < Config.cap ∧ t = s.after (.vproc v x) := by
  simpa [pushedVoices] using exec_eq_next_iff (i := .vproc v x)

/-- The word that VPROC pushes: `DECAY` times the sum of the filtered popped word and the input. -/
def Voice.feedback (c : Voice) (x : Word) : Word :=
  fmul Config.decay (fadd (c.filter.tick c.tap).2 x)

/-- One feedback step is a push of the feedback after the pop and the tick (R125). -/
theorem Voice.process_eq_push (c : Voice) (x : Word) :
    (c.process x).1 =
      ({ c.pop.1 with filter := (c.filter.tick c.tap).1 } : Voice).push (c.feedback x) := rfl

/-- The feedback is a REAL already: a DPUSH of it pushes the word itself (R19). -/
theorem Voice.real_feedback (c : Voice) (x : Word) : real (c.feedback x) = c.feedback x :=
  real_fmul _ _

theorem sameOutsideVoices_after_vproc (s : State) (v : Fin Config.nv) (x : Word) :
    SameOutsideVoices s (s.after (.vproc v x)) :=
  ⟨sameParams_after s (by simp [Instr.opcode]), sameLatches_after s (by simp [Instr.opcode]),
    ⟨rfl, rfl, rfl⟩, rfl⟩

/-- Settles O21: the word pushed is read back, and the push leaves every byte outside it. -/
theorem vprocIsOneFeedbackStep : Obligations.VprocIsOneFeedbackStep := by
  intro s v x inRange canonical
  refine ⟨s.after (.vproc v x), shownReal s.serial (s.voice v).tap,
    exec_vproc_eq_next_iff.2 ⟨inRange, rfl⟩, ⟨rfl, rfl⟩, showsReal_shownReal _ _, ?_⟩
  rw [State.after_vproc_voice_same]
  exact ⟨rfl, rfl, Memory.readWord_writeWord_same _ canonical inRange, toNat_advance _, rfl,
    fun a => Memory.readByte_writeWord_outside _ _, fun u => s.after_voice_of_ne rfl,
    sameOutsideVoices_after_vproc s v x⟩

/-! ### The same in three commands (R125) -/

theorem SameOutsideVoices.symm {s t : State} (h : SameOutsideVoices s t) : SameOutsideVoices t s := by
  simp_all [SameOutsideVoices, SameParams, SameLatches, SameLfo]

theorem SameOutsideVoices.trans {s t u : State} (h : SameOutsideVoices s t) (k : SameOutsideVoices t u) :
    SameOutsideVoices s u := by
  simp_all [SameOutsideVoices, SameParams, SameLatches, SameLfo]

theorem sameOutsideVoices_after_ftick (s : State) (v : Fin Config.nv) (x : Word) :
    SameOutsideVoices s (s.after (.ftick v x)) := by
  obtain ⟨-, -, params, latches, lfo⟩ :=
    filterCommand_frame s (i := .ftick v x) rfl (by simp [Instr.opcode])
  exact ⟨params, latches, lfo, rfl⟩

theorem sameOutsideVoices_after_pop_tick_push (s : State) (v : Fin Config.nv) (y w : Word) :
    SameOutsideVoices s (((s.after (.dpop v)).after (.ftick v y)).after (.dpush v w)) :=
  ((sameOutsideVoices_after s rfl).trans (sameOutsideVoices_after_ftick _ v y)).trans
    (sameOutsideVoices_after _ rfl)

/-- The voices after DPOP, FTICK of the popped word and DPUSH of the feedback are those after VPROC. -/
theorem State.after_pop_tick_push_voice (s : State) (v : Fin Config.nv) (x : Word) (u : Fin Config.nv) :
    (((s.after (.dpop v)).after (.ftick v (s.voice v).tap)).after
      (.dpush v ((s.voice v).feedback x))).voice u = (s.after (.vproc v x)).voice u := by
  by_cases hu : u = v
  · subst hu
    rw [after_dpush_voice_same, Voice.real_feedback, after_ftick_voice_same, after_dpop_voice_same,
      after_vproc_voice_same, Voice.process_eq_push]
    rfl
  · iterate 4 rw [State.after_voice_of_ne _ rfl hu]

/-- Settles O22: DPUSH and VPROC ask for the same word, the voices agree, and none of the four commands
writes outside them. -/
theorem vprocIsPopTickPush : Obligations.VprocIsPopTickPush := by
  intro s s1 s2 s3 v x pop tick push
  obtain rfl := eq_after_of_exec pop
  simp only [State.after_dpop_voice_same, Voice.pop_last, Voice.pop_filter] at tick push
  obtain rfl := eq_after_of_exec tick
  obtain ⟨writable, rfl⟩ := exec_eq_next_iff.1 push
  have inRange : (s.voice v).wp.toNat < Config.cap := by simpa [pushedVoices] using writable
  exact ⟨s.after (.vproc v x), exec_vproc_eq_next_iff.2 ⟨inRange, rfl⟩,
    fun u => (s.after_pop_tick_push_voice v x u).symm,
    (sameOutsideVoices_after_pop_tick_push s v _ _).symm.trans (sameOutsideVoices_after_vproc s v x)⟩

/-! ### The echo (R127) -/

/-- The delay line still holds the word `w`, pushed `k` pushes before the last. -/
structure Voice.Recalls (c : Voice) (k : Nat) (w : Word) : Prop where
  wp_lt : c.wp.toNat < Config.cap
  word : c.buf.readWord (slot c.wp.toNat k) = w

/-- The index of a sample depends on the number of pushes modulo `CAP` alone, which is `DL_WP`. -/
theorem slot_mod (m k : Nat) : slot (m % Config.cap) k = slot m k := Nat.mod_add_mod _ _ _

theorem Voice.recalls_push {c : Voice} (canonical : c.buf.wf = true)
    (inRange : c.wp.toNat < Config.cap) (w : Word) : (c.push w).Recalls 0 w where
  wp_lt := advance_lt _
  word := by
    rw [Voice.push_buf, Voice.push_wp, toNat_advance, slot_mod, slot_last, Nat.mod_eq_of_lt inRange,
      Memory.readWord_writeWord_same w canonical inRange]

/-- A push makes a word one push older, and overwrites it only when it is the oldest (R101). -/
theorem Voice.Recalls.push {c : Voice} {k : Nat} {w : Word} (h : c.Recalls k w)
    (young : k + 1 < Config.cap) (x : Word) : (c.push x).Recalls (k + 1) w where
  wp_lt := advance_lt _
  word := by
    have elsewhere : slot c.wp.toNat k ≠ c.wp.toNat := by
      simpa only [Nat.mod_eq_of_lt h.wp_lt] using slot_ne (m := c.wp.toNat) young
    rw [Voice.push_buf, Voice.push_wp, toNat_advance, slot_mod, slot_succ_succ young,
      Memory.readWord_writeWord_of_ne _ _ elsewhere, h.word]

/-- The pop and the tick of a feedback step leave the buffer, and its push makes the word one push
older. -/
theorem Voice.Recalls.process {c : Voice} {k : Nat} {w : Word} (h : c.Recalls k w)
    (young : k + 1 < Config.cap) (x : Word) : (c.process x).1.Recalls (k + 1) w :=
  Voice.Recalls.push (c := { c.pop.1 with filter := (c.filter.tick c.tap).1 }) ⟨h.wp_lt, h.word⟩ young _

/-- The lag `k + 1`, where `CAP` counts as 0, reads the word pushed `k` pushes before the last. -/
theorem Voice.Recalls.tap {c : Voice} {k : Nat} {w : Word} (h : c.Recalls k w) (hk : k < Config.cap)
    (lag : c.amt.toNat = (k + 1) % Config.cap) : c.tap = w := by
  rw [Voice.tap, readIndex_eq_slot (Nat.mod_eq_of_lt h.wp_lt).symm hk lag, h.word]

/-- A run of VPROCs keeps the lag, and keeps a word until it is `CAP` pushes old. -/
theorem Voice.Recalls.execAll_vproc {v : Fin Config.nv} {w : Word} {ys : List Word} {s t : State} {k : Nat}
    (h : (s.voice v).Recalls k w) (young : k + ys.length < Config.cap)
    (run : execAll (ys.map (Instr.vproc v)) s = .next t) :
    (t.voice v).Recalls (k + ys.length) w ∧ (t.voice v).amt = (s.voice v).amt := by
  induction ys generalizing s k with
  | nil =>
    obtain rfl := Host.Outcome.next.inj run
    exact ⟨h, rfl⟩
  | cons y ys ih =>
    rw [List.length_cons] at young ⊢
    have older : ((s.after (.vproc v y)).voice v).Recalls (k + 1) w := by
      rw [State.after_vproc_voice_same]
      exact h.process (by omega) y
    obtain ⟨recalls, amt⟩ := ih older (by omega) (execAll_cons run)
    rw [State.after_vproc_voice_same, Voice.process_amt] at amt
    exact ⟨by rwa [Nat.add_right_comm] at recalls, amt⟩

/-- Settles O23: the first VPROC pushes its feedback, the others make it `DL_AMT - 1` pushes older, and
the last one pops it. -/
theorem vprocEchoesAfterTheLag : Obligations.VprocEchoesAfterTheLag := by
  intro s t u w v x z ys canonical short lag first run last
  obtain ⟨inRange, rfl⟩ := exec_vproc_eq_next_iff.1 first
  obtain ⟨-, rfl⟩ := exec_vproc_eq_next_iff.1 last
  have pushed : ((s.after (.vproc v x)).voice v).Recalls 0 ((s.voice v).feedback x) := by
    rw [State.after_vproc_voice_same, Voice.process_eq_push]
    exact Voice.recalls_push (c := { (s.voice v).pop.1 with filter := _ }) canonical inRange _
  obtain ⟨recalls, amt⟩ := pushed.execAll_vproc (by omega) run
  rw [State.after_vproc_voice_same, Voice.process_amt] at amt
  rw [Nat.zero_add] at recalls
  rw [State.after_vproc_voice_same, Voice.process_last]
  exact recalls.tap short (amt ▸ lag)

end Sys2Proof.Machine
end

section
/-!
The LFO commands LNEXT, LSETF and LSETA (R131 to R136): each answers a next state from every state, and
writes one register of the LFO.
-/

namespace Sys2Proof.Machine

/-- Only a push can ask for a word that does not exist: a command without one always answers. -/
theorem exec_of_no_push {i : Instr} (h : pushedVoices i = []) (s : State) :
    exec i s = .next (s.after i) :=
  exec_eq_next_iff.2 ⟨by simp [h], rfl⟩

/-- Settles O24: LNEXT shows the value of `State.lnext`, whose state differs in the phase alone. -/
theorem lnextAnswersThenAdvances : Obligations.LnextAnswersThenAdvances := by
  intro s
  have shows : ShowsReal (shownReal s.serial s.lnext.2) s.lnext.2 := showsReal_shownReal _ _
  have sameParams : SameParams s (s.after .lnext) := sameParams_after s (by simp [Instr.opcode])
  exact ⟨s.after .lnext, _, exec_of_no_push rfl s, ⟨rfl, rfl⟩, shows, rfl, rfl, rfl, rfl, sameParams,
    rfl, rfl⟩

/-- Settles O25: the state after LSETF, with the counter advanced by the answer. -/
theorem lsetfSetsTheRate : Obligations.LsetfSetsTheRate :=
  fun s f => ⟨s.serial + 1, exec_of_no_push (i := .lsetf f) rfl s⟩

/-- Settles O26: the state after LSETA, with the counter advanced by the answer. -/
theorem lsetaSetsTheAmount : Obligations.LsetaSetsTheAmount :=
  fun s m => ⟨s.serial + 1, exec_of_no_push (i := .lseta m) rfl s⟩

/-- `2^24 + 1` lies halfway between two REALs, and the tie goes to the even one, `2^24` (R11, R136). -/
theorem fadd_twoPow24_one : fadd 0x4B800000 one = 0x4B800000 := by decide

/-- Settles O28: the sum of the phase and the rate rounds back to the phase. -/
theorem lfoFreezesAtTwoPowTwentyFour : Obligations.LfoFreezesAtTwoPowTwentyFour := by
  intro s phase rate
  refine ⟨s.after .lnext, exec_of_no_push rfl s, ?_⟩
  calc (s.after .lnext).lfoPhase
    _ = fadd s.lfoPhase s.lfoRate := by simp
    _ = fadd 0x4B800000 one := by rw [phase, rate]
    _ = 0x4B800000 := fadd_twoPow24_one

end Sys2Proof.Machine
end

section
/-!
CLIP (R140): its four arms, each under the comparison that selects it, and the range of what it gives.
-/

namespace Sys2Proof.Machine

/-- What `<` says: neither operand is NaN, and the keys are in strict order. -/
theorem of_flt {p q : Word} (h : flt p q = true) :
    isNaN p = false ∧ isNaN q = false ∧ orderKey p < orderKey q := by
  simpa [flt, and_assoc] using h

theorem flt_eq_false_of_fle {p q : Word} (h : fle p q = true) : flt q p = false := by
  obtain ⟨np, nq, le⟩ := of_fle h
  exact Bool.eq_false_iff.2 fun lt => absurd ((flt_iff nq np).1 lt) (by omega)

/-- Two REALs that are no NaN are in order one way or the other (R12). -/
theorem flt_or_fle {p q : Word} (hp : isNaN p = false) (hq : isNaN q = false) :
    flt p q = true ∨ fle q p = true := by
  rw [flt_iff hp hq, fle_iff hq hp]
  exact lt_or_ge _ _

theorem clip_of_fgt_one {x : Word} (h : fgt x one = true) : clip x = one := if_pos h

/-- Between the bounds neither test of CLIP holds. -/
theorem clip_of_between {x : Word} (low : fle negOne x = true) (high : fle x one = true) :
    clip x = x := by
  simp [clip, fgt, flt_eq_false_of_fle low, flt_eq_false_of_fle high]

/-- Below -1 the first test of CLIP fails, since -1 is below 1. -/
theorem clip_of_flt_negOne {x : Word} (h : flt x negOne = true) : clip x = zero := by
  obtain ⟨nx, -, lt⟩ := of_flt h
  have bounds : orderKey negOne ≤ orderKey one := by decide
  have high : fle x one = true := (fle_iff nx (by decide)).2 (lt.le.trans bounds)
  simp [clip, fgt, flt_eq_false_of_fle high, h]

/-- A NaN passes the clip (conflict C6): both tests are false. -/
theorem clip_of_nan {x : Word} (h : isNaN x = true) : clip x = x := by
  obtain ⟨lt, -, -⟩ := compare_of_nan (q := negOne) (.inl h)
  obtain ⟨-, -, gt, -⟩ := compare_of_nan (q := one) (.inl h)
  simp [clip, gt, lt]

/-- Each arm of CLIP but that of NaN gives a REAL between -1 and 1. -/
theorem clip_in_range {x : Word} (h : isNaN x = false) :
    fle negOne (clip x) = true ∧ fle (clip x) one = true := by
  obtain above | high := flt_or_fle (p := one) (by decide) h
  · rw [clip_of_fgt_one above]
    decide
  · obtain below | low := flt_or_fle (q := negOne) h (by decide)
    · rw [clip_of_flt_negOne below]
      decide
    · rw [clip_of_between low high]
      exact ⟨low, high⟩

/-- Settles O31, arm by arm. -/
theorem clipIsAsymmetric : Obligations.ClipIsAsymmetric := fun _ =>
  ⟨clip_of_fgt_one, clip_of_flt_negOne, clip_of_between, clip_of_nan, clip_in_range⟩

end Sys2Proof.Machine
end

section
/-!
ESAMP (R144, R148): one advance of the LFO, every voice retuned and stepped, and the clipped mix. The loop
is `State.sample_spec`; here are the fields of a stepped voice and the sum written out.
-/

namespace Sys2Proof.Machine

/-! ### One voice of the loop -/

/-- The frequency that ESAMP tunes the voice to, for the LFO value `lv`. -/
def Voice.sampleFreq (c : Voice) (lv : Word) : Word := noteToFreq (fadd c.eNote lv) Config.baseHz

section
variable (n : Nat) (x lv : Word) (v : Fin Config.nv) (c : Voice)

theorem sampledVoice_amt : (sampledVoice n x lv v c).amt =
    tunedAmount Config.roundTies (Config.unspecAmt n v.val) (c.sampleFreq lv) Config.fs := rfl

theorem sampledVoice_wp : (sampledVoice n x lv v c).wp = advance c.wp := rfl

/-- A voice that ESAMP steps pops the word at its new lag. -/
theorem sampledVoice_last : (sampledVoice n x lv v c).last =
    c.buf.readWord (readIndex c.wp (sampledVoice n x lv v c).amt) := rfl

theorem sampledVoice_filter : (sampledVoice n x lv v c).filter =
    (c.filter.tick (sampledVoice n x lv v c).last).1 := rfl

theorem sampledVoice_buf : (sampledVoice n x lv v c).buf = c.buf.writeWord c.wp.toNat
    (fmul Config.decay (fadd (c.filter.tick (sampledVoice n x lv v c).last).2 x)) := rfl

/-- The term of a voice is its gain times the word that it popped, its `DL_LAST` now. -/
theorem sampledTerm_eq : sampledTerm n lv v c = fmul c.eVgain (sampledVoice n x lv v c).last := rfl

end

/-! ### The command -/

/-- ESAMP answers a next state when every write pointer names a word (R65). -/
theorem exec_esamp_of_buffersOk {s : State} (h : s.BuffersOk) (x : Word) :
    exec (.esamp x) s = .next (s.after (.esamp x)) :=
  exec_eq_next_iff.2 ⟨fun v _ => (h v).1, rfl⟩

theorem State.after_esamp_voice (s : State) (x : Word) (v : Fin Config.nv) :
    (s.after (.esamp x)).voice v = sampledVoice s.serial x s.lnext.2 v (s.voice v) := by
  obtain ⟨-, -, voices, -⟩ := s.sample_spec x
  rw [State.after_esamp, State.finishReal_voice, voices v]

/-- The phase advances once (R144). -/
theorem State.after_esamp_lfoPhase (s : State) (x : Word) :
    (s.after (.esamp x)).lfoPhase = fadd s.lfoPhase s.lfoRate := by
  obtain ⟨⟨-, -, -, -, -, phase, -⟩, -⟩ := s.sample_spec x
  rw [State.after_esamp, State.finishReal_lfoPhase, phase]

/-- The sum before the clip: the dry term, then the voices' terms in ascending order (R144). -/
theorem State.sample_sum (s : State) (x : Word) :
    (s.sample x).2 = fadd (fadd (fadd (fadd (fmul s.eDry x)
      (fmul (s.voice 0).eVgain ((s.after (.esamp x)).voice 0).last))
      (fmul (s.voice 1).eVgain ((s.after (.esamp x)).voice 1).last))
      (fmul (s.voice 2).eVgain ((s.after (.esamp x)).voice 2).last))
      (fmul (s.voice 3).eVgain ((s.after (.esamp x)).voice 3).last) := by
  obtain ⟨-, -, -, sum⟩ := s.sample_spec x
  simp only [sum, voiceIndices_eq, List.foldl_cons, List.foldl_nil, sampledTerm_eq _ x,
    State.after_esamp_voice]

/-- The answer of ESAMP shows the clipped sum. -/
theorem State.after_esamp_resp (s : State) (x : Word) : (s.after (.esamp x)).resp =
    some ⟨false, shownReal (s.sample x).1.serial (clip (s.sample x).2)⟩ := rfl

/-- Settles O30: the loop's specification, voice by voice; the word pushed is read back, and nothing
else of the buffer is written. -/
theorem esampMixesOneSample : Obligations.EsampMixesOneSample := by
  intro s x ok
  have globals := globalsWrittenBy_after s (.esamp x)
  refine ⟨s.after (.esamp x), _, exec_esamp_of_buffersOk ok x, ⟨s.after_esamp_resp x, globals.cmdIn⟩,
    s.after_esamp_lfoPhase x, globals.lfoRate.resolve_right (by simp [Instr.opcode]),
    globals.lfoAmt.resolve_right (by simp [Instr.opcode]), sameParams_after s (by simp [Instr.opcode]),
    sameLatches_after s (by simp [Instr.opcode]), s.after_status_eq rfl (by simp), fun v => ?voice, ?mix⟩
  case voice =>
    obtain ⟨inRange, canonical⟩ := ok v
    rw [State.after_esamp_voice, sampledVoice_wp, sampledVoice_buf]
    exact ⟨⟨Config.unspecAmt s.serial v.val, unspecAmt_lt _ _, sampledVoice_amt ..⟩,
      sampledVoice_last .., sampledVoice_filter .., toNat_advance _,
      Memory.readWord_writeWord_same _ canonical inRange,
      fun a => Memory.readByte_writeWord_outside _ _⟩
  case mix =>
    rw [← State.sample_sum]
    exact showsReal_shownReal _ _

/-- Settles O32: the clipped sum is in range, so it is no NaN and the answer is its own pattern. -/
theorem esampOutputIsInRange : Obligations.EsampOutputIsInRange := by
  intro s x ok sum
  obtain ⟨low, high⟩ := clip_in_range sum
  obtain ⟨clipped, -⟩ := of_fle high
  refine ⟨s.after (.esamp x), clip (s.sample x).2, exec_esamp_of_buffersOk ok x, ?_, low, high,
    clip_of_flt_negOne⟩
  rw [State.after_esamp_resp, shownReal_of_not_nan _ clipped]

end Sys2Proof.Machine
end

section
/-!
EFRAME (R142, R187): the filter of a voice after its new cutoff and Q, by variant, the flags, and that what
is loaded comes from the parameter registers.
-/

namespace Sys2Proof.Machine

/-! ### The filter after its cutoff and its Q -/

/-- An SVF after a new cutoff has the coefficients of the new setting, or on a failure its old ones
(R114). -/
theorem Filter.setCutoff_svf (g : SvfFilter) (c : Word) :
    Filter.setCutoff (.svf g) (real c) =
      (.svf { g with cut := real c, co := (svfCoef g.type g.srate c g.q g.gain).getD g.co },
        (svfCoef g.type g.srate c g.q g.gain).isNone) := by
  cases library : svfCoef g.type g.srate c g.q g.gain with
  | some k => exact Filter.setCutoff_of_some library
  | none => exact Filter.setCutoff_of_none library

/-- An SVF after a new Q has the coefficients of the new setting, or on a failure its old ones (R116). -/
theorem Filter.setQ_svf (g : SvfFilter) (q : Word) :
    Filter.setQ (.svf g) (real q) =
      (.svf { g with q := real q, co := (svfCoef g.type g.srate g.cut q g.gain).getD g.co },
        (svfCoef g.type g.srate g.cut q g.gain).isNone) := by
  cases library : svfCoef g.type g.srate g.cut q g.gain with
  | some k => exact Filter.setQ_of_some library
  | none => exact Filter.setQ_of_none library

section
variable {c : Voice}

theorem framedVoice_filter_comb {g : CombFilter} (h : c.filter = .comb g) (wet : Word) :
    (framedVoice wet c).filter = .comb (g.setCutoffWith realExp c.pVcut) := by
  simp only [framedVoice, h, Filter.setCutoff_comb, Filter.setQ_comb]

/-- The Q is set last, so its computation decides when it succeeds, and else that of the cutoff. -/
theorem framedVoice_filter_svf {g : SvfFilter} (h : c.filter = .svf g) (wet : Word) :
    (framedVoice wet c).filter = .svf { g with
      cut := real c.pVcut
      q := real c.pVq
      co := (svfCoef g.type g.srate c.pVcut c.pVq g.gain).getD
        ((svfCoef g.type g.srate c.pVcut g.q g.gain).getD g.co) } := by
  simp only [framedVoice, h, Filter.setCutoff_svf, Filter.setQ_svf, svfCoef_real_cut]

theorem frameFails_comb {g : CombFilter} (h : c.filter = .comb g) : c.frameFails = false := by
  simp only [Voice.frameFails, h, Filter.setCutoff_comb, Filter.setQ_comb, Bool.or_false]

theorem frameFails_svf {g : SvfFilter} (h : c.filter = .svf g) :
    c.frameFails = ((svfCoef g.type g.srate c.pVcut g.q g.gain).isNone ||
      (svfCoef g.type g.srate c.pVcut c.pVq g.gain).isNone) := by
  simp only [Voice.frameFails, h, Filter.setCutoff_svf, Filter.setQ_svf, svfCoef_real_cut]

/-- A comb's coefficients after EFRAME are those of the cutoff parameter. -/
theorem coefficients_of_framedVoice_comb {wet : Word} {h : CombFilter}
    (e : (framedVoice wet c).filter = .comb h) :
    h.b = realExp (fmul negTwoPi c.pVcut) ∧ h.a = fsub one (realExp (fmul negTwoPi c.pVcut)) := by
  cases hc : c.filter with
  | comb g =>
    obtain rfl := Filter.comb.inj ((framedVoice_filter_comb hc wet).symm.trans e)
    exact ⟨rfl, rfl⟩
  | svf g => cases (framedVoice_filter_svf hc wet).symm.trans e

/-- An SVF's setting after EFRAME is that of the parameters, and the coefficients are those of that
setting, if the library has some. -/
theorem setting_of_framedVoice_svf {wet : Word} {h : SvfFilter}
    (e : (framedVoice wet c).filter = .svf h) :
    h.cut = real c.pVcut ∧ h.q = real c.pVq ∧
      ∀ k, svfCoef h.type h.srate h.cut h.q h.gain = some k → h.co = k := by
  cases hc : c.filter with
  | comb g => cases (framedVoice_filter_comb hc wet).symm.trans e
  | svf g =>
    obtain rfl := Filter.svf.inj ((framedVoice_filter_svf hc wet).symm.trans e)
    refine ⟨rfl, rfl, fun k library => ?_⟩
    simp only [svfCoef_real_cut, svfCoef_real_q] at library
    rw [library, Option.getD_some]

end

/-! ### The command -/

theorem State.after_eframe_voice (s : State) (v : Fin Config.nv) :
    (s.after .eframe).voice v = notedVoice s.pBase (framedVoice s.pWet (s.voice v)) := by
  obtain ⟨-, voices⟩ := s.frame_spec
  rw [State.after_eframe, State.finish_voice, voices v]

theorem State.after_eframe_filter (s : State) (v : Fin Config.nv) :
    ((s.after .eframe).voice v).filter = (framedVoice s.pWet (s.voice v)).filter := by
  rw [State.after_eframe_voice]
  rfl

/-- The registers outside the voices that EFRAME loads (R142). -/
theorem State.after_eframe_globals (s : State) : (s.after .eframe).eDry = real s.pDry ∧
    (s.after .eframe).lfoAmt = real s.pLdepth ∧ (s.after .eframe).lfoRate = real s.pLrate := by
  obtain ⟨⟨-, -, -, -, -, -, rate, amount, dry, -⟩, -⟩ := s.frame_spec
  rw [State.after_eframe, State.finish_eDry, State.finish_lfoAmt, State.finish_lfoRate]
  exact ⟨dry, amount, rate⟩

/-- A voice's flag after EFRAME: set before, or by a failure of its cutoff or its Q. -/
theorem State.coefErr_after_eframe (s : State) (v : Fin Config.nv) :
    coefErr (s.after .eframe).status v = (coefErr s.status v || (s.voice v).frameFails) := by
  rw [State.after_eframe, State.finish_status, Bool.eq_iff_iff, Bool.or_eq_true, coefErr,
    State.frame_status]
  refine or_congr_right ⟨?_, fun fails => ⟨v, rfl, fails⟩⟩
  rintro ⟨u, hu, fails⟩
  rwa [← Fin.ext hu]

/-- No flag of `STATUS` but those of the voices is written. -/
theorem State.getLsbD_after_eframe_of_le (s : State) {i : Nat} (h : Config.nv ≤ i) :
    (s.after .eframe).status.getLsbD i = s.status.getLsbD i := by
  rw [State.after_eframe, State.finish_status, Bool.eq_iff_iff, State.frame_status]
  refine or_iff_left ?_
  rintro ⟨v, rfl, -⟩
  exact absurd v.isLt h.not_gt

/-- EFRAME touches no delay line. -/
theorem sameDelayLine_after_eframe (s : State) (v : Fin Config.nv) :
    SameDelayLine v s (s.after .eframe) := by
  rw [SameDelayLine, State.after_eframe_voice]
  exact ⟨fun _ => rfl, rfl, rfl, rfl⟩

/-- Settles O29: the registers outside the voices, then each voice, its filter by variant. -/
theorem eframeLoadsTheFrame : Obligations.EframeLoadsTheFrame := by
  intro s
  have globals := globalsWrittenBy_after s .eframe
  obtain ⟨dry, amount, rate⟩ := s.after_eframe_globals
  refine ⟨s.after .eframe, exec_of_no_push rfl s, ⟨rfl, globals.cmdIn⟩, dry, amount, rate,
    globals.lfoPhase.resolve_right (by simp [Instr.opcode]), sameParams_after s (by simp [Instr.opcode]),
    fun i => s.getLsbD_after_eframe_of_le, fun v => ⟨sameDelayLine_after_eframe s v, ?_, ?_, ?_⟩⟩
  · rw [State.after_eframe_voice]
    rfl
  · rw [State.after_eframe_voice]
    rfl
  · rw [State.after_eframe_filter, State.coefErr_after_eframe]
    cases hf : (s.voice v).filter with
    | comb g =>
      rw [framedVoice_filter_comb hf, frameFails_comb hf, Bool.or_false]
      exact ⟨rfl, rfl⟩
    | svf g =>
      rw [framedVoice_filter_svf hf, frameFails_svf hf]
      exact ⟨rfl, (Bool.or_assoc _ _ _).symm⟩

/-- Equal parameters give equal latches (R142). -/
theorem sameLatches_after_eframe {s t : State} (h : SameParams s t) :
    SameLatches (s.after .eframe) (t.after .eframe) := by
  obtain ⟨hdry, hwet, -, -, hbase, voices⟩ := h
  obtain ⟨dry_s, -⟩ := s.after_eframe_globals
  obtain ⟨dry_t, -⟩ := t.after_eframe_globals
  refine ⟨by rw [dry_s, dry_t, hdry], fun v => ?_⟩
  obtain ⟨hgain, -, -, hoff⟩ := voices v
  simp only [State.after_eframe_voice, notedVoice, framedVoice, hwet, hbase, hgain, hoff, and_self]

/-- Settles O35: every value compared is a function of the parameters, and a coefficient set one of the
setting. -/
theorem eframeErasesResetValues : Obligations.EframeErasesResetValues := by
  intro s1 s2 t1 t2 params e1 e2
  obtain rfl := eq_after_of_exec e1
  obtain rfl := eq_after_of_exec e2
  obtain ⟨-, amount1, rate1⟩ := s1.after_eframe_globals
  obtain ⟨-, amount2, rate2⟩ := s2.after_eframe_globals
  have latches := sameLatches_after_eframe params
  obtain ⟨-, -, hrate, hdepth, -, voices⟩ := params
  refine ⟨latches, by rw [rate1, rate2, hrate], by rw [amount1, amount2, hdepth], fun v => ?_⟩
  obtain ⟨-, hcut, hq, -⟩ := voices v
  simp only [State.after_eframe_filter]
  refine ⟨fun g1 g2 f1 f2 => ?comb, fun g1 g2 k f1 f2 type srate gain library => ?svf⟩
  case comb =>
    obtain ⟨b1, a1⟩ := coefficients_of_framedVoice_comb f1
    obtain ⟨b2, a2⟩ := coefficients_of_framedVoice_comb f2
    exact ⟨by rw [b1, b2, hcut], by rw [a1, a2, hcut]⟩
  case svf =>
    obtain ⟨cut1, q1, co1⟩ := setting_of_framedVoice_svf f1
    obtain ⟨cut2, q2, co2⟩ := setting_of_framedVoice_svf f2
    have cut : g2.cut = g1.cut := by rw [cut1, cut2, hcut]
    have q : g2.q = g1.q := by rw [q1, q2, hq]
    exact ⟨co2 k (by rw [type, srate, cut, q, gain, library]), co1 k library⟩

end Sys2Proof.Machine
end

section
/-!
A step with an empty port (R175), and what a legal command answers (R160): it is well formed, so it is
answered with `err = 0`; and no command from a state with the invariant pushes to a word that does not
exist.
-/

namespace Sys2Proof.Machine

/-- Settles O9: with an empty port there is no next packet. -/
theorem idleHoldsAllState : Obligations.IdleHoldsAllState := by
  intro s idle
  have none_next : s.nextPacket = none := List.head?_eq_none_iff.2 idle
  simp only [step, none_next]

theorem wf_of_decode {p : Packet} {i : Instr} (h : decode p = .ok i) : i.wf = true :=
  (decodedWordIsTheEncodersWord p i h).1

/-- Every command answers, with `err` set just when it is ill formed: a PWR of a read-only register
(R81, R151). -/
theorem State.after_resp (s : State) (i : Instr) : ∃ r, (s.after i).resp = some ⟨!i.wf, r⟩ := by
  cases i with
  | pwr reg x =>
    rw [Instr.wf, ← s.isSome_writeParam reg x]
    cases h : s.writeParam reg x with
    | none => exact ⟨0, by rw [State.after_pwr_none h]; rfl⟩
    | some t => exact ⟨0, by rw [State.after_pwr_some h]; rfl⟩
  | _ => exact ⟨_, rfl⟩

/-- From a state with the invariant every command answers a next state: every write pointer names a word
(R35, R65). -/
theorem State.Inv.exec_eq {s : State} (h : s.Inv) (i : Instr) : exec i s = .next (s.after i) :=
  exec_eq_next_iff.2 ⟨fun v _ => (h.voice v).wp_lt, rfl⟩

/-- Settles O43: reachable states have the invariant, and a decoded command is well formed. -/
theorem legalCommandsComplete : Obligations.LegalCommandsComplete := by
  intro s p rest i reachable hport hdecode
  have inv : State.Inv { s with cmdIn := rest } := ⟨reachable.inv.voice, reachable.inv.status⟩
  obtain ⟨r, resp⟩ := State.after_resp { s with cmdIn := rest } i
  rw [wf_of_decode hdecode] at resp
  exact ⟨_, r, (step_of_decode hport hdecode).trans (inv.exec_eq i), resp,
    (globalsWrittenBy_after _ i).cmdIn⟩

end Sys2Proof.Machine
end
